-- ==== Sys2Proof/Word.lean ====
section
/-! DEFINITION. The widths of the machine: the 64-bit value of a register or an address (R17, R30), the
8-bit byte (R24), the 32-bit instruction word (R115), the 5-bit register number (R30, R122). -/

namespace Sys2Proof

/-- `BV64` of R17: a register value or an address. `+` and `-` wrap modulo 2^64 (R140). -/
abbrev Word := BitVec 64

/-- A byte of memory or of a cache block (R24, R46). -/
abbrev Byte := BitVec 8

/-- The word form of an instruction, bit 31 the most significant (R115). -/
abbrev InstrWord := BitVec 32

/-- A register number, 0 to 31 (R30). -/
abbrev RegNum := BitVec 5

/-- The register whose writes are dropped, `ZR = 31` (R6, R32). -/
def zr : RegNum := 31

/-- `SIGN = 0x8000000000000000` (R17). -/
def signBit : Word := 0x8000000000000000

end Sys2Proof
end

