-- ==== Sys2Proof/Config.lean ====
section
/-! DEFINITION. The named parameters of 00_scope.md R6 to R10 and R13, fixed from reset to reset. They are
plain data: the machine's state carries them, so that every statement about all states is about all
parameters. -/

namespace Sys2Proof

/-- `SP_INDEX`, the register whose value is checked when it is a base (R7, D1; log 5). -/
def spIndex : RegNum := 28

/-- `LR_INDEX`, the register BL writes (R7, D1; log 5). -/
def lrIndex : RegNum := 30

/-- `ISIZE`, the instruction size in bytes (R6). -/
def isize : Nat := 4

/-- `BYTE_ORDER` (R64). -/
inductive ByteOrder where
  | little
  | big
  deriving DecidableEq, Repr

/-- `SUBS_FLAG_MODE` (R145). -/
inductive SubsFlagMode where
  | literal
  | negated
  | inverted
  deriving DecidableEq, Repr

/-- The kinds of memory access that `MEM_VALID` tells apart (R62). -/
inductive AccessKind where
  | load
  | store
  | block
  deriving DecidableEq, Repr

/-- One window of `MEM_VALID` (log 6): an access of its kind that lies in `[base, limit)`, of a length between
`minLen` and `maxLen`, is valid. -/
structure Window where
  kind   : AccessKind
  base   : Nat
  limit  : Nat
  minLen : Nat
  maxLen : Nat
  deriving DecidableEq, Repr

/-- Whether the window admits the access. No access that passes `2^64` is admitted (R62 (b)). -/
def Window.admits (w : Window) (addr len : Nat) (kind : AccessKind) : Bool :=
  w.kind == kind && decide (w.base ≤ addr) && decide (addr + len ≤ w.limit) && decide (addr + len ≤ 2 ^ 64)
    && decide (w.minLen ≤ len) && decide (len ≤ w.maxLen)

/-- A cache pair (size in bytes, block size in bytes), as handed to the engine (R9); integers, since R81 (a)
speaks of zero and negative numbers. -/
structure CachePair where
  size      : Int
  blocksize : Int
  deriving DecidableEq, Repr

/-- The straps and the named parameters (R8, R9, R10, R13). -/
structure Params where
  textBase     : Word
  dynBase      : Word
  stackBase    : Word
  memMap       : List Window
  byteOrder    : ByteOrder
  subsFlagMode : SubsFlagMode
  icCfg        : Option CachePair
  dcCfg        : Option CachePair
  deriving DecidableEq, Repr

/-- `MEM_VALID(addr, len, kind)` (R62): a pure function of its three arguments, fixed from reset to reset. -/
def Params.memValid (p : Params) (addr : Word) (len : Nat) (kind : AccessKind) : Bool :=
  p.memMap.any fun w => w.admits addr.toNat len kind

/-- `RefMap`'s validity, the same for every kind: `0x400000 <= addr` and `addr + len <= 0x8000000000`
(R62, D18). -/
def refWindow (kind : AccessKind) : Window :=
  { kind := kind, base := 0x400000, limit := 0x8000000000, minLen := 0, maxLen := 2 ^ 64 }

/-- The reference instance `RefMap` (D18) with the default byte order (R64) and flag mode (R145) and no
cache. DESIGN CHOICE (unsafe): the spec leaves these open, log 2. -/
def Params.ref : Params :=
  { textBase := 0x400000
    dynBase := 0x10000000
    stackBase := 0x7FFFFFFFF0
    memMap := [refWindow .load, refWindow .store, refWindow .block]
    byteOrder := .little
    subsFlagMode := .literal
    icCfg := none
    dcCfg := none }

end Sys2Proof
end

