-- ==== Sys2Proof/Syntax.lean ====
section
/-! DEFINITION. The instruction set: one constructor of `Instr` per row of spec/opcode_table.json (R111), its
operands in the order of R112; the mnemonics as the closed enumeration of R110; and the decoded record
`(mn, args, line)` of R110 in its integer form. -/

namespace Sys2Proof

/-- The 49 instructions (R111). Registers are 5-bit numbers; `imm`, `shamt`, `off`, `imm16` are the fields of
R116 to R121 (`off` is signed); `hw` is the quadrant whose shift in bits is `sh = 16 * hw` (R122, R200); a
`target` is an absolute instruction index (R112), an integer because R113 speaks of targets outside
`0..PLEN`. Typed operands are a DESIGN CHOICE (safe), log 8. -/
inductive Instr where
  /-- ADD, R146. -/
  | add (rd rn rm : RegNum)
  /-- ADDI, R147. -/
  | addi (rd rn : RegNum) (imm : BitVec 12)
  /-- ADDS, R148. -/
  | adds (rd rn rm : RegNum)
  /-- ADDIS, R149. -/
  | addis (rd rn : RegNum) (imm : BitVec 12)
  /-- SUB, R150. -/
  | sub (rd rn rm : RegNum)
  /-- SUBI, R151. -/
  | subi (rd rn : RegNum) (imm : BitVec 12)
  /-- SUBS, R152. -/
  | subs (rd rn rm : RegNum)
  /-- SUBIS, R153. -/
  | subis (rd rn : RegNum) (imm : BitVec 12)
  /-- AND, R154. -/
  | and (rd rn rm : RegNum)
  /-- ANDI, R155. -/
  | andi (rd rn : RegNum) (imm : BitVec 12)
  /-- ANDS, R156. -/
  | ands (rd rn rm : RegNum)
  /-- ANDIS, R157. -/
  | andis (rd rn : RegNum) (imm : BitVec 12)
  /-- ORR, R158. -/
  | orr (rd rn rm : RegNum)
  /-- ORRI, R159. -/
  | orri (rd rn : RegNum) (imm : BitVec 12)
  /-- EOR, R160. -/
  | eor (rd rn rm : RegNum)
  /-- EORI, R161. -/
  | eori (rd rn : RegNum) (imm : BitVec 12)
  /-- LSL, R171. -/
  | lsl (rd rn : RegNum) (shamt : BitVec 6)
  /-- LSR, R172. -/
  | lsr (rd rn : RegNum) (shamt : BitVec 6)
  /-- LDUR, R180. -/
  | ldur (rt rn : RegNum) (off : BitVec 9)
  /-- LDURSW, R181. -/
  | ldursw (rt rn : RegNum) (off : BitVec 9)
  /-- LDURH, R182. -/
  | ldurh (rt rn : RegNum) (off : BitVec 9)
  /-- LDURB, R183. -/
  | ldurb (rt rn : RegNum) (off : BitVec 9)
  /-- STUR, R184. -/
  | stur (rt rn : RegNum) (off : BitVec 9)
  /-- STURW, R185. -/
  | sturw (rt rn : RegNum) (off : BitVec 9)
  /-- STURH, R186. -/
  | sturh (rt rn : RegNum) (off : BitVec 9)
  /-- STURB, R187. -/
  | sturb (rt rn : RegNum) (off : BitVec 9)
  /-- LDXR, R196. -/
  | ldxr (rt rn : RegNum) (off : BitVec 9)
  /-- STXR, R197. -/
  | stxr (rt rs rn : RegNum)
  /-- MOVZ, R201. -/
  | movz (rd : RegNum) (imm16 : BitVec 16) (hw : BitVec 2)
  /-- MOVK, R202. -/
  | movk (rd : RegNum) (imm16 : BitVec 16) (hw : BitVec 2)
  /-- CBZ, R206. -/
  | cbz (rt : RegNum) (target : Int)
  /-- CBNZ, R207. -/
  | cbnz (rt : RegNum) (target : Int)
  /-- BEQ, R212. -/
  | beq (target : Int)
  /-- BNE, R213. -/
  | bne (target : Int)
  /-- BHS, R214. -/
  | bhs (target : Int)
  /-- BLO, R215. -/
  | blo (target : Int)
  /-- BHI, R216. -/
  | bhi (target : Int)
  /-- BLS, R217. -/
  | bls (target : Int)
  /-- BGE, R218. -/
  | bge (target : Int)
  /-- BLT, R219. -/
  | blt (target : Int)
  /-- BGT, R220. -/
  | bgt (target : Int)
  /-- BLE, R221. -/
  | ble (target : Int)
  /-- BMI, R222. -/
  | bmi (target : Int)
  /-- BPL, R223. -/
  | bpl (target : Int)
  /-- BVS, R224. -/
  | bvs (target : Int)
  /-- BVC, R225. -/
  | bvc (target : Int)
  /-- B, R231. -/
  | b (target : Int)
  /-- BL, R232. -/
  | bl (target : Int)
  /-- BR, R233. -/
  | br (rn : RegNum)
  deriving DecidableEq, Repr

/-- The mnemonics, "a closed tagged-variant enumeration" (R110, R111). -/
inductive Mnemonic where
  | add | addi | adds | addis | sub | subi | subs | subis
  | and | andi | ands | andis | orr | orri | eor | eori
  | lsl | lsr | ldur | ldursw | ldurh | ldurb | stur | sturw
  | sturh | sturb | ldxr | stxr | movz | movk | cbz | cbnz
  | beq | bne | bhs | blo | bhi | bls | bge | blt
  | bgt | ble | bmi | bpl | bvs | bvc | b | bl
  | br
  deriving DecidableEq, Repr

/-- The decoded record of R110: mnemonic, integer arguments, source line. -/
structure Record where
  mn   : Mnemonic
  args : List Int
  line : Nat
  deriving DecidableEq, Repr

/-- The mnemonic of an instruction. -/
def Instr.mnemonic : Instr → Mnemonic
  | .add _ _ _ => .add
  | .addi _ _ _ => .addi
  | .adds _ _ _ => .adds
  | .addis _ _ _ => .addis
  | .sub _ _ _ => .sub
  | .subi _ _ _ => .subi
  | .subs _ _ _ => .subs
  | .subis _ _ _ => .subis
  | .and _ _ _ => .and
  | .andi _ _ _ => .andi
  | .ands _ _ _ => .ands
  | .andis _ _ _ => .andis
  | .orr _ _ _ => .orr
  | .orri _ _ _ => .orri
  | .eor _ _ _ => .eor
  | .eori _ _ _ => .eori
  | .lsl _ _ _ => .lsl
  | .lsr _ _ _ => .lsr
  | .ldur _ _ _ => .ldur
  | .ldursw _ _ _ => .ldursw
  | .ldurh _ _ _ => .ldurh
  | .ldurb _ _ _ => .ldurb
  | .stur _ _ _ => .stur
  | .sturw _ _ _ => .sturw
  | .sturh _ _ _ => .sturh
  | .sturb _ _ _ => .sturb
  | .ldxr _ _ _ => .ldxr
  | .stxr _ _ _ => .stxr
  | .movz _ _ _ => .movz
  | .movk _ _ _ => .movk
  | .cbz _ _ => .cbz
  | .cbnz _ _ => .cbnz
  | .beq _ => .beq
  | .bne _ => .bne
  | .bhs _ => .bhs
  | .blo _ => .blo
  | .bhi _ => .bhi
  | .bls _ => .bls
  | .bge _ => .bge
  | .blt _ => .blt
  | .bgt _ => .bgt
  | .ble _ => .ble
  | .bmi _ => .bmi
  | .bpl _ => .bpl
  | .bvs _ => .bvs
  | .bvc _ => .bvc
  | .b _ => .b
  | .bl _ => .bl
  | .br _ => .br

/-- The argument list of an instruction's record, in the order of R112; immediates by R114 and R122: `imm`,
`imm16`, `shamt` unsigned, `off` signed, `sh` in bits. -/
def Instr.args : Instr → List Int
  | .add rd rn rm => [(rd.toNat : Int), (rn.toNat : Int), (rm.toNat : Int)]
  | .addi rd rn imm => [(rd.toNat : Int), (rn.toNat : Int), (imm.toNat : Int)]
  | .adds rd rn rm => [(rd.toNat : Int), (rn.toNat : Int), (rm.toNat : Int)]
  | .addis rd rn imm => [(rd.toNat : Int), (rn.toNat : Int), (imm.toNat : Int)]
  | .sub rd rn rm => [(rd.toNat : Int), (rn.toNat : Int), (rm.toNat : Int)]
  | .subi rd rn imm => [(rd.toNat : Int), (rn.toNat : Int), (imm.toNat : Int)]
  | .subs rd rn rm => [(rd.toNat : Int), (rn.toNat : Int), (rm.toNat : Int)]
  | .subis rd rn imm => [(rd.toNat : Int), (rn.toNat : Int), (imm.toNat : Int)]
  | .and rd rn rm => [(rd.toNat : Int), (rn.toNat : Int), (rm.toNat : Int)]
  | .andi rd rn imm => [(rd.toNat : Int), (rn.toNat : Int), (imm.toNat : Int)]
  | .ands rd rn rm => [(rd.toNat : Int), (rn.toNat : Int), (rm.toNat : Int)]
  | .andis rd rn imm => [(rd.toNat : Int), (rn.toNat : Int), (imm.toNat : Int)]
  | .orr rd rn rm => [(rd.toNat : Int), (rn.toNat : Int), (rm.toNat : Int)]
  | .orri rd rn imm => [(rd.toNat : Int), (rn.toNat : Int), (imm.toNat : Int)]
  | .eor rd rn rm => [(rd.toNat : Int), (rn.toNat : Int), (rm.toNat : Int)]
  | .eori rd rn imm => [(rd.toNat : Int), (rn.toNat : Int), (imm.toNat : Int)]
  | .lsl rd rn shamt => [(rd.toNat : Int), (rn.toNat : Int), (shamt.toNat : Int)]
  | .lsr rd rn shamt => [(rd.toNat : Int), (rn.toNat : Int), (shamt.toNat : Int)]
  | .ldur rt rn off => [(rt.toNat : Int), (rn.toNat : Int), off.toInt]
  | .ldursw rt rn off => [(rt.toNat : Int), (rn.toNat : Int), off.toInt]
  | .ldurh rt rn off => [(rt.toNat : Int), (rn.toNat : Int), off.toInt]
  | .ldurb rt rn off => [(rt.toNat : Int), (rn.toNat : Int), off.toInt]
  | .stur rt rn off => [(rt.toNat : Int), (rn.toNat : Int), off.toInt]
  | .sturw rt rn off => [(rt.toNat : Int), (rn.toNat : Int), off.toInt]
  | .sturh rt rn off => [(rt.toNat : Int), (rn.toNat : Int), off.toInt]
  | .sturb rt rn off => [(rt.toNat : Int), (rn.toNat : Int), off.toInt]
  | .ldxr rt rn off => [(rt.toNat : Int), (rn.toNat : Int), off.toInt]
  | .stxr rt rs rn => [(rt.toNat : Int), (rs.toNat : Int), (rn.toNat : Int)]
  | .movz rd imm16 hw => [(rd.toNat : Int), (imm16.toNat : Int), 16 * (hw.toNat : Int)]
  | .movk rd imm16 hw => [(rd.toNat : Int), (imm16.toNat : Int), 16 * (hw.toNat : Int)]
  | .cbz rt target => [(rt.toNat : Int), target]
  | .cbnz rt target => [(rt.toNat : Int), target]
  | .beq target => [target]
  | .bne target => [target]
  | .bhs target => [target]
  | .blo target => [target]
  | .bhi target => [target]
  | .bls target => [target]
  | .bge target => [target]
  | .blt target => [target]
  | .bgt target => [target]
  | .ble target => [target]
  | .bmi target => [target]
  | .bpl target => [target]
  | .bvs target => [target]
  | .bvc target => [target]
  | .b target => [target]
  | .bl target => [target]
  | .br rn => [(rn.toNat : Int)]

/-- The record of an instruction (R110). -/
def Instr.record (i : Instr) (line : Nat) : Record := { mn := i.mnemonic, args := i.args, line := line }

/-- The branch target of an instruction that carries one (R112). -/
def Instr.target? : Instr → Option Int
  | .add _ _ _ => none
  | .addi _ _ _ => none
  | .adds _ _ _ => none
  | .addis _ _ _ => none
  | .sub _ _ _ => none
  | .subi _ _ _ => none
  | .subs _ _ _ => none
  | .subis _ _ _ => none
  | .and _ _ _ => none
  | .andi _ _ _ => none
  | .ands _ _ _ => none
  | .andis _ _ _ => none
  | .orr _ _ _ => none
  | .orri _ _ _ => none
  | .eor _ _ _ => none
  | .eori _ _ _ => none
  | .lsl _ _ _ => none
  | .lsr _ _ _ => none
  | .ldur _ _ _ => none
  | .ldursw _ _ _ => none
  | .ldurh _ _ _ => none
  | .ldurb _ _ _ => none
  | .stur _ _ _ => none
  | .sturw _ _ _ => none
  | .sturh _ _ _ => none
  | .sturb _ _ _ => none
  | .ldxr _ _ _ => none
  | .stxr _ _ _ => none
  | .movz _ _ _ => none
  | .movk _ _ _ => none
  | .cbz _ target => some target
  | .cbnz _ target => some target
  | .beq target => some target
  | .bne target => some target
  | .bhs target => some target
  | .blo target => some target
  | .bhi target => some target
  | .bls target => some target
  | .bge target => some target
  | .blt target => some target
  | .bgt target => some target
  | .ble target => some target
  | .bmi target => some target
  | .bpl target => some target
  | .bvs target => some target
  | .bvc target => some target
  | .b target => some target
  | .bl target => some target
  | .br _ => none

end Sys2Proof
end

