-- ==== Sys2Proof/WellFormed.lean ====
section
/-! DEFINITION. Well-formedness of an instruction record, the named checks of 30_encoding.md R113. A record
that fails any check is refused. -/

namespace Sys2Proof

/-- The checks of R113, by the names that rule gives them. -/
inductive WfCheck where
  /-- `WF_ARITY`: the argument list has the length R112 gives. -/
  | arity
  /-- `WF_REG`: every register argument is in 0..31. -/
  | reg
  /-- `WF_IMM12`: `0 <= imm <= 4095`. -/
  | imm12
  /-- `WF_SHAMT`: `0 <= shamt <= 63`. -/
  | shamt
  /-- `WF_OFF9`: `-256 <= off <= 255`. -/
  | off9
  /-- `WF_IMM16`: `0 <= imm16 <= 65535`. -/
  | imm16
  /-- `WF_MOVSH`: `sh` in 0, 16, 32, 48. -/
  | movsh
  /-- `WF_TARGET`: `0 <= target <= PLEN`. -/
  | target
  /-- `WF_LDXR_RT`: for LDXR, `rt != 31`. -/
  | ldxrRt
  deriving DecidableEq, Repr

/-- The shapes of the argument lists of R112. -/
inductive Shape where
  | regReg | regImm | shift | transfer | loadExclusive | storeExclusive | wideMove | compareBranch | branch
  | branchRegister
  deriving DecidableEq, Repr

/-- The shape of each mnemonic's argument list (R112). -/
def Mnemonic.shape : Mnemonic → Shape
  | .add | .adds | .sub | .subs | .and | .ands | .orr | .eor => .regReg
  | .addi | .addis | .subi | .subis | .andi | .andis | .orri | .eori => .regImm
  | .lsl | .lsr => .shift
  | .ldur | .ldursw | .ldurh | .ldurb | .stur | .sturw | .sturh | .sturb => .transfer
  | .ldxr => .loadExclusive
  | .stxr => .storeExclusive
  | .movz | .movk => .wideMove
  | .cbz | .cbnz => .compareBranch
  | .beq | .bne | .bhs | .blo | .bhi | .bls | .bge | .blt
  | .bgt | .ble | .bmi | .bpl | .bvs | .bvc | .b | .bl => .branch
  | .br => .branchRegister

/-- `lo <= x <= hi`. -/
def inRange (lo hi x : Int) : Bool := decide (lo ≤ x) && decide (x ≤ hi)

/-- A register argument is in 0..31. -/
def isReg (x : Int) : Bool := inRange 0 31 x

/-- The first check of a list that does not hold. -/
def firstFailing : List (WfCheck × Bool) → Option WfCheck
  | [] => none
  | (c, ok) :: rest => if ok then firstFailing rest else some c

/-- `WF_TARGET`: the target lies in `0..PLEN`; `PLEN` itself ends the program (R113, D28). -/
def targetOk (plen : Nat) (target : Int) : Bool := inRange 0 plen target

/-- The check of R113 that a record of a program of `plen` instructions fails, if any. The spec names the checks
and gives them no order: that a record which fails several is reported with the first in the order of R113's
table is a DESIGN CHOICE (safe), log 19. -/
def Record.failing (plen : Nat) (r : Record) : Option WfCheck :=
  match r.mn.shape, r.args with
  | .regReg, [rd, rn, rm] => firstFailing [(.reg, isReg rd && isReg rn && isReg rm)]
  | .regImm, [rd, rn, imm] => firstFailing [(.reg, isReg rd && isReg rn), (.imm12, inRange 0 4095 imm)]
  | .shift, [rd, rn, shamt] => firstFailing [(.reg, isReg rd && isReg rn), (.shamt, inRange 0 63 shamt)]
  | .transfer, [rt, rn, off] => firstFailing [(.reg, isReg rt && isReg rn), (.off9, inRange (-256) 255 off)]
  | .loadExclusive, [rt, rn, off] =>
    firstFailing [(.reg, isReg rt && isReg rn), (.off9, inRange (-256) 255 off), (.ldxrRt, rt != 31)]
  | .storeExclusive, [rt, rs, rn] => firstFailing [(.reg, isReg rt && isReg rs && isReg rn)]
  | .wideMove, [rd, imm16, sh] =>
    firstFailing [(.reg, isReg rd), (.imm16, inRange 0 65535 imm16), (.movsh, sh == 0 || sh == 16 || sh == 32 || sh == 48)]
  | .compareBranch, [rt, target] => firstFailing [(.reg, isReg rt), (.target, targetOk plen target)]
  | .branch, [target] => firstFailing [(.target, targetOk plen target)]
  | .branchRegister, [rn] => firstFailing [(.reg, isReg rn)]
  | _, _ => some .arity

/-- A record is well formed when it passes every check (R113). -/
def Record.wellFormed (plen : Nat) (r : Record) : Bool := (r.failing plen).isNone

/-- The check an instruction fails in a program of `plen` instructions: of R113's checks only `WF_TARGET` and
`WF_LDXR_RT` can fail, the others hold by the types of the operands. -/
def Instr.failing (plen : Nat) (i : Instr) : Option WfCheck := (i.record 0).failing plen

/-- An instruction is well formed when its record is. -/
def Instr.wellFormed (plen : Nat) (i : Instr) : Bool := (i.failing plen).isNone

end Sys2Proof
end

