-- ==== Sys2Proof/Decode.lean ====
section
/-! DEFINITION. The decoder and the encoder of the word form (30_encoding.md Part B, R115 to R126), and the
reading of an integer record into an instruction (Part A, R110 to R113).

The decoder reads the opcode bit strings of R123 from bit 31 down and pulls the fields of R116 to R121; the
encoder is written from the same table's `match` values. A word form stands at an instruction index `k`,
since branch fields are relative to it (R122). An instruction word has no byte order: the engine is handed
words, not bytes (R73, log 11). -/

namespace Sys2Proof

/-! ## The fields of a word (R116 to R121) -/

/-- `Rd[4:0]`, also `Rt[4:0]`. -/
def fieldRd (w : InstrWord) : RegNum := w.extractLsb' 0 5
/-- `Rn[9:5]`. -/
def fieldRn (w : InstrWord) : RegNum := w.extractLsb' 5 5
/-- `Rm[20:16]`, also `Rs[20:16]` of STXR. -/
def fieldRm (w : InstrWord) : RegNum := w.extractLsb' 16 5
/-- `shamt[15:10]`. -/
def fieldShamt (w : InstrWord) : BitVec 6 := w.extractLsb' 10 6
/-- `imm12[21:10]`. -/
def fieldImm12 (w : InstrWord) : BitVec 12 := w.extractLsb' 10 12
/-- `addr9[20:12]`. -/
def fieldAddr9 (w : InstrWord) : BitVec 9 := w.extractLsb' 12 9
/-- `hw[22:21]`. -/
def fieldHw (w : InstrWord) : BitVec 2 := w.extractLsb' 21 2
/-- `imm16[20:5]`. -/
def fieldImm16 (w : InstrWord) : BitVec 16 := w.extractLsb' 5 16
/-- `addr19[23:5]`. -/
def fieldAddr19 (w : InstrWord) : BitVec 19 := w.extractLsb' 5 19
/-- `addr26[25:0]`. -/
def fieldAddr26 (w : InstrWord) : BitVec 26 := w.extractLsb' 0 26
/-- The top eleven bits, `w[31:21]`: every opcode of R123 is a prefix of them. -/
def fieldTop (w : InstrWord) : BitVec 11 := w.extractLsb' 21 11

/-! ## The opcode map (R123, R124) -/

/-- What an opcode bit string stands for: one mnemonic, or the condition-code branches, which share
`01010100` and carry the condition number in `w[4:0]` (R120). -/
inductive Opcode where
  | one (m : Mnemonic)
  | condBranch
  deriving DecidableEq, Repr

/-- A row of R123: the opcode bits read from bit 31 down, their count and their value. -/
structure OpcodeRow where
  len  : Nat
  bits : Nat
  op   : Opcode
  deriving DecidableEq, Repr

/-- The 36 opcode bit strings of R123. They are prefix-free, so the order of the rows does not matter. -/
def opcodeRows : List OpcodeRow :=
  [ ⟨11, 0b10001011000, .one .add⟩
  , ⟨10, 0b1001000100, .one .addi⟩
  , ⟨11, 0b10101011000, .one .adds⟩
  , ⟨10, 0b1011000100, .one .addis⟩
  , ⟨11, 0b11001011000, .one .sub⟩
  , ⟨10, 0b1101000100, .one .subi⟩
  , ⟨11, 0b11101011000, .one .subs⟩
  , ⟨10, 0b1111000100, .one .subis⟩
  , ⟨11, 0b10001010000, .one .and⟩
  , ⟨10, 0b1001001000, .one .andi⟩
  , ⟨11, 0b11101010000, .one .ands⟩
  , ⟨10, 0b1111001000, .one .andis⟩
  , ⟨11, 0b10101010000, .one .orr⟩
  , ⟨10, 0b1011001000, .one .orri⟩
  , ⟨11, 0b11001010000, .one .eor⟩
  , ⟨10, 0b1101001000, .one .eori⟩
  , ⟨11, 0b11010011011, .one .lsl⟩
  , ⟨11, 0b11010011010, .one .lsr⟩
  , ⟨11, 0b11111000010, .one .ldur⟩
  , ⟨11, 0b10111000100, .one .ldursw⟩
  , ⟨11, 0b01111000010, .one .ldurh⟩
  , ⟨11, 0b00111000010, .one .ldurb⟩
  , ⟨11, 0b11111000000, .one .stur⟩
  , ⟨11, 0b10111000000, .one .sturw⟩
  , ⟨11, 0b01111000000, .one .sturh⟩
  , ⟨11, 0b00111000000, .one .sturb⟩
  , ⟨11, 0b11001000010, .one .ldxr⟩
  , ⟨11, 0b11001000000, .one .stxr⟩
  , ⟨9, 0b110100101, .one .movz⟩
  , ⟨9, 0b111100101, .one .movk⟩
  , ⟨8, 0b10110100, .one .cbz⟩
  , ⟨8, 0b10110101, .one .cbnz⟩
  , ⟨8, 0b01010100, .condBranch⟩
  , ⟨6, 0b000101, .one .b⟩
  , ⟨6, 0b100101, .one .bl⟩
  , ⟨11, 0b11010110000, .one .br⟩ ]

/-- Whether the row's opcode bits are the leading bits of `top = w[31:21]`. -/
def OpcodeRow.fits (r : OpcodeRow) (top : BitVec 11) : Bool := top.toNat >>> (11 - r.len) == r.bits

/-- The opcode of a word, from its top eleven bits. -/
def findOpcode (top : BitVec 11) : Option Opcode := (opcodeRows.find? fun r => r.fits top).map OpcodeRow.op

/-- The condition-code branch of a condition number in `w[4:0]` (R124); 14 to 31 name none. -/
def condMnemonic (n : BitVec 5) : Option Mnemonic :=
  match n.toNat with
  | 0 => some .beq
  | 1 => some .bne
  | 2 => some .bhs
  | 3 => some .blo
  | 4 => some .bmi
  | 5 => some .bpl
  | 6 => some .bvs
  | 7 => some .bvc
  | 8 => some .bhi
  | 9 => some .bls
  | 10 => some .bge
  | 11 => some .blt
  | 12 => some .bgt
  | 13 => some .ble
  | _ => none

/-- Why a word is rejected: it fits no row (R126). -/
inductive DecodeError where
  | illegal (w : InstrWord)
  deriving DecidableEq, Repr

/-- The mnemonic a word spells, if any (R123, R124). -/
def wordMnemonic (w : InstrWord) : Option Mnemonic :=
  match findOpcode (fieldTop w) with
  | none => none
  | some (.one m) => some m
  | some .condBranch => condMnemonic (fieldRd w)

/-- `target = k + s19(w[23:5])` (R122). -/
def target19 (k : Nat) (w : InstrWord) : Int := k + (fieldAddr19 w).toInt
/-- `target = k + s26(w[25:0])` (R122). -/
def target26 (k : Nat) (w : InstrWord) : Int := k + (fieldAddr26 w).toInt

/-- The instruction of a mnemonic with the fields of its format (R116 to R122). Fields that a format ignores
are not read (R125). -/
def withFields (m : Mnemonic) (k : Nat) (w : InstrWord) : Instr :=
  match m with
  | .add => .add (fieldRd w) (fieldRn w) (fieldRm w)
  | .addi => .addi (fieldRd w) (fieldRn w) (fieldImm12 w)
  | .adds => .adds (fieldRd w) (fieldRn w) (fieldRm w)
  | .addis => .addis (fieldRd w) (fieldRn w) (fieldImm12 w)
  | .sub => .sub (fieldRd w) (fieldRn w) (fieldRm w)
  | .subi => .subi (fieldRd w) (fieldRn w) (fieldImm12 w)
  | .subs => .subs (fieldRd w) (fieldRn w) (fieldRm w)
  | .subis => .subis (fieldRd w) (fieldRn w) (fieldImm12 w)
  | .and => .and (fieldRd w) (fieldRn w) (fieldRm w)
  | .andi => .andi (fieldRd w) (fieldRn w) (fieldImm12 w)
  | .ands => .ands (fieldRd w) (fieldRn w) (fieldRm w)
  | .andis => .andis (fieldRd w) (fieldRn w) (fieldImm12 w)
  | .orr => .orr (fieldRd w) (fieldRn w) (fieldRm w)
  | .orri => .orri (fieldRd w) (fieldRn w) (fieldImm12 w)
  | .eor => .eor (fieldRd w) (fieldRn w) (fieldRm w)
  | .eori => .eori (fieldRd w) (fieldRn w) (fieldImm12 w)
  | .lsl => .lsl (fieldRd w) (fieldRn w) (fieldShamt w)
  | .lsr => .lsr (fieldRd w) (fieldRn w) (fieldShamt w)
  | .ldur => .ldur (fieldRd w) (fieldRn w) (fieldAddr9 w)
  | .ldursw => .ldursw (fieldRd w) (fieldRn w) (fieldAddr9 w)
  | .ldurh => .ldurh (fieldRd w) (fieldRn w) (fieldAddr9 w)
  | .ldurb => .ldurb (fieldRd w) (fieldRn w) (fieldAddr9 w)
  | .stur => .stur (fieldRd w) (fieldRn w) (fieldAddr9 w)
  | .sturw => .sturw (fieldRd w) (fieldRn w) (fieldAddr9 w)
  | .sturh => .sturh (fieldRd w) (fieldRn w) (fieldAddr9 w)
  | .sturb => .sturb (fieldRd w) (fieldRn w) (fieldAddr9 w)
  | .ldxr => .ldxr (fieldRd w) (fieldRn w) (fieldAddr9 w)
  | .stxr => .stxr (fieldRd w) (fieldRm w) (fieldRn w)
  | .movz => .movz (fieldRd w) (fieldImm16 w) (fieldHw w)
  | .movk => .movk (fieldRd w) (fieldImm16 w) (fieldHw w)
  | .cbz => .cbz (fieldRd w) (target19 k w)
  | .cbnz => .cbnz (fieldRd w) (target19 k w)
  | .beq => .beq (target19 k w)
  | .bne => .bne (target19 k w)
  | .bhs => .bhs (target19 k w)
  | .blo => .blo (target19 k w)
  | .bhi => .bhi (target19 k w)
  | .bls => .bls (target19 k w)
  | .bge => .bge (target19 k w)
  | .blt => .blt (target19 k w)
  | .bgt => .bgt (target19 k w)
  | .ble => .ble (target19 k w)
  | .bmi => .bmi (target19 k w)
  | .bpl => .bpl (target19 k w)
  | .bvs => .bvs (target19 k w)
  | .bvc => .bvc (target19 k w)
  | .b => .b (target26 k w)
  | .bl => .bl (target26 k w)
  | .br => .br (fieldRn w)

/-- Decoding a word at instruction index `k` (R125): total, a word that fits no row is rejected by name
(R126). A branch whose computed target falls outside the program still decodes; its record then fails
`WF_TARGET` (R122). -/
def decode (k : Nat) (w : InstrWord) : Except DecodeError Instr :=
  match wordMnemonic w with
  | some m => .ok (withFields m k w)
  | none => .error (.illegal w)

/-- The instruction the decoder reads from an instruction whose bits are `w`, numbered as
spec/opcode_table.json numbers them, standing at instruction index 0, where a program begins (log 11). -/
def decodeTableWord (nbits w : Nat) : Option Instr :=
  if nbits ≤ 32 then
    match decode 0 (BitVec.ofNat 32 (w % 2 ^ nbits)) with
    | .ok i => some i
    | .error _ => none
  else none

/-! ## The encoder (R125) -/

/-- A field's bits at their place in the word. -/
def place {n : Nat} (x : BitVec n) (lo : Nat) : InstrWord := x.setWidth 32 <<< lo

/-- The R-format (R116): `m` is the row's `match`. -/
def encodeR (m : InstrWord) (rm : RegNum) (shamt : BitVec 6) (rn rd : RegNum) : InstrWord :=
  m ||| place rm 16 ||| place shamt 10 ||| place rn 5 ||| place rd 0

/-- The I-format (R117). -/
def encodeI (m : InstrWord) (imm : BitVec 12) (rn rd : RegNum) : InstrWord :=
  m ||| place imm 10 ||| place rn 5 ||| place rd 0

/-- The D-format (R118), `op2` canonical 0. -/
def encodeD (m : InstrWord) (off : BitVec 9) (rn rt : RegNum) : InstrWord :=
  m ||| place off 12 ||| place rn 5 ||| place rt 0

/-- The STXR layout of the D-format (R118), bits 15 to 10 canonical 0. -/
def encodeX (m : InstrWord) (rs rn rt : RegNum) : InstrWord :=
  m ||| place rs 16 ||| place rn 5 ||| place rt 0

/-- The IM-format (R121). -/
def encodeIM (m : InstrWord) (hw : BitVec 2) (imm16 : BitVec 16) (rd : RegNum) : InstrWord :=
  m ||| place hw 21 ||| place imm16 5 ||| place rd 0

/-- The CB-format (R120): the displacement from the branch's own index `k`, and `Rt`. -/
def encodeCB (m : InstrWord) (k : Nat) (target : Int) (rt : RegNum) : InstrWord :=
  m ||| place (BitVec.ofInt 19 (target - k)) 5 ||| place rt 0

/-- The condition-code branches: as `encodeCB`, the condition number being part of `match` (R123). -/
def encodeCond (m : InstrWord) (k : Nat) (target : Int) : InstrWord :=
  m ||| place (BitVec.ofInt 19 (target - k)) 5

/-- The B-format (R119). -/
def encodeB (m : InstrWord) (k : Nat) (target : Int) : InstrWord :=
  m ||| place (BitVec.ofInt 26 (target - k)) 0

/-- The word of an instruction that stands at index `k`, every ignored field at its canonical value (R125).
A branch is spelled only when its displacement fits its field, see `Instr.encodable`. -/
def encode (k : Nat) (i : Instr) : InstrWord :=
  match i with
  | .add rd rn rm => encodeR 0x8B000000 rm 0 rn rd
  | .addi rd rn imm => encodeI 0x91000000 imm rn rd
  | .adds rd rn rm => encodeR 0xAB000000 rm 0 rn rd
  | .addis rd rn imm => encodeI 0xB1000000 imm rn rd
  | .sub rd rn rm => encodeR 0xCB000000 rm 0 rn rd
  | .subi rd rn imm => encodeI 0xD1000000 imm rn rd
  | .subs rd rn rm => encodeR 0xEB000000 rm 0 rn rd
  | .subis rd rn imm => encodeI 0xF1000000 imm rn rd
  | .and rd rn rm => encodeR 0x8A000000 rm 0 rn rd
  | .andi rd rn imm => encodeI 0x92000000 imm rn rd
  | .ands rd rn rm => encodeR 0xEA000000 rm 0 rn rd
  | .andis rd rn imm => encodeI 0xF2000000 imm rn rd
  | .orr rd rn rm => encodeR 0xAA000000 rm 0 rn rd
  | .orri rd rn imm => encodeI 0xB2000000 imm rn rd
  | .eor rd rn rm => encodeR 0xCA000000 rm 0 rn rd
  | .eori rd rn imm => encodeI 0xD2000000 imm rn rd
  | .lsl rd rn shamt => encodeR 0xD3600000 0 shamt rn rd
  | .lsr rd rn shamt => encodeR 0xD3400000 0 shamt rn rd
  | .ldur rt rn off => encodeD 0xF8400000 off rn rt
  | .ldursw rt rn off => encodeD 0xB8800000 off rn rt
  | .ldurh rt rn off => encodeD 0x78400000 off rn rt
  | .ldurb rt rn off => encodeD 0x38400000 off rn rt
  | .stur rt rn off => encodeD 0xF8000000 off rn rt
  | .sturw rt rn off => encodeD 0xB8000000 off rn rt
  | .sturh rt rn off => encodeD 0x78000000 off rn rt
  | .sturb rt rn off => encodeD 0x38000000 off rn rt
  | .ldxr rt rn off => encodeD 0xC8400000 off rn rt
  | .stxr rt rs rn => encodeX 0xC8000000 rs rn rt
  | .movz rd imm16 hw => encodeIM 0xD2800000 hw imm16 rd
  | .movk rd imm16 hw => encodeIM 0xF2800000 hw imm16 rd
  | .cbz rt target => encodeCB 0xB4000000 k target rt
  | .cbnz rt target => encodeCB 0xB5000000 k target rt
  | .beq target => encodeCond 0x54000000 k target
  | .bne target => encodeCond 0x54000001 k target
  | .bhs target => encodeCond 0x54000002 k target
  | .blo target => encodeCond 0x54000003 k target
  | .bhi target => encodeCond 0x54000008 k target
  | .bls target => encodeCond 0x54000009 k target
  | .bge target => encodeCond 0x5400000A k target
  | .blt target => encodeCond 0x5400000B k target
  | .bgt target => encodeCond 0x5400000C k target
  | .ble target => encodeCond 0x5400000D k target
  | .bmi target => encodeCond 0x54000004 k target
  | .bpl target => encodeCond 0x54000005 k target
  | .bvs target => encodeCond 0x54000006 k target
  | .bvc target => encodeCond 0x54000007 k target
  | .b target => encodeB 0x14000000 k target
  | .bl target => encodeB 0x94000000 k target
  | .br rn => encodeR 0xD6000000 31 0 rn 0

/-- Whether `x` fits a signed field of `n + 1` bits. -/
def fitsSigned (n : Nat) (x : Int) : Bool := decide (-(2 ^ n : Int) ≤ x) && decide (x < (2 ^ n : Int))

/-- Whether the word form can spell the instruction at index `k`: a branch's displacement fits its field,
19 bits for the CB-format, 26 for the B-format (R119, R120, R122). Every other instruction can be spelled.
The spec says so of every well-formed record; that a branch too far away cannot be is DEDUCED, log 10. -/
def Instr.encodable (k : Nat) (i : Instr) : Bool :=
  match i.target? with
  | none => true
  | some t => if i.mnemonic = .b ∨ i.mnemonic = .bl then fitsSigned 25 (t - k) else fitsSigned 18 (t - k)

/-! ## The table's `mask` and `match` (R123) -/

/-- A row of R123 as mask and match: a word is the instruction of the row when `w AND mask = match`. -/
structure MaskRow where
  mn   : Mnemonic
  mask : InstrWord
  bits : InstrWord
  deriving DecidableEq, Repr

/-- The 49 rows of spec/opcode_table.json. -/
def maskRows : List MaskRow :=
  [ ⟨.add, 0xFFE00000, 0x8B000000⟩
  , ⟨.addi, 0xFFC00000, 0x91000000⟩
  , ⟨.adds, 0xFFE00000, 0xAB000000⟩
  , ⟨.addis, 0xFFC00000, 0xB1000000⟩
  , ⟨.sub, 0xFFE00000, 0xCB000000⟩
  , ⟨.subi, 0xFFC00000, 0xD1000000⟩
  , ⟨.subs, 0xFFE00000, 0xEB000000⟩
  , ⟨.subis, 0xFFC00000, 0xF1000000⟩
  , ⟨.and, 0xFFE00000, 0x8A000000⟩
  , ⟨.andi, 0xFFC00000, 0x92000000⟩
  , ⟨.ands, 0xFFE00000, 0xEA000000⟩
  , ⟨.andis, 0xFFC00000, 0xF2000000⟩
  , ⟨.orr, 0xFFE00000, 0xAA000000⟩
  , ⟨.orri, 0xFFC00000, 0xB2000000⟩
  , ⟨.eor, 0xFFE00000, 0xCA000000⟩
  , ⟨.eori, 0xFFC00000, 0xD2000000⟩
  , ⟨.lsl, 0xFFE00000, 0xD3600000⟩
  , ⟨.lsr, 0xFFE00000, 0xD3400000⟩
  , ⟨.ldur, 0xFFE00000, 0xF8400000⟩
  , ⟨.ldursw, 0xFFE00000, 0xB8800000⟩
  , ⟨.ldurh, 0xFFE00000, 0x78400000⟩
  , ⟨.ldurb, 0xFFE00000, 0x38400000⟩
  , ⟨.stur, 0xFFE00000, 0xF8000000⟩
  , ⟨.sturw, 0xFFE00000, 0xB8000000⟩
  , ⟨.sturh, 0xFFE00000, 0x78000000⟩
  , ⟨.sturb, 0xFFE00000, 0x38000000⟩
  , ⟨.ldxr, 0xFFE00000, 0xC8400000⟩
  , ⟨.stxr, 0xFFE00000, 0xC8000000⟩
  , ⟨.movz, 0xFF800000, 0xD2800000⟩
  , ⟨.movk, 0xFF800000, 0xF2800000⟩
  , ⟨.cbz, 0xFF000000, 0xB4000000⟩
  , ⟨.cbnz, 0xFF000000, 0xB5000000⟩
  , ⟨.beq, 0xFF00001F, 0x54000000⟩
  , ⟨.bne, 0xFF00001F, 0x54000001⟩
  , ⟨.bhs, 0xFF00001F, 0x54000002⟩
  , ⟨.blo, 0xFF00001F, 0x54000003⟩
  , ⟨.bhi, 0xFF00001F, 0x54000008⟩
  , ⟨.bls, 0xFF00001F, 0x54000009⟩
  , ⟨.bge, 0xFF00001F, 0x5400000A⟩
  , ⟨.blt, 0xFF00001F, 0x5400000B⟩
  , ⟨.bgt, 0xFF00001F, 0x5400000C⟩
  , ⟨.ble, 0xFF00001F, 0x5400000D⟩
  , ⟨.bmi, 0xFF00001F, 0x54000004⟩
  , ⟨.bpl, 0xFF00001F, 0x54000005⟩
  , ⟨.bvs, 0xFF00001F, 0x54000006⟩
  , ⟨.bvc, 0xFF00001F, 0x54000007⟩
  , ⟨.b, 0xFC000000, 0x14000000⟩
  , ⟨.bl, 0xFC000000, 0x94000000⟩
  , ⟨.br, 0xFFE00000, 0xD6000000⟩ ]

/-- Whether a word is the instruction of the row (R123). -/
def MaskRow.fits (r : MaskRow) (w : InstrWord) : Bool := w &&& r.mask == r.bits

/-- The bits that the format of a mnemonic ignores, and their canonical values (R116, R118). -/
def ignoredBits (m : Mnemonic) : InstrWord × InstrWord :=
  match m with
  | .add | .adds | .sub | .subs | .and | .ands | .orr | .eor => (0x0000FC00, 0)
  | .lsl | .lsr => (0x001F0000, 0)
  | .ldur | .ldursw | .ldurh | .ldurb | .stur | .sturw | .sturh | .sturb | .ldxr => (0x00000C00, 0)
  | .stxr => (0x0000FC00, 0)
  | .br => (0x001FFC1F, 0x001F0000)
  | _ => (0, 0)

/-- A word whose ignored fields hold their canonical values (R125). -/
def canonicalWord (w : InstrWord) : Bool :=
  match wordMnemonic w with
  | some m => w &&& (ignoredBits m).1 == (ignoredBits m).2
  | none => false

/-! ## Integer records (Part A) -/

/-- A register argument. -/
def regArg (x : Int) : RegNum := BitVec.ofInt 5 x

/-- The instruction of a record's mnemonic and arguments, in the order of R112; none when the list has
another length. -/
def Record.instr? (r : Record) : Option Instr :=
  match r.mn, r.args with
  | .add, [rd, rn, rm] => some (.add (regArg rd) (regArg rn) (regArg rm))
  | .addi, [rd, rn, imm] => some (.addi (regArg rd) (regArg rn) (BitVec.ofInt 12 imm))
  | .adds, [rd, rn, rm] => some (.adds (regArg rd) (regArg rn) (regArg rm))
  | .addis, [rd, rn, imm] => some (.addis (regArg rd) (regArg rn) (BitVec.ofInt 12 imm))
  | .sub, [rd, rn, rm] => some (.sub (regArg rd) (regArg rn) (regArg rm))
  | .subi, [rd, rn, imm] => some (.subi (regArg rd) (regArg rn) (BitVec.ofInt 12 imm))
  | .subs, [rd, rn, rm] => some (.subs (regArg rd) (regArg rn) (regArg rm))
  | .subis, [rd, rn, imm] => some (.subis (regArg rd) (regArg rn) (BitVec.ofInt 12 imm))
  | .and, [rd, rn, rm] => some (.and (regArg rd) (regArg rn) (regArg rm))
  | .andi, [rd, rn, imm] => some (.andi (regArg rd) (regArg rn) (BitVec.ofInt 12 imm))
  | .ands, [rd, rn, rm] => some (.ands (regArg rd) (regArg rn) (regArg rm))
  | .andis, [rd, rn, imm] => some (.andis (regArg rd) (regArg rn) (BitVec.ofInt 12 imm))
  | .orr, [rd, rn, rm] => some (.orr (regArg rd) (regArg rn) (regArg rm))
  | .orri, [rd, rn, imm] => some (.orri (regArg rd) (regArg rn) (BitVec.ofInt 12 imm))
  | .eor, [rd, rn, rm] => some (.eor (regArg rd) (regArg rn) (regArg rm))
  | .eori, [rd, rn, imm] => some (.eori (regArg rd) (regArg rn) (BitVec.ofInt 12 imm))
  | .lsl, [rd, rn, shamt] => some (.lsl (regArg rd) (regArg rn) (BitVec.ofInt 6 shamt))
  | .lsr, [rd, rn, shamt] => some (.lsr (regArg rd) (regArg rn) (BitVec.ofInt 6 shamt))
  | .ldur, [rt, rn, off] => some (.ldur (regArg rt) (regArg rn) (BitVec.ofInt 9 off))
  | .ldursw, [rt, rn, off] => some (.ldursw (regArg rt) (regArg rn) (BitVec.ofInt 9 off))
  | .ldurh, [rt, rn, off] => some (.ldurh (regArg rt) (regArg rn) (BitVec.ofInt 9 off))
  | .ldurb, [rt, rn, off] => some (.ldurb (regArg rt) (regArg rn) (BitVec.ofInt 9 off))
  | .stur, [rt, rn, off] => some (.stur (regArg rt) (regArg rn) (BitVec.ofInt 9 off))
  | .sturw, [rt, rn, off] => some (.sturw (regArg rt) (regArg rn) (BitVec.ofInt 9 off))
  | .sturh, [rt, rn, off] => some (.sturh (regArg rt) (regArg rn) (BitVec.ofInt 9 off))
  | .sturb, [rt, rn, off] => some (.sturb (regArg rt) (regArg rn) (BitVec.ofInt 9 off))
  | .ldxr, [rt, rn, off] => some (.ldxr (regArg rt) (regArg rn) (BitVec.ofInt 9 off))
  | .stxr, [rt, rs, rn] => some (.stxr (regArg rt) (regArg rs) (regArg rn))
  | .movz, [rd, imm16, sh] => some (.movz (regArg rd) (BitVec.ofInt 16 imm16) (BitVec.ofInt 2 (sh / 16)))
  | .movk, [rd, imm16, sh] => some (.movk (regArg rd) (BitVec.ofInt 16 imm16) (BitVec.ofInt 2 (sh / 16)))
  | .cbz, [rt, target] => some (.cbz (regArg rt) target)
  | .cbnz, [rt, target] => some (.cbnz (regArg rt) target)
  | .beq, [target] => some (.beq target)
  | .bne, [target] => some (.bne target)
  | .bhs, [target] => some (.bhs target)
  | .blo, [target] => some (.blo target)
  | .bhi, [target] => some (.bhi target)
  | .bls, [target] => some (.bls target)
  | .bge, [target] => some (.bge target)
  | .blt, [target] => some (.blt target)
  | .bgt, [target] => some (.bgt target)
  | .ble, [target] => some (.ble target)
  | .bmi, [target] => some (.bmi target)
  | .bpl, [target] => some (.bpl target)
  | .bvs, [target] => some (.bvs target)
  | .bvc, [target] => some (.bvc target)
  | .b, [target] => some (.b target)
  | .bl, [target] => some (.bl target)
  | .br, [rn] => some (.br (regArg rn))
  | _, _ => none

/-- Reading a record for a program of `plen` instructions: the instruction, or the check of R113 it fails. -/
def decodeRecord (plen : Nat) (r : Record) : Except WfCheck Instr :=
  match r.failing plen with
  | some c => .error c
  | none =>
    match r.instr? with
    | some i => .ok i
    | none => .error .arity

end Sys2Proof
end

