-- ==== Sys2Proof/Machine/State.lean ====
section
/-! DEFINITION. The state of one engine instance (10_state.md), what stands at its ports, the reasons a step
can stop, and the state after reset. Plain data throughout. -/

namespace Sys2Proof.Machine

open Sys2Proof

/-! ## Flags, caches -/

/-- The condition-flag latch, "four independent booleans {N, Z, C, V}" (R39). -/
structure Flags where
  n : Bool
  z : Bool
  c : Bool
  v : Bool
  deriving DecidableEq, Repr

/-- A cache entry (R46). The tag is an unsigned number of `tagbits` width. -/
structure CacheEntry where
  tag   : Nat
  valid : Bool
  block : List Byte
  deriving DecidableEq, Repr

/-- A cache instance (R45): its geometry, of which the block-size bits and the index bits are stored and the
other constants of R82 are computed, its entries and its counters (R47). -/
structure Cache where
  bsb     : Nat
  ib      : Nat
  entries : List CacheEntry
  hits    : Nat
  misses  : Nat
  deriving DecidableEq, Repr

/-- The two cache positions, instruction side and data side (R9). -/
inductive CachePos where
  | ic
  | dc
  deriving DecidableEq, Repr

/-! ## Ports -/

/-- A transaction at the memory port (R12, R66): `MemRead(addr, n)`, `MemWrite(addr, n, v)`, `v` cut to the
`8*n` bits stored, `MemBlock(addr, len)`. -/
inductive Transaction where
  | read (addr : Word) (n : Nat)
  | write (addr : Word) (n : Nat) (v : Word)
  | block (addr : Word) (len : Nat)
  deriving DecidableEq, Repr

/-- The kinds of fault that a step can report (R240, R241). -/
inductive FaultKind where
  | segment
  | pcAlignment
  | spAlignment
  deriving DecidableEq, Repr

/-- The fault record (R241). -/
structure FaultRecord where
  kind : FaultKind
  addr : Word
  line : Nat
  deriving DecidableEq, Repr

/-- What the status port last returned (R15, R270). It is an output: no rule of the engine reads it, and it
is no fault latch of the engine (R55, R248, log 1). -/
inductive Status where
  /-- `reset` returned `Ready` (R270). -/
  | ready
  /-- a step executed an instruction (R273). -/
  | continuing
  /-- the command found the program ended (R274). -/
  | completed
  /-- a step ended in a fault (R246). -/
  | faulted (r : FaultRecord)
  deriving DecidableEq, Repr

/-- What a position of the program holds: a decoded instruction, or, so that loading is total, a word that
spells none (R126) or a record that failed a check (R113). A program that holds one of the last two is refused
at reset (log 9). -/
inductive Form where
  | instr (i : Instr)
  | illegalWord (w : InstrWord)
  | badRecord (c : WfCheck)
  deriving DecidableEq, Repr

/-- A position of the program with its source line (R110). -/
structure Slot where
  form : Form
  line : Nat
  deriving DecidableEq, Repr

/-- Memory: the bytes that differ from what an unlisted address reads as, addresses strictly rising. -/
abbrev Memory := List Host.Cell

/-- What an address that memory does not list reads as. DESIGN CHOICE (unsafe): the spec leaves the initial
contents to the host, log 4. -/
def unlistedByte : Byte := 0

/-- The canonical form of memory: addresses strictly rising and below 2^64, no entry equal to what an
unlisted address reads as. -/
abbrev Memory.wf (m : Memory) : Prop :=
  m.Pairwise (fun p q => p.1 < q.1) ∧ ∀ c ∈ m, c.1 < 2 ^ 64 ∧ c.2 ≠ unlistedByte

/-! ## The state -/

/-- The state of the engine (R30 to R55) with what stands at its ports. -/
structure State where
  /-- the register file, 32 registers of 64 bits (R30) -/
  regs   : Vector Word 32
  /-- the instruction index (R36) -/
  idx    : Nat
  /-- the condition-flag latch (R39) -/
  flags  : Flags
  /-- the exclusive-access tag (R41) -/
  xtag   : Option Word
  /-- the branch-taken latch (R43) -/
  taken  : Bool
  /-- the exclusive-store outcome latch (R44) -/
  stxrOk : Bool
  /-- the instruction-side cache, if configured (R45) -/
  ic     : Option Cache
  /-- the data-side cache, if configured (R45) -/
  dc     : Option Cache
  /-- the instruction list `Prog`; its length is `PLEN` (R11) -/
  prog   : List Slot
  /-- the contents of memory (R50, R65) -/
  mem    : Memory
  /-- the straps and parameters, fixed from reset to reset (R6 to R10, R13) -/
  params : Params
  /-- the status port (R15): an output -/
  status : Status
  /-- the memory-port transactions of the last step, oldest first (R12, R66): an output (log 7) -/
  port   : List Transaction
  deriving DecidableEq, Repr

/-- The one condition on which a step stops. -/
inductive Fault where
  /-- Raised by `step` when `idx > PLEN`: there is no instruction to fetch and the program has not ended.
  No state reachable from reset is such (R54 (a), R274). Safe: the spec gives no behaviour (log 15). -/
  | indexBeyondProgram
  deriving DecidableEq, Repr

/-- Why an instruction gets no meaning. Each is a `refuse` of the spec (R21): a statement about the model's
domain, never a behaviour of the hardware. -/
inductive Refusal where
  /-- Raised by an arm of `exec` whose instruction has no meaning yet; none is left. Safe. -/
  | notModelled (mnemonic : String)
  /-- Raised by `resetWith` for a program with a word that fits no row of R123, and by `step` at such a position
  (R126). Safe. -/
  | illegalWord (w : InstrWord)
  /-- Raised by `resetWith` for a program with a record that fails a check, by `step` at such a record, and by
  the branches and LDXR for the two checks that an `Instr` can fail (R113, R196). Safe. -/
  | illFormed (c : WfCheck)
  deriving DecidableEq, Repr

/-! ## Reset -/

/-- The registers after reset: "registers start at 0 except SP = stack base" (R53). -/
def resetRegs (stackBase : Word) : Vector Word 32 := (Vector.replicate 32 0).set 28 stackBase

/-- The flags after reset (R53). -/
def resetFlags : Flags := { n := false, z := false, c := false, v := false }

/-- The state after a successful reset (R53, R270) with the given straps, caches, program and memory. -/
def State.fresh (params : Params) (ic dc : Option Cache) (prog : List Slot) (mem : Memory) : State :=
  { regs := resetRegs params.stackBase
    idx := 0
    flags := resetFlags
    xtag := none
    taken := false
    stxrOk := false
    ic := ic
    dc := dc
    prog := prog
    mem := mem
    params := params
    status := .ready
    port := [] }

/-- The machine right after reset, with the straps of `Params.ref` (log 2), no program yet handed over (log 3)
and memory with nothing listed (log 4). `resetWith` is reset for any straps. -/
def State.reset : State := State.fresh Params.ref none none [] []

end Sys2Proof.Machine
end

