-- ==== Sys2Proof/Machine/Ops.lean ====
section
/-! DEFINITION. The named operations over registers, memory and faults that every meaning is written with:
register read and write (R31, R32), the memory port (R60 to R66), raising a fault and what it leaves
(R20, R246, R247). -/

namespace Sys2Proof.Machine

open Sys2Proof

/-! ## Registers and derived observables -/

/-- `x[i]` (R31): the value last stored, for every `i`, 31 included. -/
def State.readReg (s : State) (i : RegNum) : Word := s.regs[i.toNat]'(i.isLt)

/-- `x[i] <- v` (R32): dropped when `i = 31`. -/
def State.writeReg (s : State) (i : RegNum) (v : Word) : State :=
  if i = zr then s else { s with regs := s.regs.set i.toNat v i.isLt }

/-- `flags <- (n, z, c, v)` (R18). -/
def State.setFlags (s : State) (f : Flags) : State := { s with flags := f }

/-- `PLEN`, the program length (R11). -/
def State.plen (s : State) : Nat := s.prog.length

/-- The byte address of the instruction at an index, `TEXT_BASE + 4*i` (R11, R128). It wraps modulo 2^64 for straps
that break R38's constraint: DESIGN CHOICE, log 21. -/
def State.instrAddr (s : State) (i : Nat) : Word := s.params.textBase + BitVec.ofNat 64 (isize * i)

/-- The observable "current PC" (R37). -/
def State.pc (s : State) : Word := s.instrAddr s.idx

/-! ## Running an instruction's lines, and faults -/

/-- What `raise F(info)` names (R20): the kind of fault and the address it reports (R240). -/
structure Raise where
  kind : FaultKind
  addr : Word
  deriving DecidableEq, Repr

/-- Where the lines of an instruction have got to: done with a value, or stopped by a raised fault. Both hold
the state the lines have left (R20: every write made by an earlier line stays). -/
inductive Run (α : Type) where
  | done (a : α) (s : State)
  | raised (f : Raise) (s : State)

/-- The next lines of the pseudocode, which run only if none before raised (R20, R282). -/
def Run.andThen {α β : Type} (r : Run α) (next : α → State → Run β) : Run β :=
  match r with
  | .done a s => next a s
  | .raised f s => .raised f s

/-- The source line of the instruction being executed: that of the instruction at `idx - 1`, since the step
has advanced the index (R38, R241; DEDUCED, log 12). -/
def State.fetchedLine (s : State) : Nat :=
  match s.prog[s.idx - 1]? with
  | some slot => slot.line
  | none => 0

/-- Taking a fault (R246, R247): the command returns `Faulted` with the record (R241). Nothing else happens:
nothing is rolled back, saved or redirected, no register, flag, tag or latch is written. There is no return
instruction: the next step goes on at `idx` (R249, R251). -/
def State.takeFault (s : State) (f : Raise) : State :=
  { s with status := .faulted { kind := f.kind, addr := f.addr, line := s.fetchedLine } }

/-- The outcome of an instruction whose lines have run: the next state, with the fault taken if one was
raised (R273, R246). -/
def Run.outcome (r : Run Unit) : Host.Outcome State Fault Refusal :=
  match r with
  | .done _ s => .next s
  | .raised f s => .next (s.takeFault f)

/-! ## Bytes of memory -/

/-- One byte of memory (R65). -/
def Memory.read (m : Memory) (a : Nat) : Byte :=
  match m with
  | [] => unlistedByte
  | c :: rest => if c.1 = a then c.2 else Memory.read rest a

/-- A memory without its entry for an address. -/
def Memory.erase (m : Memory) (a : Nat) : Memory := m.filter fun c => c.1 != a

/-- An entry put before the first of a higher address. -/
def Memory.insert (m : Memory) (a : Nat) (b : Byte) : Memory :=
  match m with
  | [] => [(a, b)]
  | c :: rest => if a < c.1 then (a, b) :: c :: rest else c :: Memory.insert rest a b

/-- One byte of memory replaced, the canonical form kept: what an unlisted address reads as is not listed. -/
def Memory.write (m : Memory) (a : Nat) (b : Byte) : Memory :=
  if b = unlistedByte then Memory.erase m a else Memory.insert (Memory.erase m a) a b

/-- The `len` bytes from `a` up, in increasing address order (R63). -/
def Memory.readBytes (m : Memory) (a len : Nat) : List Byte := (List.range len).map fun i => Memory.read m (a + i)

/-- The bytes of a list stored from `a` up. -/
def Memory.writeBytes (m : Memory) (a : Nat) (bs : List Byte) : Memory :=
  match bs with
  | [] => m
  | b :: rest => Memory.writeBytes (Memory.write m a b) (a + 1) rest

/-- The byte of memory at an address, for the host and for claims (R65). -/
def State.byteAt (s : State) (a : Nat) : Byte := Memory.read s.mem a

/-! ## Byte order (R64) -/

/-- The number whose bytes, least significant first, are the list. -/
def littleNat : List Byte → Nat
  | [] => 0
  | b :: rest => b.toNat + 256 * littleNat rest

/-- The low `n` bytes of a value, least significant first. -/
def littleBytes (n : Nat) (v : Word) : List Byte := (List.range n).map fun i => (v >>> (8 * i)).setWidth 8

/-- The bytes in the other order of significance when the byte order is big. -/
def ordered (o : ByteOrder) (bs : List Byte) : List Byte :=
  match o with
  | .little => bs
  | .big => bs.reverse

/-- The value formed from bytes in address order (R60, R64). -/
def valueOfBytes (o : ByteOrder) (bs : List Byte) : Word := BitVec.ofNat 64 (littleNat (ordered o bs))

/-- The bytes, in address order, of the low `8*n` bits of a value (R61, R64). -/
def bytesOfValue (o : ByteOrder) (n : Nat) (v : Word) : List Byte := ordered o (littleBytes n v)

/-- The low `8*n` bits of a value (R61). -/
def lowBytes (n : Nat) (v : Word) : Word := (v.setWidth (8 * n)).setWidth 64

/-! ## The memory port (R12, R60 to R66) -/

/-- A transaction is issued. -/
def State.issue (s : State) (ts : List Transaction) : State := { s with port := s.port ++ ts }

/-- `MemRead(addr, n)` (R60). -/
def memRead (addr : Word) (n : Nat) (s : State) : Run Word :=
  let s' := s.issue [.read addr n]
  if s.params.memValid addr n .load then
    .done (valueOfBytes s.params.byteOrder (Memory.readBytes s.mem addr.toNat n)) s'
  else .raised { kind := .segment, addr := addr } s'

/-- `MemWrite(addr, n, v)` (R61): when the address is not valid nothing is written. -/
def memWrite (addr : Word) (n : Nat) (v : Word) (s : State) : Run Unit :=
  let s' := s.issue [.write addr n (lowBytes n v)]
  if s.params.memValid addr n .store then
    .done () { s' with mem := Memory.writeBytes s.mem addr.toNat (bytesOfValue s.params.byteOrder n v) }
  else .raised { kind := .segment, addr := addr } s'

/-- `MemBlock(addr, len)` (R63): the bytes, or none when the range is not valid. It changes nothing. -/
def memBlock (p : Params) (m : Memory) (addr : Word) (len : Nat) : Option (List Byte) :=
  if p.memValid addr len .block then some (Memory.readBytes m addr.toNat len) else none

end Sys2Proof.Machine
end

