-- ==== Sys2Proof/Machine/Flags.lean ====
section
/-! DEFINITION. Every flag computation (R144, R145, R162) and every condition (R210). -/

namespace Sys2Proof.Machine

open Sys2Proof

/-- `FlagsAdd(r, a, b)` (R144), the source's formula: the three top bits are added as integers 0..3 and the
sum masked with 2. -/
def flagsAdd (r a b : Word) : Flags :=
  { n := r.msb
    z := r == 0
    c := (((~~~r).msb.toNat + a.msb.toNat + b.msb.toNat) &&& 2) != 0
    v := ((a ^^^ ~~~b) &&& (a ^^^ r)) &&& signBit != 0 }

/-- `fop2`, the second operand of the subtract's flag formula, by `SUBS_FLAG_MODE` (R145). -/
def subFlagOperand (mode : SubsFlagMode) (op2 : Word) : Word :=
  match mode with
  | .literal => op2
  | .negated => 0 - op2
  | .inverted => ~~~op2

/-- The flags of a flag-setting subtract: the add formula on `r = op1 - op2`, `op1` and `fop2` (R145). -/
def flagsSub (mode : SubsFlagMode) (r op1 op2 : Word) : Flags := flagsAdd r op1 (subFlagOperand mode op2)

/-- `FlagsLogic(r)` (R162): N and Z from the result, C and V false. -/
def flagsLogic (r : Word) : Flags := { n := r.msb, z := r == 0, c := false, v := false }

/-- The fourteen conditions (R210). -/
inductive Cond where
  | eq | ne | hs | lo | hi | ls | ge | lt | gt | le | mi | pl | vs | vc
  deriving DecidableEq, Repr

/-- Whether a condition holds, by the table of R210, entry for entry. -/
def Cond.holds (cond : Cond) (f : Flags) : Bool :=
  match cond with
  | .eq => f.z
  | .ne => !f.z
  | .hs => f.c
  | .lo => !f.c
  | .hi => !f.z && f.c
  | .ls => !(!f.z && f.c)
  | .ge => f.n == f.v
  | .lt => f.n != f.v
  | .gt => !f.z && (f.n == f.v)
  | .le => !(!f.z && (f.n == f.v))
  | .mi => f.n
  | .pl => !f.n
  | .vs => f.v
  | .vc => !f.v

end Sys2Proof.Machine
end

