-- ==== Sys2Proof/Machine/Operands.lean ====
section
/-! DEFINITION. The operand forms: immediates as 64-bit values (R114, R143, R200), the effective address
(R175), the shift amount (R170), the extensions of the narrow loads (R17, R66). -/

namespace Sys2Proof.Machine

open Sys2Proof

/-- The second operand of the immediate forms: `imm12` zero-extended (R122, R143). -/
def immValue (imm : BitVec 12) : Word := imm.setWidth 64

/-- A byte offset: `addr9` sign-extended, not scaled (R114, R122). -/
def offValue (off : BitVec 9) : Word := off.signExtend 64

/-- `ea = x[rn] + off` modulo 2^64 (R175). -/
def State.effAddr (s : State) (rn : RegNum) (off : BitVec 9) : Word := s.readReg rn + offValue off

/-- The position in bits of a wide immediate, `sh = 16 * hw` (R122, R200). -/
def wideShift (hw : BitVec 2) : Nat := 16 * hw.toNat

/-- The 16-bit immediate at its place, `(imm16 as BV64) << sh` (R201). -/
def wideValue (imm16 : BitVec 16) (hw : BitVec 2) : Word := imm16.setWidth 64 <<< wideShift hw

/-- `FIELD(sh) = 0xFFFF << sh` (R200). -/
def wideField (hw : BitVec 2) : Word := (0xFFFF : Word) <<< wideShift hw

/-- The amount of a shift, `shamt mod 64` (R170). -/
def shiftAmount (shamt : BitVec 6) : Nat := shamt.toNat % 64

/-- What a load does with the value read (R66, R180 to R183). -/
inductive Extension where
  | identity
  | sext32
  | zext16
  | zext8
  deriving DecidableEq, Repr

/-- The extension as a function on the value read: `sext_N` and `zext_N` of R17. -/
def Extension.apply (e : Extension) (v : Word) : Word :=
  match e with
  | .identity => v
  | .sext32 => (v.setWidth 32).signExtend 64
  | .zext16 => (v.setWidth 16).setWidth 64
  | .zext8 => (v.setWidth 8).setWidth 64

end Sys2Proof.Machine
end

