-- ==== Sys2Proof/Machine/Arith.lean ====
section
/-! DEFINITION. Arithmetic and logical instructions (40_arithmetic_logic.md). Sources are read before anything
is written (R141); destination 31 drops the register write and still writes the flags (R142). None accesses
memory or can raise a fault. -/

namespace Sys2Proof.Machine

open Sys2Proof

/-- ADD (R146). -/
def execAdd (rd rn rm : RegNum) (s : State) : Host.Outcome State Fault Refusal :=
  .next (s.writeReg rd (s.readReg rn + s.readReg rm))

/-- ADDI (R147). -/
def execAddi (rd rn : RegNum) (imm : BitVec 12) (s : State) : Host.Outcome State Fault Refusal :=
  .next (s.writeReg rd (s.readReg rn + immValue imm))

/-- A flag-setting addition of two operands (R148, R149). -/
def addSetting (rd : RegNum) (a b : Word) (s : State) : State := (s.writeReg rd (a + b)).setFlags (flagsAdd (a + b) a b)

/-- ADDS (R148). -/
def execAdds (rd rn rm : RegNum) (s : State) : Host.Outcome State Fault Refusal :=
  .next (addSetting rd (s.readReg rn) (s.readReg rm) s)

/-- ADDIS (R149). -/
def execAddis (rd rn : RegNum) (imm : BitVec 12) (s : State) : Host.Outcome State Fault Refusal :=
  .next (addSetting rd (s.readReg rn) (immValue imm) s)

/-- SUB (R150). -/
def execSub (rd rn rm : RegNum) (s : State) : Host.Outcome State Fault Refusal :=
  .next (s.writeReg rd (s.readReg rn - s.readReg rm))

/-- SUBI (R151). -/
def execSubi (rd rn : RegNum) (imm : BitVec 12) (s : State) : Host.Outcome State Fault Refusal :=
  .next (s.writeReg rd (s.readReg rn - immValue imm))

/-- A flag-setting subtraction of two operands (R152, R153), the flags by the mode of R145. -/
def subSetting (rd : RegNum) (a b : Word) (s : State) : State :=
  (s.writeReg rd (a - b)).setFlags (flagsSub s.params.subsFlagMode (a - b) a b)

/-- SUBS (R152). -/
def execSubs (rd rn rm : RegNum) (s : State) : Host.Outcome State Fault Refusal :=
  .next (subSetting rd (s.readReg rn) (s.readReg rm) s)

/-- SUBIS (R153). -/
def execSubis (rd rn : RegNum) (imm : BitVec 12) (s : State) : Host.Outcome State Fault Refusal :=
  .next (subSetting rd (s.readReg rn) (immValue imm) s)

/-- AND (R154). -/
def execAnd (rd rn rm : RegNum) (s : State) : Host.Outcome State Fault Refusal :=
  .next (s.writeReg rd (s.readReg rn &&& s.readReg rm))

/-- ANDI (R155). -/
def execAndi (rd rn : RegNum) (imm : BitVec 12) (s : State) : Host.Outcome State Fault Refusal :=
  .next (s.writeReg rd (s.readReg rn &&& immValue imm))

/-- A flag-setting AND of two operands (R156, R157). -/
def andSetting (rd : RegNum) (a b : Word) (s : State) : State := (s.writeReg rd (a &&& b)).setFlags (flagsLogic (a &&& b))

/-- ANDS (R156). -/
def execAnds (rd rn rm : RegNum) (s : State) : Host.Outcome State Fault Refusal :=
  .next (andSetting rd (s.readReg rn) (s.readReg rm) s)

/-- ANDIS (R157). -/
def execAndis (rd rn : RegNum) (imm : BitVec 12) (s : State) : Host.Outcome State Fault Refusal :=
  .next (andSetting rd (s.readReg rn) (immValue imm) s)

/-- ORR (R158). -/
def execOrr (rd rn rm : RegNum) (s : State) : Host.Outcome State Fault Refusal :=
  .next (s.writeReg rd (s.readReg rn ||| s.readReg rm))

/-- ORRI (R159). -/
def execOrri (rd rn : RegNum) (imm : BitVec 12) (s : State) : Host.Outcome State Fault Refusal :=
  .next (s.writeReg rd (s.readReg rn ||| immValue imm))

/-- EOR (R160). -/
def execEor (rd rn rm : RegNum) (s : State) : Host.Outcome State Fault Refusal :=
  .next (s.writeReg rd (s.readReg rn ^^^ s.readReg rm))

/-- EORI (R161). -/
def execEori (rd rn : RegNum) (imm : BitVec 12) (s : State) : Host.Outcome State Fault Refusal :=
  .next (s.writeReg rd (s.readReg rn ^^^ immValue imm))

end Sys2Proof.Machine
end

