-- ==== Sys2Proof/Machine/Branch.lean ====
section
/-! DEFINITION. The branches (45_compare_branch.md, 46_cond_branch.md, 47_uncond_branch.md): the branch
mechanism of R205, compare-and-branch, the fourteen condition-code branches, B, BL and BR. When a meaning here
runs, `idx` already holds the index after the branch and `taken` is false (R205, R273). -/

namespace Sys2Proof.Machine

open Sys2Proof

/-- `Branch(target)` (R205). -/
def State.branch (s : State) (target : Nat) : State := { s with idx := target, taken := true }

/-- A branch to an index if a condition holds (R205, R211). A record whose target lies outside `0..PLEN` is
refused, whether or not it would branch (`WF_TARGET`, R113, D28; DEDUCED, log 17). -/
def branchWhen (cond : Bool) (target : Int) (s : State) : Host.Outcome State Fault Refusal :=
  if targetOk s.plen target then
    if cond then .next (s.branch target.toNat) else .next s
  else .refused (.illFormed .target)

/-- CBZ (R206): all 64 bits are tested. -/
def execCbz (rt : RegNum) (target : Int) (s : State) : Host.Outcome State Fault Refusal :=
  branchWhen (s.readReg rt == 0) target s

/-- CBNZ (R207). -/
def execCbnz (rt : RegNum) (target : Int) (s : State) : Host.Outcome State Fault Refusal :=
  branchWhen (s.readReg rt != 0) target s

/-- BEQ (R212). -/
def execBeq (target : Int) (s : State) : Host.Outcome State Fault Refusal :=
  branchWhen (Cond.eq.holds s.flags) target s

/-- BNE (R213). -/
def execBne (target : Int) (s : State) : Host.Outcome State Fault Refusal :=
  branchWhen (Cond.ne.holds s.flags) target s

/-- BHS (R214). -/
def execBhs (target : Int) (s : State) : Host.Outcome State Fault Refusal :=
  branchWhen (Cond.hs.holds s.flags) target s

/-- BLO (R215). -/
def execBlo (target : Int) (s : State) : Host.Outcome State Fault Refusal :=
  branchWhen (Cond.lo.holds s.flags) target s

/-- BHI (R216). -/
def execBhi (target : Int) (s : State) : Host.Outcome State Fault Refusal :=
  branchWhen (Cond.hi.holds s.flags) target s

/-- BLS (R217). -/
def execBls (target : Int) (s : State) : Host.Outcome State Fault Refusal :=
  branchWhen (Cond.ls.holds s.flags) target s

/-- BGE (R218). -/
def execBge (target : Int) (s : State) : Host.Outcome State Fault Refusal :=
  branchWhen (Cond.ge.holds s.flags) target s

/-- BLT (R219). -/
def execBlt (target : Int) (s : State) : Host.Outcome State Fault Refusal :=
  branchWhen (Cond.lt.holds s.flags) target s

/-- BGT (R220). -/
def execBgt (target : Int) (s : State) : Host.Outcome State Fault Refusal :=
  branchWhen (Cond.gt.holds s.flags) target s

/-- BLE (R221). -/
def execBle (target : Int) (s : State) : Host.Outcome State Fault Refusal :=
  branchWhen (Cond.le.holds s.flags) target s

/-- BMI (R222). -/
def execBmi (target : Int) (s : State) : Host.Outcome State Fault Refusal :=
  branchWhen (Cond.mi.holds s.flags) target s

/-- BPL (R223). -/
def execBpl (target : Int) (s : State) : Host.Outcome State Fault Refusal :=
  branchWhen (Cond.pl.holds s.flags) target s

/-- BVS (R224). -/
def execBvs (target : Int) (s : State) : Host.Outcome State Fault Refusal :=
  branchWhen (Cond.vs.holds s.flags) target s

/-- BVC (R225). -/
def execBvc (target : Int) (s : State) : Host.Outcome State Fault Refusal :=
  branchWhen (Cond.vc.holds s.flags) target s

/-- B (R231). -/
def execB (target : Int) (s : State) : Host.Outcome State Fault Refusal := branchWhen true target s

/-- BL (R232, 90_conflicts.md C1): the address of the instruction after the BL, which `idx` already names, goes
to the link register before the branch. -/
def execBl (target : Int) (s : State) : Host.Outcome State Fault Refusal :=
  branchWhen true target (s.writeReg lrIndex (s.instrAddr s.idx))

/-- Whether an address lies "within the text segment" (R233, D27): from `TEXT_BASE` to the address after the
last instruction. The end is a number and does not wrap, for straps that break R38's constraint too: DESIGN
CHOICE, log 21. -/
def State.inText (s : State) (t : Word) : Bool :=
  decide (s.params.textBase.toNat ≤ t.toNat) && decide (t.toNat ≤ s.params.textBase.toNat + isize * s.plen)

/-- The lines of BR (R233): alignment first, then range. -/
def branchRegister (rn : RegNum) (s : State) : Run Unit :=
  let t := s.readReg rn
  if t.extractLsb' 0 2 ≠ 0 then .raised { kind := .pcAlignment, addr := t } s
  else if s.inText t then .done () (s.branch ((t.toNat - s.params.textBase.toNat) / isize))
  else .raised { kind := .segment, addr := t } s

/-- BR (R233). -/
def execBr (rn : RegNum) (s : State) : Host.Outcome State Fault Refusal := (branchRegister rn s).outcome

end Sys2Proof.Machine
end

