-- ==== Sys2Proof/Machine/Cache.lean ====
section
/-! DEFINITION. The address decomposer and the L1 cache controller (20_memory.md Parts D and E, R82 to R102),
and the probes that an instruction makes of them (R96, R97, R99). -/

namespace Sys2Proof.Machine

open Sys2Proof

/-! ## Geometry (R82) -/

/-- `B`, the block size. -/
def Cache.blockSize (c : Cache) : Nat := 2 ^ c.bsb
/-- `E`, the number of entries. -/
def Cache.numEntries (c : Cache) : Nat := 2 ^ c.ib
/-- `size = 2^(ib + bsb)`. -/
def Cache.size (c : Cache) : Nat := 2 ^ (c.ib + c.bsb)
/-- `tb = 64 - ib - bsb`. -/
def Cache.tagBits (c : Cache) : Nat := 64 - c.ib - c.bsb

/-! ## Address decomposer (R84 to R88) -/

/-- `Offset(c, a)`: the low `blocksizebits` bits (R84). -/
def Cache.offset (c : Cache) (a : Word) : Nat := a.toNat % 2 ^ c.bsb
/-- `Index(c, a)`: `(a >> blocksizebits)` masked to its low `indexbits` bits (R84). -/
def Cache.index (c : Cache) (a : Word) : Nat := (a >>> c.bsb).toNat % 2 ^ c.ib
/-- `Tag(c, a)`: `a >> (64 - tagbits)`, a logical shift (R84, D21). -/
def Cache.tag (c : Cache) (a : Word) : Nat := (a >>> (64 - c.tagBits)).toNat

/-- `BlockBase(c, t, i) = (t << (ib + bsb)) OR (i << bsb)` (R86). -/
def Cache.blockBase (c : Cache) (t i : Nat) : Word :=
  (BitVec.ofNat 64 t <<< (c.ib + c.bsb)) ||| (BitVec.ofNat 64 i <<< c.bsb)

/-- The next block boundary strictly after `a`, modulo 2^64 (R87 line 2). -/
def Cache.nextBoundary (c : Cache) (a : Word) : Word := ((a >>> c.bsb) + 1) <<< c.bsb

/-- The loop of R87: `fuel` bounds its passes; every pass consumes at least one byte, so `n` passes do. -/
def Cache.spanLoop (c : Cache) (fuel : Nat) (a : Word) (n : Nat) : List Nat :=
  match fuel with
  | 0 => []
  | fuel + 1 =>
    let nxt := c.nextBoundary a
    let used := (nxt - a).toNat
    c.index a :: (if n ≤ used then [] else c.spanLoop fuel nxt (n - used))

/-- `Span(c, a, n)` (R87): the indices of the blocks an access of `n >= 1` bytes at `a` touches. The body runs
at least once. -/
def Cache.span (c : Cache) (a : Word) (n : Nat) : List Nat := c.spanLoop (n + 1) a n

/-! ## Controller (R90 to R95) -/

/-- An entry passes the hit test: it is valid and its tag is `t` (R91). -/
def Cache.entryHits (c : Cache) (t i : Nat) : Bool :=
  match c.entries[i]? with
  | some e => e.valid && e.tag == t
  | none => false

/-- The access hits: every spanned entry does (R90). -/
def Cache.spanHits (c : Cache) (t : Nat) (sp : List Nat) : Bool := sp.all fun i => c.entryHits t i

/-- Entry `i` overwritten outright (R92). -/
def Cache.setEntry (c : Cache) (i : Nat) (e : CacheEntry) : Cache := { c with entries := c.entries.set i e }

/-- What a cache operation did: the cache after it, whether it hit, the transactions it issued, and the
address of the block request that failed, if one did (R92). -/
structure CacheResult where
  cache  : Cache
  hit    : Bool
  issued : List Transaction
  failed : Option Word

/-- `MissService(c, t, sp)` (R92): every element of the span in list order, its block fetched and its entry
overwritten. It stops at the first block request that fails. -/
def Cache.missService (fetch : Word → Nat → Option (List Byte)) (c : Cache) (t : Nat) (sp : List Nat) : CacheResult :=
  match sp with
  | [] => { cache := c, hit := false, issued := [], failed := none }
  | i :: rest =>
    let base := c.blockBase t i
    match fetch base c.blockSize with
    | none => { cache := c, hit := false, issued := [.block base c.blockSize], failed := some base }
    | some blk =>
      let r := Cache.missService fetch (c.setEntry i { tag := t, valid := true, block := blk }) t rest
      { r with issued := .block base c.blockSize :: r.issued }

/-- `CacheCheck(c, a, n)` (R90): one tag for the whole span (R89); on a hit the hit counter moves and no entry
changes; on a miss the miss counter moves first and then every spanned entry is refilled (R95). -/
def Cache.check (fetch : Word → Nat → Option (List Byte)) (c : Cache) (a : Word) (n : Nat) : CacheResult :=
  let t := c.tag a
  let sp := c.span a n
  if c.spanHits t sp then
    { cache := { c with hits := c.hits + 1 }, hit := true, issued := [], failed := none }
  else Cache.missService fetch { c with misses := c.misses + 1 } t sp

/-! ## The caches of the engine -/

/-- The cache at a position, if configured (R9, R45). -/
def State.cacheAt (s : State) (pos : CachePos) : Option Cache :=
  match pos with
  | .ic => s.ic
  | .dc => s.dc

/-- The cache at a position replaced. -/
def State.setCache (s : State) (pos : CachePos) (c : Cache) : State :=
  match pos with
  | .ic => { s with ic := some c }
  | .dc => { s with dc := some c }

/-- The block request of the controllers, over the memory as it is (R63). -/
def State.fetchBlock (s : State) (addr : Word) (len : Nat) : Option (List Byte) := memBlock s.params s.mem addr len

/-- What `CacheCheck` did, carried into the state: the cache, the transactions, and the fault of a block
request that failed (R92, R98). -/
def CacheResult.finish (r : CacheResult) (pos : CachePos) (s : State) : Run Bool :=
  let s' := (s.setCache pos r.cache).issue r.issued
  match r.failed with
  | none => .done r.hit s'
  | some base => .raised { kind := .segment, addr := base } s'

/-- `CacheCheck` at a position, if a cache is configured there (R90, R96, R99); its answer is false when none
is. The instruction ignores the answer (R96). -/
def cacheProbe (pos : CachePos) (a : Word) (n : Nat) (s : State) : Run Bool :=
  match s.cacheAt pos with
  | none => .done false s
  | some c => (Cache.check s.fetchBlock c a n).finish pos s

/-- `CacheCheckW(c, a, n, v)` at a position (R93): memory is written first, whatever the outcome; then the
procedure of `CacheCheck`. -/
def cacheProbeW (pos : CachePos) (a : Word) (n : Nat) (v : Word) (s : State) : Run Bool :=
  (memWrite a n v s).andThen fun _ s => cacheProbe pos a n s

/-- `DProbe(a, n)` (R96). -/
def dProbe (a : Word) (n : Nat) (s : State) : Run Bool := cacheProbe .dc a n s

/-- `DProbeW(a, n, v)` (R97): one write, then the data cache's check if it is configured. -/
def dProbeW (a : Word) (n : Nat) (v : Word) (s : State) : Run Bool := cacheProbeW .dc a n v s

/-- `IProbe(k)` (R99): four bytes at the instruction's own address, for statistics only. -/
def iProbe (k : Nat) (s : State) : Run Bool := cacheProbe .ic (s.instrAddr k) isize s

end Sys2Proof.Machine
end

