-- ==== Sys2Proof/Machine/Transfer.lean ====
section
/-! DEFINITION. Data transfer instructions (42_data_transfer.md): the stack-pointer check, the load and the
store sequence (R176 to R179), and the eight instructions over them. -/

namespace Sys2Proof.Machine

open Sys2Proof

/-- `SPCheck(rn)` (R176): when the base is the register SP, its value must be a multiple of 16. -/
def spCheck (rn : RegNum) (s : State) : Run Unit :=
  if rn = spIndex ∧ (s.readReg spIndex).extractLsb' 0 4 ≠ 0 then
    .raised { kind := .spAlignment, addr := s.readReg spIndex } s
  else .done () s

/-- The lines of a load after the test of its destination (R178): check, probe, read; the value read. -/
def loadValue (rn : RegNum) (ea : Word) (n : Nat) (s : State) : Run Word :=
  (spCheck rn s).andThen fun _ s =>
  (dProbe ea n s).andThen fun _ s =>
  memRead ea n s

/-- `Load(rt, rn, off, n, ext)` (R178); with destination 31 it does nothing at all (R177). -/
def load (rt rn : RegNum) (off : BitVec 9) (n : Nat) (ext : Extension) (s : State) : Run Unit :=
  if rt = zr then .done () s
  else
    (loadValue rn (s.effAddr rn off) n s).andThen fun v s =>
    .done () (s.writeReg rt (ext.apply v))

/-- `Overlap(ea, n, t)` (R195): the `n` bytes at `ea` share a byte with the 8 bytes at `t`, both differences
modulo 2^64. -/
def overlap (ea : Word) (n : Nat) (t : Word) : Bool := decide ((ea - t).toNat < 8) || decide ((t - ea).toNat < n)

/-- The exclusive tag cleared when the stored bytes overlap the tagged doubleword (R179, R42). -/
def State.clearTagOn (s : State) (ea : Word) (n : Nat) : State :=
  match s.xtag with
  | some t => if overlap ea n t then { s with xtag := none } else s
  | none => s

/-- `Store(rt, rn, off, n)` (R179). -/
def store (rt rn : RegNum) (off : BitVec 9) (n : Nat) (s : State) : Run Unit :=
  let ea := s.effAddr rn off
  let v := s.readReg rt
  (spCheck rn s).andThen fun _ s =>
  (dProbeW ea n v s).andThen fun _ s =>
  .done () (s.clearTagOn ea n)

/-- LDUR (R180). -/
def execLdur (rt rn : RegNum) (off : BitVec 9) (s : State) : Host.Outcome State Fault Refusal :=
  (load rt rn off 8 .identity s).outcome

/-- LDURSW (R181): sign-extended word. -/
def execLdursw (rt rn : RegNum) (off : BitVec 9) (s : State) : Host.Outcome State Fault Refusal :=
  (load rt rn off 4 .sext32 s).outcome

/-- LDURH (R182): zero-extended halfword. -/
def execLdurh (rt rn : RegNum) (off : BitVec 9) (s : State) : Host.Outcome State Fault Refusal :=
  (load rt rn off 2 .zext16 s).outcome

/-- LDURB (R183): zero-extended byte. -/
def execLdurb (rt rn : RegNum) (off : BitVec 9) (s : State) : Host.Outcome State Fault Refusal :=
  (load rt rn off 1 .zext8 s).outcome

/-- STUR (R184). -/
def execStur (rt rn : RegNum) (off : BitVec 9) (s : State) : Host.Outcome State Fault Refusal :=
  (store rt rn off 8 s).outcome

/-- STURW (R185). -/
def execSturw (rt rn : RegNum) (off : BitVec 9) (s : State) : Host.Outcome State Fault Refusal :=
  (store rt rn off 4 s).outcome

/-- STURH (R186). -/
def execSturh (rt rn : RegNum) (off : BitVec 9) (s : State) : Host.Outcome State Fault Refusal :=
  (store rt rn off 2 s).outcome

/-- STURB (R187). -/
def execSturb (rt rn : RegNum) (off : BitVec 9) (s : State) : Host.Outcome State Fault Refusal :=
  (store rt rn off 1 s).outcome

end Sys2Proof.Machine
end

