-- ==== Sys2Proof/Machine/Exclusive.lean ====
section
/-! DEFINITION. Exclusive transfer instructions (43_exclusive.md): the only setters of the exclusive tag. -/

namespace Sys2Proof.Machine

open Sys2Proof

/-- LDXR for a destination other than 31 (R196): a load of 8 bytes that records its address, last. -/
def loadExclusive (rt rn : RegNum) (off : BitVec 9) (s : State) : Run Unit :=
  let ea := s.effAddr rn off
  (loadValue rn ea 8 s).andThen fun v s =>
  .done () { s.writeReg rt v with xtag := some ea }

/-- LDXR (R196). With destination 31 the spec refuses the form (`WF_LDXR_RT`, R113): the source does not say
whether the tag is recorded. -/
def execLdxr (rt rn : RegNum) (off : BitVec 9) (s : State) : Host.Outcome State Fault Refusal :=
  if rt = zr then .refused (.illFormed .ldxrRt) else (loadExclusive rt rn off s).outcome

/-- The lines of STXR (R197): success exactly when the tag equals the address; the outcome register, the tag
and the latch are written after the transfer. -/
def storeExclusive (rt rs rn : RegNum) (s : State) : Run Unit :=
  let ea := s.readReg rn
  let v := s.readReg rt
  (spCheck rn s).andThen fun _ s =>
  if s.xtag = some ea then
    (dProbeW ea 8 v s).andThen fun _ s =>
    .done () { s.writeReg rs 0 with xtag := none, stxrOk := true }
  else .done () { s.writeReg rs 1 with stxrOk := false }

/-- STXR (R197). -/
def execStxr (rt rs rn : RegNum) (s : State) : Host.Outcome State Fault Refusal :=
  (storeExclusive rt rs rn s).outcome

end Sys2Proof.Machine
end

