-- ==== Sys2Proof/Machine/Move.lean ====
section
/-! DEFINITION. Wide-immediate moves (44_move.md): no memory, no flag, no fault. -/

namespace Sys2Proof.Machine

open Sys2Proof

/-- MOVZ (R201): the other 48 bits are zero. -/
def execMovz (rd : RegNum) (imm16 : BitVec 16) (hw : BitVec 2) (s : State) : Host.Outcome State Fault Refusal :=
  .next (s.writeReg rd (wideValue imm16 hw))

/-- MOVK (R202): the other 48 bits of the destination are kept. -/
def execMovk (rd : RegNum) (imm16 : BitVec 16) (hw : BitVec 2) (s : State) : Host.Outcome State Fault Refusal :=
  .next (s.writeReg rd ((s.readReg rd &&& ~~~wideField hw) ||| wideValue imm16 hw))

end Sys2Proof.Machine
end

