-- ==== Sys2Proof/Machine/Shift.lean ====
section
/-! DEFINITION. Shift instructions (41_shift.md): logical, by an immediate amount, no flag written. -/

namespace Sys2Proof.Machine

open Sys2Proof

/-- LSL (R171). -/
def execLsl (rd rn : RegNum) (shamt : BitVec 6) (s : State) : Host.Outcome State Fault Refusal :=
  .next (s.writeReg rd (s.readReg rn <<< shiftAmount shamt))

/-- LSR (R172): zero fill whatever the sign. -/
def execLsr (rd rn : RegNum) (shamt : BitVec 6) (s : State) : Host.Outcome State Fault Refusal :=
  .next (s.writeReg rd (s.readReg rn >>> shiftAmount shamt))

end Sys2Proof.Machine
end

