-- ==== Sys2Proof/Machine/Dispatch.lean ====
section
/-! DEFINITION. The dispatch on the mnemonic (R110, R273 step 4): one arm per instruction. -/

namespace Sys2Proof.Machine

open Sys2Proof

def exec (i : Instr) (s : State) : Host.Outcome State Fault Refusal :=
  match i with
  | .add rd rn rm => Sys2Proof.Machine.execAdd rd rn rm s
  | .addi rd rn imm => Sys2Proof.Machine.execAddi rd rn imm s
  | .adds rd rn rm => Sys2Proof.Machine.execAdds rd rn rm s
  | .addis rd rn imm => Sys2Proof.Machine.execAddis rd rn imm s
  | .sub rd rn rm => Sys2Proof.Machine.execSub rd rn rm s
  | .subi rd rn imm => Sys2Proof.Machine.execSubi rd rn imm s
  | .subs rd rn rm => Sys2Proof.Machine.execSubs rd rn rm s
  | .subis rd rn imm => Sys2Proof.Machine.execSubis rd rn imm s
  | .and rd rn rm => Sys2Proof.Machine.execAnd rd rn rm s
  | .andi rd rn imm => Sys2Proof.Machine.execAndi rd rn imm s
  | .ands rd rn rm => Sys2Proof.Machine.execAnds rd rn rm s
  | .andis rd rn imm => Sys2Proof.Machine.execAndis rd rn imm s
  | .orr rd rn rm => Sys2Proof.Machine.execOrr rd rn rm s
  | .orri rd rn imm => Sys2Proof.Machine.execOrri rd rn imm s
  | .eor rd rn rm => Sys2Proof.Machine.execEor rd rn rm s
  | .eori rd rn imm => Sys2Proof.Machine.execEori rd rn imm s
  | .lsl rd rn shamt => Sys2Proof.Machine.execLsl rd rn shamt s
  | .lsr rd rn shamt => Sys2Proof.Machine.execLsr rd rn shamt s
  | .ldur rt rn off => Sys2Proof.Machine.execLdur rt rn off s
  | .ldursw rt rn off => Sys2Proof.Machine.execLdursw rt rn off s
  | .ldurh rt rn off => Sys2Proof.Machine.execLdurh rt rn off s
  | .ldurb rt rn off => Sys2Proof.Machine.execLdurb rt rn off s
  | .stur rt rn off => Sys2Proof.Machine.execStur rt rn off s
  | .sturw rt rn off => Sys2Proof.Machine.execSturw rt rn off s
  | .sturh rt rn off => Sys2Proof.Machine.execSturh rt rn off s
  | .sturb rt rn off => Sys2Proof.Machine.execSturb rt rn off s
  | .ldxr rt rn off => Sys2Proof.Machine.execLdxr rt rn off s
  | .stxr rt rs rn => Sys2Proof.Machine.execStxr rt rs rn s
  | .movz rd imm16 hw => Sys2Proof.Machine.execMovz rd imm16 hw s
  | .movk rd imm16 hw => Sys2Proof.Machine.execMovk rd imm16 hw s
  | .cbz rt target => Sys2Proof.Machine.execCbz rt target s
  | .cbnz rt target => Sys2Proof.Machine.execCbnz rt target s
  | .beq target => Sys2Proof.Machine.execBeq target s
  | .bne target => Sys2Proof.Machine.execBne target s
  | .bhs target => Sys2Proof.Machine.execBhs target s
  | .blo target => Sys2Proof.Machine.execBlo target s
  | .bhi target => Sys2Proof.Machine.execBhi target s
  | .bls target => Sys2Proof.Machine.execBls target s
  | .bge target => Sys2Proof.Machine.execBge target s
  | .blt target => Sys2Proof.Machine.execBlt target s
  | .bgt target => Sys2Proof.Machine.execBgt target s
  | .ble target => Sys2Proof.Machine.execBle target s
  | .bmi target => Sys2Proof.Machine.execBmi target s
  | .bpl target => Sys2Proof.Machine.execBpl target s
  | .bvs target => Sys2Proof.Machine.execBvs target s
  | .bvc target => Sys2Proof.Machine.execBvc target s
  | .b target => Sys2Proof.Machine.execB target s
  | .bl target => Sys2Proof.Machine.execBl target s
  | .br rn => Sys2Proof.Machine.execBr rn s

end Sys2Proof.Machine
end

