-- ==== Sys2Proof/Machine/Cycle.lean ====
section
/-! DEFINITION. The parts of the step cycle (R273): completing, beginning a step, running the fetched
instruction; and how a program is handed to the engine (R11, R125, R126; log 3, log 9). -/

namespace Sys2Proof.Machine

open Sys2Proof

/-! ## The instruction port -/

/-- The position of a program that a word at index `k` makes: its instruction, or the word if it spells none
(R125, R126). The source line is handed over beside the word, for it comes "from the program listing, not from
the word" (R125). -/
def slotOfWord (k : Nat) (w : InstrWord) (line : Nat) : Slot :=
  match decode k w with
  | .ok i => { form := .instr i, line := line }
  | .error _ => { form := .illegalWord w, line := line }

/-- The position that a record makes in a program of `plen` instructions (R113). -/
def slotOfRecord (plen : Nat) (r : Record) : Slot :=
  match decodeRecord plen r with
  | .ok i => { form := .instr i, line := r.line }
  | .error c => { form := .badRecord c, line := r.line }

/-- The program of a list of words, the first at index `k`, for which no program listing is given: DESIGN CHOICE,
the word at index `k` gets the source line `k+1`, log 20. -/
def loadWords (k : Nat) (ws : List InstrWord) : List Slot :=
  match ws with
  | [] => []
  | w :: rest => slotOfWord k w (k + 1) :: loadWords (k + 1) rest

/-- The program of a list of records (R11, R110). -/
def loadRecords (rs : List Record) : List Slot := rs.map (slotOfRecord rs.length)

/-- Why a position of a program of `plen` instructions makes the program refused, if it does: its word spells no
instruction (R126), or its record fails a check of R113. -/
def Slot.failing (plen : Nat) (slot : Slot) : Option Refusal :=
  match slot.form with
  | .instr i => (i.failing plen).map .illFormed
  | .illegalWord w => some (.illegalWord w)
  | .badRecord c => some (.illFormed c)

/-- The first position, counted from `k`, for which a program of `plen` instructions is refused, and why. -/
def firstFailingSlot (plen k : Nat) (prog : List Slot) : Option (Nat × Refusal) :=
  match prog with
  | [] => none
  | slot :: rest =>
    match slot.failing plen with
    | some r => some (k, r)
    | none => firstFailingSlot plen (k + 1) rest

/-- A position that changes nothing, `ADD XZR, XZR, XZR` (R127). DESIGN CHOICE: its source line is 0, log 20. -/
def idleSlot : Slot := { form := .instr (.add zr zr zr), line := 0 }

/-- A program with position `k` replaced, lengthened by idle positions when it is too short. -/
def putSlot (prog : List Slot) (k : Nat) (slot : Slot) : List Slot :=
  match k, prog with
  | 0, [] => [slot]
  | 0, _ :: rest => slot :: rest
  | k + 1, [] => idleSlot :: putSlot [] k slot
  | k + 1, x :: rest => x :: putSlot rest k slot

/-- The program length a position needs so that its branch target lies inside the program, 0 when it has no
forward target, or one further off than a short program reaches. -/
def neededLength (slot : Slot) : Nat :=
  match slot.form with
  | .instr i =>
    match i.target? with
    | some t => if t ≤ 1024 then t.toNat else 0
    | none => 0
  | _ => 0

/-- The state with a word standing at `idx`, in a program long enough for its branch (log 3). DESIGN CHOICE: the
word at index `k` gets the source line `k+1`, log 20. -/
def State.placeWord (s : State) (w : InstrWord) : State :=
  let slot := slotOfWord s.idx w (s.idx + 1)
  let prog := putSlot s.prog s.idx slot
  { s with prog := prog ++ List.replicate (neededLength slot - prog.length) idleSlot }

/-! ## The step cycle (R273) -/

/-- A step in the completed state changes nothing, issues no transaction and returns `Completed` (R274). -/
def State.complete (s : State) : State := { s with status := .completed, port := [] }

/-- Steps 1 and 2 of the cycle: the index advanced, the branch-taken latch cleared; the command returns
`Continuing` unless a fault is raised after this. -/
def State.beginStep (s : State) : State :=
  { s with idx := s.idx + 1, taken := false, status := .continuing, port := [] }

/-- Steps 3 and 4: the instruction-cache probe, whose fault ends the step before execution (R245), then the
instruction. `k` is the index of the fetched instruction. An instruction that R113 refuses is refused after
the probe, so a fault of the probe comes before the refusal: DESIGN CHOICE (the spec has no such step), in
states that no reset makes, log 17. -/
def runInstr (k : Nat) (i : Instr) (s : State) : Host.Outcome State Fault Refusal :=
  match iProbe k s with
  | .raised f s' => .next (s'.takeFault f)
  | .done _ s' => exec i s'

/-- One step at a position that exists. A position that spells no instruction, or whose record failed a
check, is refused (R126, R113); `resetWith` has refused every program that holds one (log 9). -/
def runSlot (slot : Slot) (s : State) : Host.Outcome State Fault Refusal :=
  match slot.form with
  | .instr i => runInstr s.idx i s.beginStep
  | .illegalWord w => .refused (.illegalWord w)
  | .badRecord c => .refused (.illFormed c)

/-- The `step` command (R273, R274). -/
def stepOnce (s : State) : Host.Outcome State Fault Refusal :=
  if s.idx = s.plen then .next s.complete
  else
    match s.prog[s.idx]? with
    | none => .fault .indexBeyondProgram
    | some slot => runSlot slot s

end Sys2Proof.Machine
end

