-- ==== Sys2Proof/Machine/Step.lean ====
section
/-! DEFINITION. The step of the machine (R273) and the placing of one word where the step fetches next. -/

namespace Sys2Proof.Machine

open Sys2Proof

/-- One step, the `step` command (R273). -/
def step (s : State) : Host.Outcome State Fault Refusal := stepOnce s

/-- The instruction whose bits are `w` stored where `step` fetches next: at position `idx` of the program
(log 3). -/
def State.withFetchWord (s : State) (nbits w : Nat) : State := s.placeWord (BitVec.ofNat 32 (w % 2 ^ nbits))

end Sys2Proof.Machine
end

