-- ==== Sys2Proof/Machine/Command.lean ====
section
/-! DEFINITION. The commands and ports around the step: `reset` for any straps (R80 to R82, R270), `run` with
fuel (R278, R279), the observation port (R16, R37, R52) and the host's writes to memory between commands
(D33). -/

namespace Sys2Proof.Machine

open Sys2Proof

/-! ## Reset -/

/-- A power of two, 1 included (R80). -/
def isPowerOfTwo (n : Nat) : Bool := n != 0 && 2 ^ Nat.log2 n == n

/-- What the validation of a cache pair says: a cache, a `ConfigurationError` (R80, R81 (a)), or that the
model gives such an engine no meaning (R81 (b), (c)). -/
inductive CacheBuild where
  | built (c : Cache)
  | configurationError
  | refused
  deriving DecidableEq, Repr

/-- An entry after reset: invalid, tag 0, a block of zero bytes (R53). -/
def freshEntry (bsb : Nat) : CacheEntry := { tag := 0, valid := false, block := List.replicate (2 ^ bsb) 0 }

/-- A cache after reset: all entries invalid, counters 0 (R53). -/
def freshCache (bsb ib : Nat) : Cache :=
  { bsb := bsb, ib := ib, entries := List.replicate (2 ^ ib) (freshEntry bsb), hits := 0, misses := 0 }

/-- The cache of a pair, validated at construction (R80, R81, R82; log 16). -/
def buildCache (p : CachePair) : CacheBuild :=
  if p.size ≤ 0 ∨ p.blocksize ≤ 0 then .configurationError
  else
    let size := p.size.toNat
    let bs := p.blocksize.toNat
    if size % bs ≠ 0 ∨ isPowerOfTwo (size / bs) = false then .configurationError
    else if isPowerOfTwo bs = false ∨ 2 ^ 63 ≤ size then .refused
    else .built (freshCache (Nat.log2 bs) (Nat.log2 (size / bs)))

/-- What `reset` returns: `Ready` with the fresh engine, or the error with the cache position and the pair,
and then no engine exists (R241, R270). The model refuses a cache pair (R81) and a program that is not
well formed (R113, R126); it then names the first position of the program that fails, and why. -/
inductive ResetOutcome where
  | ready (s : State)
  | configurationError (pos : CachePos) (pair : CachePair)
  | refused (pos : CachePos) (pair : CachePair)
  | refusedProgram (k : Nat) (r : Refusal)
  deriving DecidableEq, Repr

/-- One position validated: the rest of the reset goes on with its cache, or with none if no pair is given. -/
def resetPosition (pos : CachePos) (cfg : Option CachePair) (rest : Option Cache → ResetOutcome) : ResetOutcome :=
  match cfg with
  | none => rest none
  | some pair =>
    match buildCache pair with
    | .built c => rest (some c)
    | .configurationError => .configurationError pos pair
    | .refused => .refused pos pair

/-- A program handed over: refused whole if any of its positions spells no instruction or fails a check, however
far from where it would run (R113, R126, D34). -/
def resetProgram (prog : List Slot) (rest : ResetOutcome) : ResetOutcome :=
  match firstFailingSlot prog.length 0 prog with
  | some (k, r) => .refusedProgram k r
  | none => rest

/-- The `reset` command (R270): the instruction side is validated first. Memory and the program are those
handed over (R53). That the program is looked at after the cache pairs is a DESIGN CHOICE (log 9): the spec
gives a refused program no reset at all. Straps that break the constraints of R8 and R38 (`TEXT_BASE` a multiple
of 4, `STACK_BASE` of 16, the text ending below 2^64) are accepted: DESIGN CHOICE, log 21. -/
def resetWith (params : Params) (prog : List Slot) (mem : Memory) : ResetOutcome :=
  resetPosition .ic params.icCfg fun ic =>
  resetPosition .dc params.dcCfg fun dc =>
  resetProgram prog <|
  .ready (State.fresh params ic dc prog mem)

/-! ## Run -/

/-- How `run` ends (R278), with the state it leaves; `outOfFuel` is an artefact of the model (R279). -/
inductive RunOutcome where
  | completed (s : State)
  | faulted (r : FaultRecord) (s : State)
  | outOfFuel (s : State)
  | stopped (f : Fault)
  | refused (r : Refusal)
  deriving DecidableEq, Repr

/-- `run` with fuel (R278, R279; log 14): iterated `step` until one does not return `Continuing`. -/
def runFuel (fuel : Nat) (s : State) : RunOutcome :=
  match fuel with
  | 0 => .outOfFuel s
  | fuel + 1 =>
    match step s with
    | .fault f => .stopped f
    | .refused r => .refused r
    | .next t =>
      match t.status with
      | .completed => .completed t
      | .faulted r => .faulted r t
      | _ => runFuel fuel t

/-! ## Observation port (R52): reads only -/

/-- "Register read by index". -/
def State.observeReg (s : State) (i : RegNum) : Word := s.readReg i
/-- "flag reads (N, Z, C, V)". -/
def State.observeFlags (s : State) : Flags := s.flags
/-- "current PC" (R37). -/
def State.observePc (s : State) : Word := s.pc
/-- "whether the last instruction branched" (R43). -/
def State.observeTaken (s : State) : Bool := s.taken
/-- "whether the last exclusive store succeeded" (R44). -/
def State.observeStxrOk (s : State) : Bool := s.stxrOk
/-- "cache hit/miss counters per cache": hits, misses. -/
def State.observeCounters (s : State) (pos : CachePos) : Option (Nat × Nat) :=
  (s.cacheAt pos).map fun c => (c.hits, c.misses)
/-- "dump of cache contents": tag, valid and block of every entry, by index. -/
def State.observeDump (s : State) (pos : CachePos) : Option (List CacheEntry) := (s.cacheAt pos).map Cache.entries

/-! ## The host between commands (D33) -/

/-- The host writes bytes of memory: no tag is cleared, no cache touched, no transaction of the engine issued
(R42, R65, D33; log 13). -/
def State.hostWrite (s : State) (a : Nat) (bs : List Byte) : State := { s with mem := Memory.writeBytes s.mem a bs }

end Sys2Proof.Machine
end

