-- ==== Sys2Proof/Safety.lean ====
section
/-! DEFINITION. The terms that claims are stated in: the invariant of reachable states (R54), what an
instruction leaves unchanged, when a cache check goes through, the forms of the instruction families. -/

namespace Sys2Proof.Machine

open Sys2Proof

/-! ## Invariants -/

/-- A cache is as R46 and R54 (c) say: a legal geometry (R81 (c)), `E` entries, blocks of `B` bytes, tags below
`2^tb`. -/
structure Cache.Wf (c : Cache) : Prop where
  bits    : c.ib + c.bsb ≤ 62
  entries : c.entries.length = c.numEntries
  blocks  : ∀ e ∈ c.entries, e.block.length = c.blockSize
  tags    : ∀ e ∈ c.entries, e.tag < 2 ^ c.tagBits

/-- The invariant of reachable states (R54 (a) to (c)), on a well-formed program (R54, R113, R126), with the
canonical form of memory. -/
structure State.Inv (s : State) : Prop where
  index : s.idx ≤ s.plen
  reg31 : s.readReg zr = 0
  cache : ∀ pos c, s.cacheAt pos = some c → c.Wf
  mem   : Memory.wf s.mem
  prog  : ∀ slot ∈ s.prog, slot.failing s.plen = none

/-- The constraints on the straps: `TEXT_BASE mod 4 = 0`, `STACK_BASE mod 16 = 0`, the text ends below 2^64 (R8,
R38, D18, D25). -/
structure State.StrapsOk (s : State) : Prop where
  text  : s.params.textBase.toNat % 4 = 0
  stack : s.params.stackBase.toNat % 16 = 0
  fits  : s.params.textBase.toNat + 4 * s.plen < 2 ^ 64

/-! ## Frames -/

/-- Every byte of memory is unchanged. -/
def memSame (s t : State) : Prop := ∀ b, t.byteAt b = s.byteAt b

/-- Every byte of memory outside `[a, a+n)` is unchanged. -/
def memSameOutside (a n : Nat) (s t : State) : Prop := ∀ b, b < a ∨ a + n ≤ b → t.byteAt b = s.byteAt b

/-- Every register but those listed is unchanged. -/
def regsSameBut (except : List RegNum) (s t : State) : Prop := ∀ r, r ∉ except → t.readReg r = s.readReg r

/-- The program and the straps are unchanged. -/
def fixedSame (s t : State) : Prop := t.prog = s.prog ∧ t.params = s.params

/-- All that an instruction which only computes a register or a flag leaves alone: the index, the latches,
the tag, the caches, the ports, the program and the straps. -/
def restSame (s t : State) : Prop :=
  t.idx = s.idx ∧ t.taken = s.taken ∧ t.xtag = s.xtag ∧ t.stxrOk = s.stxrOk ∧ t.ic = s.ic ∧ t.dc = s.dc ∧
  t.status = s.status ∧ t.port = s.port ∧ fixedSame s t

/-- What an instruction that only computes a register does besides its flags: `rd` gets `v`, or nothing when
`rd` is 31 (R32); every other register, every byte of memory and the rest of the state are unchanged. -/
def writesReg (rd : RegNum) (v : Word) (s t : State) : Prop :=
  (rd ≠ zr → t.readReg rd = v) ∧ (rd = zr → t.readReg rd = s.readReg rd) ∧ regsSameBut [rd] s t ∧ memSame s t ∧
  restSame s t

/-- All that a branch leaves alone but for the registers listed: the flags, the tag, the exclusive latch, the
caches, the ports, memory, the program and the straps. -/
def branchFrame (except : List RegNum) (s t : State) : Prop :=
  regsSameBut except s t ∧ t.flags = s.flags ∧ t.xtag = s.xtag ∧ t.stxrOk = s.stxrOk ∧ t.ic = s.ic ∧ t.dc = s.dc ∧
  t.status = s.status ∧ t.port = s.port ∧ memSame s t ∧ fixedSame s t

/-- All that no memory instruction touches: the index, the branch latch, the flags, the instruction cache, the
program and the straps. -/
def dataFrame (s t : State) : Prop :=
  t.idx = s.idx ∧ t.taken = s.taken ∧ t.flags = s.flags ∧ t.ic = s.ic ∧ fixedSame s t

/-! ## Caches -/

/-- The strap of a cache position (R9). -/
def cacheStrap (p : Params) (pos : CachePos) : Option CachePair :=
  match pos with
  | .ic => p.icCfg
  | .dc => p.dcCfg

/-- Reset has nothing to object to: every configured pair builds, every position of the program is a well-formed
instruction (R80, R81, R113, R126, R270). -/
def resetAccepts (params : Params) (prog : List Slot) : Prop :=
  (∀ pos p, cacheStrap params pos = some p → ∃ c, buildCache p = .built c) ∧
  ∀ slot ∈ prog, slot.failing prog.length = none

/-- A cache check at a position goes through: no cache is configured there, or the access hits, or every
block of its span may be read (R90, R92). -/
def probeOk (pos : CachePos) (a : Word) (n : Nat) (s : State) : Prop :=
  ∀ c, s.cacheAt pos = some c →
    c.spanHits (c.tag a) (c.span a n) = true ∨
    ∀ i ∈ c.span a n, s.params.memValid (c.blockBase (c.tag a) i) c.blockSize .block = true

/-- A cache check at a position ends in the fault of a block request at `base`: the access misses, and `base` is
the block of the first element of the span whose block may not be read (R92, R243). -/
def probeFaultsAt (pos : CachePos) (a : Word) (n : Nat) (s : State) (base : Word) : Prop :=
  ∃ c pre i post, s.cacheAt pos = some c ∧ c.spanHits (c.tag a) (c.span a n) = false ∧
    c.span a n = pre ++ i :: post ∧ base = c.blockBase (c.tag a) i ∧
    (∀ j ∈ pre, s.params.memValid (c.blockBase (c.tag a) j) c.blockSize .block = true) ∧
    s.params.memValid base c.blockSize .block = false

/-- A cache after one check: exactly one counter moved, by one; the geometry is the same; on a hit no entry
changed (R90). -/
def countsOnce (c c' : Cache) (hit : Bool) : Prop :=
  c'.hits = c.hits + (if hit then 1 else 0) ∧ c'.misses = c.misses + (if hit then 0 else 1) ∧
  c'.bsb = c.bsb ∧ c'.ib = c.ib ∧ (hit = true → c'.entries = c.entries)

/-- The entry `i` that a refill with tag `t` writes: valid, with the bytes that memory holds in its own block, in
ascending order (R63, R92). -/
def Cache.refilledEntry (c : Cache) (m : State) (t i : Nat) : CacheEntry :=
  { tag := t, valid := true
    block := (List.range c.blockSize).map fun p => m.byteAt ((c.blockBase t i).toNat + p) }

/-- A cache after a refill of the elements `sp` with tag `t`: their entries are overwritten outright from memory as
`m` holds it, every other entry is unchanged (R92, R95). -/
def refilled (c c' : Cache) (m : State) (t : Nat) (sp : List Nat) : Prop :=
  c'.entries.length = c.entries.length ∧
  (∀ i ∈ sp, i < c.entries.length → c'.entries[i]? = some (c.refilledEntry m t i)) ∧
  ∀ i, i ∉ sp → c'.entries[i]? = c.entries[i]?

/-- A cache after one check that went through, memory being as `m` holds it: counted once; it hit exactly when
every spanned entry was valid with the tag of the access; on a hit no entry changed, on a miss the whole span
was refilled (R90, R92, R95). -/
def checkedOnce (a : Word) (n : Nat) (c c' : Cache) (m : State) : Prop :=
  countsOnce c c' (c.spanHits (c.tag a) (c.span a n)) ∧
  (c.spanHits (c.tag a) (c.span a n) = false → refilled c c' m (c.tag a) (c.span a n))

/-- The data cache was checked once for an access, if it is configured. A refill takes the bytes that memory holds
afterwards: those of a load are untouched by it, a store and STXR write before their check (R94, R97). -/
def dataChecked (a : Word) (n : Nat) (s t : State) : Prop :=
  (s.dc = none → t.dc = none) ∧ ∀ c, s.dc = some c → ∃ c', t.dc = some c' ∧ checkedOnce a n c c' t

/-- What a check at a position leaves of its cache when a refill faulted (R92, R247): the miss counted, the
elements of the span before the first whose block may not be read refilled from memory, that element's entry and
every other unchanged. -/
def refillStopped (pos : CachePos) (a : Word) (n : Nat) (s t : State) : Prop :=
  ∀ c, s.cacheAt pos = some c → ∃ c', t.cacheAt pos = some c' ∧ countsOnce c c' false ∧
    ∀ pre i post, c.span a n = pre ++ i :: post →
      (∀ j ∈ pre, s.params.memValid (c.blockBase (c.tag a) j) c.blockSize .block = true) →
      s.params.memValid (c.blockBase (c.tag a) i) c.blockSize .block = false →
      refilled c c' t (c.tag a) pre

/-! ## Instruction forms -/

/-- The base register is not a misaligned stack pointer (R176). -/
def baseOk (rn : RegNum) (s : State) : Prop := rn = spIndex → (s.readReg spIndex).toNat % 16 = 0

/-- A load instruction: its constructor, its size in bytes, whether it sign-extends (R66). -/
structure LoadForm where
  instr  : RegNum → RegNum → BitVec 9 → Instr
  size   : Nat
  signed : Bool

/-- LDUR, LDURSW, LDURH, LDURB (R66, R180 to R183). -/
def loadForms : List LoadForm :=
  [⟨.ldur, 8, false⟩, ⟨.ldursw, 4, true⟩, ⟨.ldurh, 2, false⟩, ⟨.ldurb, 1, false⟩]

/-- A store instruction: its constructor and its size in bytes (R66). -/
structure StoreForm where
  instr : RegNum → RegNum → BitVec 9 → Instr
  size  : Nat

/-- STUR, STURW, STURH, STURB (R66, R184 to R187). -/
def storeForms : List StoreForm := [⟨.stur, 8⟩, ⟨.sturw, 4⟩, ⟨.sturh, 2⟩, ⟨.sturb, 1⟩]

/-- The condition-code branches, each with its column of the truth table of R226: bit `8N+4Z+2C+V` of the number
says whether it branches. -/
def condForms : List ((Int → Instr) × BitVec 16) :=
  [ (.beq, 0xF0F0)
  , (.bne, 0x0F0F)
  , (.bhs, 0xCCCC)
  , (.blo, 0x3333)
  , (.bhi, 0x0C0C)
  , (.bls, 0xF3F3)
  , (.bge, 0xAA55)
  , (.blt, 0x55AA)
  , (.bgt, 0x0A05)
  , (.ble, 0xF5FA)
  , (.bmi, 0xFF00)
  , (.bpl, 0x00FF)
  , (.bvs, 0xAAAA)
  , (.bvc, 0x5555) ]

/-- The row of R226 that a flag state is. -/
def Flags.row (f : Flags) : Nat := 8 * f.n.toNat + 4 * f.z.toNat + 2 * f.c.toNat + f.v.toNat

/-- The significance of the byte at offset `p` of an access of `n` bytes, and the offset of the byte of
significance `p`: the same in little-endian order, mirrored in big-endian order (R64). -/
def bytePos (o : ByteOrder) (n p : Nat) : Nat :=
  match o with
  | .little => p
  | .big => n - 1 - p

/-- `v` is what a load of `n` bytes at `a` gives: bit by bit the bytes of memory in the byte order, and above
them zeros or copies of the top bit read (R60, R64, R66). -/
def loadsValue (s : State) (a n : Nat) (signed : Bool) (v : Word) : Prop :=
  ∀ j, j < 64 → v.getLsbD j =
    if j < 8 * n then (s.byteAt (a + bytePos s.params.byteOrder n (j / 8))).getLsbD (j % 8)
    else signed && (s.byteAt (a + bytePos s.params.byteOrder n (n - 1))).getLsbD 7

/-- The `n` bytes at `a` hold the low `8*n` bits of `v` in the byte order, and every other byte is unchanged
(R61, R64). -/
def storesValue (a n : Nat) (v : Word) (s t : State) : Prop :=
  (∀ p, p < n → t.byteAt (a + p) = (v >>> (8 * bytePos s.params.byteOrder n p)).setWidth 8) ∧
  memSameOutside a n s t

/-- The fault record of the instruction in progress (R241). -/
def State.record (s : State) (kind : FaultKind) (addr : Word) : Status :=
  .faulted { kind := kind, addr := addr, line := s.fetchedLine }

/-- A fault that left every register, the flags, the tag, the latches, the index, the instruction cache, the
program and the straps as they were (R246, R247). -/
def faultFrame (s t : State) : Prop :=
  regsSameBut [] s t ∧ t.xtag = s.xtag ∧ t.stxrOk = s.stxrOk ∧ dataFrame s t

end Sys2Proof.Machine
end

