-- ==== Sys2Proof/Certificates/Slice0/Obligations.lean ====
section
/-! DEFINITION. The statements for the provers. Each docstring cites the rule of spec/ it formalises. A fault is
an outcome that leaves a state (R247), so a faulting instruction answers a next state whose `status` holds
the record (log 1); a statement of completion therefore says that `status` is unchanged. -/

open Sys2Proof Sys2Proof.Machine

/-! ## Encoding -/

/-- R125: `decode(k, encode(k, r)) = r`, for every instruction and every operand the word form can spell (log
10). The word form is the spec's own (D4, from general knowledge); that `encodable` is what the fields can carry
is DEDUCED (log 10). -/
def Obligations.DecodeEncodeRoundTrip : Prop :=
  ∀ (k : Nat) (i : Instr), i.encodable k = true → decode k (encode k i) = .ok i

/-- R125: `encode(k, decode(k, w)) = w` for every legal word with canonical ignored fields; and what a word
decodes to can be spelled at that index. The word form is the spec's own (D4, from general knowledge; log 10). -/
def Obligations.EncodeDecodeCanonicalWord : Prop :=
  ∀ (k : Nat) (w : InstrWord) (i : Instr), decode k w = .ok i → canonicalWord w = true →
    encode k i = w ∧ i.encodable k = true

/-- R123: `w` is the instruction of a row when `w AND mask = match`; the decoder, written from the opcode bit
strings, agrees with the masks. The 36 bit strings are prefix-free, so at most one row fits any word. The opcode
values are the spec's own (D4, from general knowledge). -/
def Obligations.DecoderAgreesWithMaskTable : Prop :=
  (∀ (w : InstrWord) (m : Mnemonic), wordMnemonic w = some m ↔ ∃ r ∈ maskRows, r.mn = m ∧ r.fits w = true) ∧
  opcodeRows.length = 36 ∧
  ∀ r ∈ opcodeRows, ∀ q ∈ opcodeRows, ∀ top : BitVec 11, r.fits top = true → q.fits top = true → r = q

/-- R126, R113: a word that fits no row, condition numbers 14 to 31 among them, decodes to `Illegal`, and a program
that holds such a word, or a position that fails a check of R113, is refused whole: no reset answers `Ready` with
it; where no cache pair is to be validated, the refusal names the first such position and why. In a state that no
reset made, a step that meets such a word neither traps nor executes: it is refused by name. The refusal is the
spec's decision D34 (D5 for records); that the pairs are validated before the program, that the first position
is named, and the step's refusal are the model's choices (log 9). -/
def Obligations.IllegalWordsRefused : Prop :=
  (∀ (k : Nat) (w : InstrWord), (∀ r ∈ maskRows, r.fits w = false) → decode k w = .error (.illegal w)) ∧
  (∀ (k : Nat) (w : InstrWord), w.extractLsb' 24 8 = 0x54#8 → 14 ≤ (w.extractLsb' 0 5).toNat →
    decode k w = .error (.illegal w)) ∧
  (∀ (k line plen : Nat) (w : InstrWord), (∀ r ∈ maskRows, r.fits w = false) →
    (slotOfWord k w line).failing plen = some (.illegalWord w)) ∧
  (∀ (params : Params) (prog : List Slot) (mem : Memory), (∃ slot ∈ prog, slot.failing prog.length ≠ none) →
    ∀ s, resetWith params prog mem ≠ .ready s) ∧
  (∀ (params : Params) (pre post : List Slot) (slot : Slot) (mem : Memory) (r : Refusal),
    params.icCfg = none → params.dcCfg = none →
    (∀ x ∈ pre, x.failing (pre ++ slot :: post).length = none) →
    slot.failing (pre ++ slot :: post).length = some r →
    resetWith params (pre ++ slot :: post) mem = .refusedProgram pre.length r) ∧
  ∀ (s : State) (w : InstrWord) (line : Nat), (∀ r ∈ maskRows, r.fits w = false) →
    s.prog[s.idx]? = some (slotOfWord s.idx w line) → step s = .refused (.illegalWord w)

/-- R112, R113: reading the record of a well-formed instruction gives the instruction back, and an instruction
read from a record has that record's mnemonic and arguments. The argument order and the ranges are the spec's
decisions D3 and D5; that a record out of range is refused, not widened, is the model's choice (log 8). -/
def Obligations.RecordReadingRoundTrip : Prop :=
  (∀ (plen line : Nat) (i : Instr), i.wellFormed plen = true → decodeRecord plen (i.record line) = .ok i) ∧
  ∀ (plen : Nat) (r : Record) (i : Instr), decodeRecord plen r = .ok i →
    i.record r.line = r ∧ i.wellFormed plen = true

/-- Words of R123 and R124 written out bit by bit decode to the instructions they stand for. The words are from
the spec's own encoding (D4, from general knowledge). -/
def Obligations.SampleWordsDecode : Prop :=
  decode 5 0b10001011000_00011_000000_00010_00001#32 = .ok (.add 1 2 3) ∧
  decode 5 0b1101000100_000000010000_11100_11100#32 = .ok (.subi 28 28 16) ∧
  decode 5 0b11010011011_00000_111111_00010_00001#32 = .ok (.lsl 1 2 63) ∧
  decode 5 0b11111000010_111111000_00_00010_00001#32 = .ok (.ldur 1 2 (-8)) ∧
  decode 5 0b11001000000_00100_000000_00010_00011#32 = .ok (.stxr 3 4 2) ∧
  decode 5 0b110100101_01_0001001000110100_00001#32 = .ok (.movz 1 0x1234 1) ∧
  decode 5 0b10110101_1111111111111111101_00001#32 = .ok (.cbnz 1 2) ∧
  decode 5 0b01010100_1111111111111111011_01010#32 = .ok (.bge 0) ∧
  decode 5 0b100101_11111111111111111111111011#32 = .ok (.bl 0) ∧
  decode 5 0b11010110000_11111_000000_11110_00000#32 = .ok (.br 30)

/-! ## The step, the run, reset -/

/-- R273, R275: when the program's position at `idx` is the decoding of a word that spells `i` and the
instruction-cache check goes through, the step is `exec i` at the state in which the index has advanced, the
branch latch is cleared, the status is `Continuing`, and the instruction cache (if any) has been checked once
for the four bytes of the instruction, its span refilled on a miss; registers, flags, tag, data cache and memory are those before. Without an
instruction cache that state is exactly the begun step. That the probe comes at this place with this address is
the spec's decision D24; that a word stands in the program as what it decodes to is the model's choice (log 3,
log 11). -/
def Obligations.StepRunsFetchedInstruction : Prop :=
  ∀ (s : State) (w : InstrWord) (i : Instr) (line : Nat),
    decode s.idx w = .ok i → s.prog[s.idx]? = some (slotOfWord s.idx w line) →
    (s.ic = none → step s = exec i s.beginStep) ∧
    (probeOk .ic (s.instrAddr s.idx) 4 s →
      ∃ u, step s = exec i u ∧ u.idx = s.idx + 1 ∧ u.taken = false ∧ u.status = .continuing ∧ u.regs = s.regs ∧
        u.flags = s.flags ∧ u.xtag = s.xtag ∧ u.stxrOk = s.stxrOk ∧ u.dc = s.dc ∧ u.mem = s.mem ∧ fixedSame s u ∧
        (s.ic = none → u.ic = none) ∧
        ∀ c, s.ic = some c → ∃ c', u.ic = some c' ∧ checkedOnce (s.instrAddr s.idx) 4 c c' u)

/-- R245, R247: a fault in the instruction-cache probe ends the step there: the instruction is not executed, the
record carries the block base and the line of the fetched instruction, the miss is counted, the entries before
the one that faults are refilled and no other (R92), the index has advanced, and everything the instruction would have done is undone. That the fault propagates is the spec's
decision D24, that nothing is rolled back D31; that a fault is a next state with a status is the model's choice
(log 1). -/
def Obligations.InstructionProbeFaultSkipsInstruction : Prop :=
  ∀ (s : State) (i : Instr) (line : Nat) (base : Word),
    s.prog[s.idx]? = some { form := .instr i, line := line } →
    probeFaultsAt .ic (s.instrAddr s.idx) 4 s base →
    ∃ t, step s = .next t ∧ t.status = .faulted { kind := .segment, addr := base, line := line } ∧
      t.idx = s.idx + 1 ∧ t.taken = false ∧ t.regs = s.regs ∧ t.flags = s.flags ∧ t.xtag = s.xtag ∧
      t.stxrOk = s.stxrOk ∧ t.dc = s.dc ∧ t.mem = s.mem ∧ fixedSame s t ∧
      refillStopped .ic (s.instrAddr s.idx) 4 s t

/-- R274: a step issued in the completed state changes nothing, issues no transaction and returns `Completed`.
When a step returns `Completed` is the spec's decision D29; `status` and `port` are the model's own fields (log
1, log 7). -/
def Obligations.StepAtEndCompletes : Prop :=
  ∀ s : State, s.idx = s.plen →
    ∃ t, step s = .next t ∧ t.status = .completed ∧ t.port = [] ∧
      t = { s with status := t.status, port := t.port }

/-- R54 (a) to (c), on a well-formed program: the invariant of reachable states, kept by every step from every
state that has it; and from such a state a step always answers a next state, so no refusal and no fault outcome
is met there. R54 is an inference of the spec; the clause on memory is the model's canonical form (log 4). -/
def Obligations.StepKeepsInvariant : Prop :=
  (∀ s t : State, s.Inv → step s = .next t → t.Inv) ∧
  ∀ s : State, s.Inv → ∃ t, step s = .next t

/-- The state after reset has the invariant. The straps of `State.reset` are the model's choice (log 2, log 3,
log 4). -/
def Obligations.ResetStateHasInvariant : Prop := State.reset.Inv

/-- R54, R270: reset with any straps whose pairs build, any well-formed program and any memory in canonical form
answers `Ready` with a state that has the invariant, and it never answers `Ready` with one that has not. R54 is
an inference of the spec; the clause on memory is the model's canonical form (log 4). -/
def Obligations.ResetEstablishesInvariant : Prop :=
  ∀ (params : Params) (prog : List Slot) (mem : Memory), Memory.wf mem →
    (resetAccepts params prog → ∃ s, resetWith params prog mem = .ready s ∧ s.Inv) ∧
    ∀ s, resetWith params prog mem = .ready s → s.Inv

/-- R53, R270, R45: reset answers `Ready` exactly when every configured pair builds and the program is well formed (so
never with a pair that is an error or refused, R81), and then leaves the reset values: a position without a strap
has no cache, one with a strap has the cache that its pair builds, all entries invalid and the counters 0. The
values of the index, the flags, the tag, the latches and the counters are the spec's decision D30, those of the
entries D22, the number of the stack pointer D1; `status` and `port` are the model's own fields (log 1, log 7).
That straps which break the constraints of R8 and R38 are accepted is the model's choice (log 21). -/
def Obligations.ResetValues : Prop :=
  (∀ (params : Params) (prog : List Slot) (mem : Memory),
    (∃ s, resetWith params prog mem = .ready s) ↔ resetAccepts params prog) ∧
  ∀ (params : Params) (prog : List Slot) (mem : Memory) (s : State), resetWith params prog mem = .ready s →
    (∀ r, r ≠ spIndex → s.readReg r = 0) ∧ s.readReg spIndex = params.stackBase ∧ s.idx = 0 ∧
    s.flags = { n := false, z := false, c := false, v := false } ∧ s.xtag = none ∧ s.taken = false ∧
    s.stxrOk = false ∧ s.mem = mem ∧ s.prog = prog ∧ s.params = params ∧ s.status = .ready ∧ s.port = [] ∧
    (∀ pos, cacheStrap params pos = none → s.cacheAt pos = none) ∧
    (∀ pos p, cacheStrap params pos = some p → ∃ c, buildCache p = .built c ∧ s.cacheAt pos = some c) ∧
    ∀ pos c, s.cacheAt pos = some c → c.hits = 0 ∧ c.misses = 0 ∧ c.entries.length = c.numEntries ∧
      ∀ e ∈ c.entries, e.valid = false ∧ e.tag = 0 ∧ e.block = List.replicate c.blockSize 0

/-- R80, R81: which cache pairs build, which are a `ConfigurationError`, which are refused, and the constants of
R82 for those that build. What is refused, and zero and negative numbers, are the spec's decision D20. -/
def Obligations.CachePairValidation : Prop :=
  ∀ size blocksize : Int,
    (buildCache ⟨size, blocksize⟩ = .configurationError ↔
      size ≤ 0 ∨ blocksize ≤ 0 ∨ size % blocksize ≠ 0 ∨ ¬ ∃ e : Nat, size / blocksize = 2 ^ e) ∧
    (∀ b e : Nat, blocksize = 2 ^ b → size = 2 ^ (e + b) → e + b < 63 →
      ∃ c, buildCache ⟨size, blocksize⟩ = .built c ∧ c.bsb = b ∧ c.ib = e ∧ (c.blockSize : Int) = blocksize ∧
        (c.size : Int) = size ∧ c.numEntries = 2 ^ e ∧ c.tagBits = 64 - e - b) ∧
    (∀ c, buildCache ⟨size, blocksize⟩ = .built c →
      blocksize = 2 ^ c.bsb ∧ size = 2 ^ (c.ib + c.bsb) ∧ c.ib + c.bsb < 63)

/-- R270: the instruction side is validated first, and a bad pair is reported with its position. The order of
the two validations is the spec's decision D20; that a bad pair is reported with an ill-formed program too is
the model's choice (log 9). -/
def Obligations.ResetReportsBadPair : Prop :=
  ∀ (params : Params) (prog : List Slot) (mem : Memory) (pair : CachePair),
    buildCache pair = .configurationError →
    (params.icCfg = some pair → resetWith params prog mem = .configurationError .ic pair) ∧
    ((∀ q, params.icCfg = some q → ∃ c, buildCache q = .built c) → params.dcCfg = some pair →
      resetWith params prog mem = .configurationError .dc pair)

/-- R278, R279: `run` is iterated `step`: with fuel left it issues a step, ends with `Completed` or `Faulted` when
the step returns that, and goes on when it returns `Continuing`; a step returns nothing else. Without fuel it
stops where it is. So running in two goes is running in one, and once the fuel suffices the result no longer
depends on it. The fuel, and the ends at a step that the model refuses or gives its own fault, are artefacts of
the model (D37, log 14). -/
def Obligations.RunIsIteratedStep : Prop :=
  (∀ s : State, runFuel 0 s = .outOfFuel s) ∧
  (∀ (n : Nat) (s t : State), step s = .next t →
    (t.status = .completed → runFuel (n + 1) s = .completed t) ∧
    (∀ r, t.status = .faulted r → runFuel (n + 1) s = .faulted r t) ∧
    (t.status = .continuing → runFuel (n + 1) s = runFuel n t) ∧
    t.status ≠ .ready) ∧
  (∀ (n : Nat) (s : State) (f : Fault), step s = .fault f → runFuel (n + 1) s = .stopped f) ∧
  (∀ (n : Nat) (s : State) (r : Refusal), step s = .refused r → runFuel (n + 1) s = .refused r) ∧
  (∀ (m n : Nat) (s t : State), runFuel m s = .outOfFuel t → runFuel (m + n) s = runFuel n t) ∧
  (∀ (m n : Nat) (s : State), (∀ t, runFuel m s ≠ .outOfFuel t) → runFuel (m + n) s = runFuel m s)

/-- R11, R73, R281: no step changes the program or the straps; a store into the text segment does not either.
That the program is fixed between resets is the spec's decision D42. -/
def Obligations.StepKeepsProgramAndStraps : Prop :=
  ∀ s t : State, step s = .next t → t.prog = s.prog ∧ t.params = s.params

/-- R113, R240: an instruction gets a next state exactly when it is well formed for the program; otherwise it is
refused with the check it fails; it never stops with a fault outcome. The checks are the spec's decisions D5,
D14 and D28; that the target check is made at execution is the model's choice (log 17). -/
def Obligations.ExecRefusesExactlyIllFormed : Prop :=
  ∀ (i : Instr) (s : State),
    (i.wellFormed s.plen = true → ∃ t, exec i s = .next t) ∧
    (∀ c, i.failing s.plen = some c → exec i s = .refused (.illFormed c))

/-! ## Rules about all instructions -/

/-- R32: a register write stores the value in registers 0 to 30, and for register 31 leaves the whole state as it
was; so no instruction, and no step, changes register 31. -/
def Obligations.Register31NeverWritten : Prop :=
  (∀ (s : State) (i : RegNum) (v : Word), i ≠ zr →
    (s.writeReg i v).readReg i = v ∧ ∀ j, j ≠ i → (s.writeReg i v).readReg j = s.readReg j) ∧
  (∀ (s : State) (v : Word), s.writeReg zr v = s) ∧
  (∀ (i : Instr) (s t : State), exec i s = .next t → t.readReg zr = s.readReg zr) ∧
  ∀ s t : State, step s = .next t → t.readReg zr = s.readReg zr

/-- R40: only ADDS, ADDIS, SUBS, SUBIS, ANDS, ANDIS change a flag. The set of the six is the spec's decision D2. -/
def Obligations.OnlySettersChangeFlags : Prop :=
  ∀ (i : Instr) (s t : State), exec i s = .next t → t.flags ≠ s.flags →
    i.mnemonic ∈ [Mnemonic.adds, .addis, .subs, .subis, .ands, .andis]

/-- R35: only the register that R35 lists for the instruction can change: `rd` or `rt` of the writers, the
status register of STXR, the link register of BL; the stores, the conditional branches, B and BR change none.
The number of the link register is the spec's decision D1. -/
def Obligations.OnlyListedRegisterChanges : Prop :=
  ∀ (i : Instr) (s t : State) (r : RegNum), exec i s = .next t → t.readReg r ≠ s.readReg r →
    (i.mnemonic = .bl ∧ r = lrIndex) ∨
    (i.mnemonic = .stxr ∧ i.args[1]? = some (r.toNat : Int)) ∨
    (i.mnemonic ∈ [Mnemonic.add, .addi, .adds, .addis, .sub, .subi, .subs, .subis, .and, .andi, .ands, .andis,
        .orr, .orri, .eor, .eori, .lsl, .lsr, .movz, .movk, .ldur, .ldursw, .ldurh, .ldurb, .ldxr] ∧
      i.args[0]? = some (r.toNat : Int))

/-- R42, R198: the exclusive tag changes only when an LDXR records its address, a matching STXR clears it, or a
store that shares a byte with the tagged doubleword clears it; in the last two cases it is cleared. The extent
of the tagged doubleword is the spec's decision D16. -/
def Obligations.TagChangesOnlyAsListed : Prop :=
  ∀ (i : Instr) (s t : State), exec i s = .next t → t.xtag ≠ s.xtag →
    (∃ rt rn off, i = .ldxr rt rn off ∧ t.xtag = some (s.effAddr rn off)) ∨
    (∃ rt rs rn, i = .stxr rt rs rn ∧ s.xtag = some (s.readReg rn) ∧ t.xtag = none) ∨
    (∃ f ∈ storeForms, ∃ rt rn off tag, i = f.instr rt rn off ∧ s.xtag = some tag ∧
      overlap (s.effAddr rn off) f.size tag = true ∧ t.xtag = none)

/-- R195: the overlap test says that the stored bytes, 1 to 8 of them, and the 8 tagged bytes share a byte,
modulo 2^64. The extent of the tagged doubleword is the spec's decision D16. -/
def Obligations.OverlapSharesAByte : Prop :=
  ∀ (ea t : Word) (n : Nat), 1 ≤ n → n ≤ 8 →
    (overlap ea n t = true ↔ ∃ i j : Nat, i < n ∧ j < 8 ∧ ea + BitVec.ofNat 64 i = t + BitVec.ofNat 64 j)

/-- R43, R44, R38: only branches change `taken` and, after the step's advance, the index, and then `taken` is true;
only STXR changes `stxrOk`. That `stxrOk` lasts until the next STXR
is the spec's decision D15. -/
def Obligations.LatchesOnlyByTheirWriters : Prop :=
  ∀ (i : Instr) (s t : State), exec i s = .next t →
    (t.stxrOk ≠ s.stxrOk → i.mnemonic = .stxr) ∧
    (t.taken ≠ s.taken → t.taken = true ∧ (i.target? ≠ none ∨ i.mnemonic = .br)) ∧
    (t.idx ≠ s.idx → t.taken = true ∧ (i.target? ≠ none ∨ i.mnemonic = .br))

/-- R240, R243, R246, R247: a faulting instruction leaves the registers, the flags, the tag, both latches, the
index and the instruction cache as they were, the record has the line of the instruction, and each kind of fault
comes from the instructions that R240 lists for it. Memory is unchanged unless the instruction is a store or STXR
whose refill faulted after the write: without a data cache, on another kind of fault, or when the address of the
store is not valid, every byte is as before; otherwise exactly the bytes of the store are written. What a fault leaves is the spec's decision D31; that it is a next
state with a status, and where its line comes from, are the model's choices (log 1, log 12). -/
def Obligations.FaultLeavesStateAsListed : Prop :=
  ∀ (i : Instr) (s t : State) (r : FaultRecord), s.status = .continuing → exec i s = .next t →
    t.status = .faulted r →
    faultFrame s t ∧ r.line = s.fetchedLine ∧
    ((∃ b, t.byteAt b ≠ s.byteAt b) →
      i.mnemonic ∈ [Mnemonic.stur, .sturw, .sturh, .sturb, .stxr] ∧ r.kind = .segment ∧ s.dc ≠ none) ∧
    (∀ f ∈ storeForms, ∀ rt rn off, i = f.instr rt rn off → r.kind = .segment →
      if s.params.memValid (s.effAddr rn off) f.size .store then
        storesValue (s.effAddr rn off).toNat f.size (s.readReg rt) s t
      else memSame s t) ∧
    (∀ rt rs rn, i = .stxr rt rs rn → r.kind = .segment →
      if s.params.memValid (s.readReg rn) 8 .store then storesValue (s.readReg rn).toNat 8 (s.readReg rt) s t
      else memSame s t) ∧
    (r.kind = .pcAlignment → i.mnemonic = .br) ∧
    (r.kind = .spAlignment → r.addr = s.readReg spIndex ∧
      i.mnemonic ∈ [Mnemonic.ldur, .ldursw, .ldurh, .ldurb, .stur, .sturw, .sturh, .sturb, .ldxr, .stxr]) ∧
    (r.kind = .segment →
      i.mnemonic ∈ [Mnemonic.ldur, .ldursw, .ldurh, .ldurb, .stur, .sturw, .sturh, .sturb, .ldxr, .stxr, .br])

/-! ## Arithmetic, logic, shifts, moves -/

/-- R146, R150, R154, R158, R160: ADD, SUB, AND, ORR, EOR. The wrap is the spec's decision D6; that ORR and EOR
are the bitwise operations is its general knowledge (G6). -/
def Obligations.RegisterAluResults : Prop :=
  ∀ (rd rn rm : RegNum) (s : State),
    ∀ p ∈ [(Instr.add rd rn rm, s.readReg rn + s.readReg rm), (.sub rd rn rm, s.readReg rn - s.readReg rm),
      (.and rd rn rm, s.readReg rn &&& s.readReg rm), (.orr rd rn rm, s.readReg rn ||| s.readReg rm),
      (.eor rd rn rm, s.readReg rn ^^^ s.readReg rm)],
      ∃ t, exec p.1 s = .next t ∧ writesReg rd p.2 s t ∧ t.flags = s.flags

/-- R147, R151, R155, R159, R161, R143: ADDI, SUBI, ANDI, ORRI, EORI; the immediate is zero-extended. The
unsigned 12-bit immediate is the spec's decision D5; the immediate forms are its general knowledge (G6). -/
def Obligations.ImmediateAluResults : Prop :=
  ∀ (rd rn : RegNum) (imm : BitVec 12) (s : State),
    ∀ p ∈ [(Instr.addi rd rn imm, s.readReg rn + BitVec.ofNat 64 imm.toNat),
      (.subi rd rn imm, s.readReg rn - BitVec.ofNat 64 imm.toNat),
      (.andi rd rn imm, s.readReg rn &&& BitVec.ofNat 64 imm.toNat),
      (.orri rd rn imm, s.readReg rn ||| BitVec.ofNat 64 imm.toNat),
      (.eori rd rn imm, s.readReg rn ^^^ BitVec.ofNat 64 imm.toNat)],
      ∃ t, exec p.1 s = .next t ∧ writesReg rd p.2 s t ∧ t.flags = s.flags

/-- R148, R149, R144: ADDS and ADDIS write the sum and all four flags: N its sign, Z whether it is 0, C the
carry out of bit 63, V the signed overflow. The carry and the overflow are the spec's derived reading of its
formulas; the flags with destination 31 are its decision D8. -/
def Obligations.AddsWritesSumCarryOverflow : Prop :=
  ∀ (rd rn rm : RegNum) (imm : BitVec 12) (s : State),
    ∀ p ∈ [(Instr.adds rd rn rm, s.readReg rm), (.addis rd rn imm, BitVec.ofNat 64 imm.toNat)],
      ∃ t, exec p.1 s = .next t ∧ writesReg rd (s.readReg rn + p.2) s t ∧
        t.flags.n = decide ((s.readReg rn + p.2).toInt < 0) ∧
        t.flags.z = decide (s.readReg rn + p.2 = 0) ∧
        t.flags.c = decide (2 ^ 64 ≤ (s.readReg rn).toNat + p.2.toNat) ∧
        t.flags.v = decide ((s.readReg rn + p.2).toInt ≠ (s.readReg rn).toInt + p.2.toInt)

/-- R152, R153, R145: SUBS and SUBIS write the difference and all four flags, in each of the three modes. In
`inverted` C is "no borrow" and V the signed overflow of the subtraction; `negated` differs from it only when
the second operand is 0 (C) or `SIGN` (V); in `literal` C is the majority of the three top bits and V says that
the operands have one sign and the difference the other. The modes are the spec's decision D7; the meanings of
`inverted` (general knowledge, G12) and of the other two are what it derives; the flags with destination 31 are
its decision D8. -/
def Obligations.SubsWritesDifferenceAndModeFlags : Prop :=
  ∀ (rd rn rm : RegNum) (imm : BitVec 12) (s : State),
    ∀ p ∈ [(Instr.subs rd rn rm, s.readReg rm), (.subis rd rn imm, BitVec.ofNat 64 imm.toNat)],
      ∃ t, exec p.1 s = .next t ∧ writesReg rd (s.readReg rn - p.2) s t ∧
        t.flags.n = decide ((s.readReg rn - p.2).toInt < 0) ∧
        t.flags.z = decide (s.readReg rn - p.2 = 0) ∧
        (s.params.subsFlagMode = .inverted →
          t.flags.c = decide (p.2.toNat ≤ (s.readReg rn).toNat) ∧
          t.flags.v = decide ((s.readReg rn - p.2).toInt ≠ (s.readReg rn).toInt - p.2.toInt)) ∧
        (s.params.subsFlagMode = .negated →
          t.flags.c = (decide (p.2 ≠ 0) && decide (p.2.toNat ≤ (s.readReg rn).toNat)) ∧
          t.flags.v = (if p.2 = signBit then (s.readReg rn).msb
            else decide ((s.readReg rn - p.2).toInt ≠ (s.readReg rn).toInt - p.2.toInt))) ∧
        (s.params.subsFlagMode = .literal →
          t.flags.c = (((s.readReg rn).msb && p.2.msb) ||
            (((s.readReg rn).msb || p.2.msb) && !(s.readReg rn - p.2).msb)) ∧
          t.flags.v = ((s.readReg rn).msb == p.2.msb && (s.readReg rn).msb != (s.readReg rn - p.2).msb))

/-- R142, R156, R157, R162: ANDS and ANDIS write the AND to `rd`, N and Z from it, C and V false; with destination
31 the flags alone. The flags with destination 31 are the spec's decision D8 (log 5). -/
def Obligations.AndsWritesResultAndClears : Prop :=
  ∀ (rd rn rm : RegNum) (imm : BitVec 12) (s : State),
    ∀ p ∈ [(Instr.ands rd rn rm, s.readReg rm), (.andis rd rn imm, BitVec.ofNat 64 imm.toNat)],
      ∃ t, exec p.1 s = .next t ∧ writesReg rd (s.readReg rn &&& p.2) s t ∧
        t.flags = { n := (s.readReg rn &&& p.2).msb, z := decide (s.readReg rn &&& p.2 = 0), c := false, v := false }

/-- R171, R172: LSL multiplies by a power of two modulo 2^64, LSR divides by it: zero fill whatever the sign.
The shifts are the spec's decision D10 and general knowledge (G7). -/
def Obligations.ShiftResults : Prop :=
  ∀ (rd rn : RegNum) (shamt : BitVec 6) (s : State),
    (∃ t, exec (.lsl rd rn shamt) s = .next t ∧
      writesReg rd (BitVec.ofNat 64 ((s.readReg rn).toNat * 2 ^ shamt.toNat)) s t ∧ t.flags = s.flags) ∧
    (∃ t, exec (.lsr rd rn shamt) s = .next t ∧
      writesReg rd (BitVec.ofNat 64 ((s.readReg rn).toNat / 2 ^ shamt.toNat)) s t ∧ t.flags = s.flags)

/-- R201, R202: MOVZ and MOVK, quarter by quarter: the quarter that `hw` names gets the immediate, the other
three are 0 (MOVZ) or kept (MOVK). The two moves are the spec's general knowledge (G8). -/
def Obligations.WideMoveResults : Prop :=
  ∀ (rd : RegNum) (imm16 : BitVec 16) (hw : BitVec 2) (s : State),
    (∃ t v, exec (.movz rd imm16 hw) s = .next t ∧ writesReg rd v s t ∧ t.flags = s.flags ∧
      ∀ q : BitVec 2, v.extractLsb' (16 * q.toNat) 16 = if q = hw then imm16 else 0) ∧
    (∃ t v, exec (.movk rd imm16 hw) s = .next t ∧ writesReg rd v s t ∧ t.flags = s.flags ∧
      ∀ q : BitVec 2, v.extractLsb' (16 * q.toNat) 16 =
        if q = hw then imm16 else (s.readReg rd).extractLsb' (16 * q.toNat) 16)

/-! ## Loads and stores -/

/-- R60: `MemRead` of 1, 2, 4 or 8 bytes raises `SegmentFault(a)` when the address is not valid, and otherwise
gives the value formed from the bytes at `a`, `a+1`, ... in the byte order; it changes nothing but the record of
the port's transactions. -/
def Obligations.MemoryReadPrimitive : Prop :=
  ∀ (a : Word) (n : Nat) (s : State), n ∈ [1, 2, 4, 8] →
    (s.params.memValid a n .load = false →
      ∃ u, memRead a n s = .raised { kind := .segment, addr := a } u ∧ u = { s with port := u.port }) ∧
    (s.params.memValid a n .load = true →
      ∃ v u, memRead a n s = .done v u ∧ loadsValue s a.toNat n false v ∧ u = { s with port := u.port })

/-- R177: a load whose destination is register 31 does nothing, whatever its base and address. The reading is
the spec's decision D14. -/
def Obligations.LoadToRegister31DoesNothing : Prop :=
  ∀ f ∈ loadForms, ∀ (rn : RegNum) (off : BitVec 9) (s : State), exec (f.instr 31 rn off) s = .next s

/-- R178, R180 to R183, R64: a load to another register, with the base not a misaligned stack pointer, the
data-cache check going through and the address valid, reads the bytes at `x[rn] + off`, extends them, writes
`rt`, and changes nothing else but the data cache and the port. The data cache is checked once: a hit is counted
and changes no entry, a miss is counted and refills exactly the span from memory (R90, R92, R95). The sizes and extensions are the spec's
decision D11, the address D12, the byte order D17; `port` is the model's own field (log 7). -/
def Obligations.LoadCompletes : Prop :=
  ∀ f ∈ loadForms, ∀ (rt rn : RegNum) (off : BitVec 9) (s : State), rt ≠ zr → baseOk rn s →
    probeOk .dc (s.readReg rn + off.signExtend 64) f.size s →
    s.params.memValid (s.readReg rn + off.signExtend 64) f.size .load = true →
    ∃ t, exec (f.instr rt rn off) s = .next t ∧
      loadsValue s (s.readReg rn + off.signExtend 64).toNat f.size f.signed (t.readReg rt) ∧
      regsSameBut [rt] s t ∧ memSame s t ∧ t.xtag = s.xtag ∧ t.stxrOk = s.stxrOk ∧ t.status = s.status ∧
      dataFrame s t ∧ dataChecked (s.readReg rn + off.signExtend 64) f.size s t ∧
      (s.dc = none → t.port = s.port ++ [.read (s.readReg rn + off.signExtend 64) f.size])

/-- R179, R184 to R187, R195: a store with the base not a misaligned stack pointer, the address valid and the
data-cache check going through writes the low bytes of `x[rt]` at `x[rn] + off` and no other byte, writes no
register, and clears the tag exactly when the stored bytes overlap the tagged doubleword. The data cache is checked
once: a hit is counted and leaves its blocks stale, a miss refills exactly the span from the memory just written
(R93, R94, R97). The sizes are the
spec's decision D11, the address D12, the tag D16, the byte order D17, the one write D19; `port` is the model's
own field (log 7). -/
def Obligations.StoreCompletes : Prop :=
  ∀ f ∈ storeForms, ∀ (rt rn : RegNum) (off : BitVec 9) (s : State), baseOk rn s →
    s.params.memValid (s.readReg rn + off.signExtend 64) f.size .store = true →
    probeOk .dc (s.readReg rn + off.signExtend 64) f.size s →
    ∃ t, exec (f.instr rt rn off) s = .next t ∧
      storesValue (s.readReg rn + off.signExtend 64).toNat f.size (s.readReg rt) s t ∧
      regsSameBut [] s t ∧ t.stxrOk = s.stxrOk ∧ t.status = s.status ∧ dataFrame s t ∧
      t.xtag = (match s.xtag with
        | none => none
        | some tag => if overlap (s.readReg rn + off.signExtend 64) f.size tag then none else some tag) ∧
      dataChecked (s.readReg rn + off.signExtend 64) f.size s t ∧
      (s.dc = none → t.port = s.port ++
        [.write (s.readReg rn + off.signExtend 64) f.size (lowBytes f.size (s.readReg rt))])

/-- R176: every memory instruction whose base is SP faults when `x[SP]` is not a multiple of 16, before anything
else, whatever the offset; the loads and LDXR when their destination is not 31 (R177, R196). Which instructions
check, and when, is the spec's decision D13 on the conflict C5; that a fault is a next state with a status is
the model's choice (log 1). -/
def Obligations.MisalignedStackPointerFaults : Prop :=
  ∀ (s : State) (rt rs : RegNum) (off : BitVec 9), (s.readReg spIndex).toNat % 16 ≠ 0 →
    (∀ f ∈ loadForms, rt ≠ zr → exec (f.instr rt spIndex off) s =
      .next { s with status := s.record .spAlignment (s.readReg spIndex) }) ∧
    (∀ f ∈ storeForms, exec (f.instr rt spIndex off) s =
      .next { s with status := s.record .spAlignment (s.readReg spIndex) }) ∧
    (rt ≠ zr → exec (.ldxr rt spIndex off) s =
      .next { s with status := s.record .spAlignment (s.readReg spIndex) }) ∧
    exec (.stxr rt rs spIndex) s = .next { s with status := s.record .spAlignment (s.readReg spIndex) }

/-- R60, R178, R247: a load or LDXR (destination not 31) from an address that is not valid reports
`SegmentFault(ea)` after its data-cache check, which counts and refills as that of a load that completes; the
destination and memory are unchanged. Which addresses are
valid is a parameter (D18, log 6); what a fault leaves is the spec's decision D31 (log 1). -/
def Obligations.InvalidLoadFaults : Prop :=
  ∀ (s : State) (rt rn : RegNum) (off : BitVec 9) (i : Instr) (n : Nat), rt ≠ zr → baseOk rn s →
    (i = .ldxr rt rn off ∧ n = 8 ∨ ∃ f ∈ loadForms, i = f.instr rt rn off ∧ n = f.size) →
    probeOk .dc (s.readReg rn + off.signExtend 64) n s →
    s.params.memValid (s.readReg rn + off.signExtend 64) n .load = false →
    ∃ t, exec i s = .next t ∧ t.status = s.record .segment (s.readReg rn + off.signExtend 64) ∧
      faultFrame s t ∧ memSame s t ∧ dataChecked (s.readReg rn + off.signExtend 64) n s t

/-- R61, R179, R247: a store, or an STXR that would succeed, to an address that is not valid reports
`SegmentFault(ea)`; memory, the data cache, the tag and the registers are unchanged: only the status and the
port differ. Which addresses are valid is a parameter (D18, log 6); what a fault leaves is the spec's decision
D31 (log 1), and D15 for STXR. -/
def Obligations.InvalidStoreFaults : Prop :=
  ∀ (s : State) (rt rs rn : RegNum) (off : BitVec 9), baseOk rn s →
    (∀ f ∈ storeForms, s.params.memValid (s.readReg rn + off.signExtend 64) f.size .store = false →
      ∃ t, exec (f.instr rt rn off) s = .next t ∧
        t.status = s.record .segment (s.readReg rn + off.signExtend 64) ∧
        t = { s with status := t.status, port := t.port }) ∧
    (s.xtag = some (s.readReg rn) → s.params.memValid (s.readReg rn) 8 .store = false →
      ∃ t, exec (.stxr rt rs rn) s = .next t ∧ t.status = s.record .segment (s.readReg rn) ∧
        t = { s with status := t.status, port := t.port })

/-- R92, R98, R178, R247: a load or LDXR whose data-cache refill meets a block that may not be read reports
`SegmentFault` of that block's base; the miss is counted, the entries of the span before that block's are refilled
and no other, and nothing else has changed but the port. The address reported is the spec's decision D39; what a fault leaves is D31 (log 1). -/
def Obligations.LoadRefillFaults : Prop :=
  ∀ (s : State) (rt rn : RegNum) (off : BitVec 9) (i : Instr) (n : Nat) (base : Word), rt ≠ zr → baseOk rn s →
    (i = .ldxr rt rn off ∧ n = 8 ∨ ∃ f ∈ loadForms, i = f.instr rt rn off ∧ n = f.size) →
    probeFaultsAt .dc (s.readReg rn + off.signExtend 64) n s base →
    ∃ t, exec i s = .next t ∧ t.status = s.record .segment base ∧ faultFrame s t ∧ memSame s t ∧
      refillStopped .dc (s.readReg rn + off.signExtend 64) n s t

/-- R179, R197, R247: a store, or an STXR that would succeed, whose refill after the write faults: memory has
been written, the miss is counted, the entries of the span before the one that faults are refilled from the memory
just written and no other (R92), and the tag, the registers and the latches have not changed. The address reported is the spec's
decision D39; what a fault leaves is D31 (log 1), and D15 for STXR. -/
def Obligations.StoreRefillFaults : Prop :=
  ∀ (s : State) (rt rs rn : RegNum) (off : BitVec 9) (base : Word), baseOk rn s →
    (∀ f ∈ storeForms, s.params.memValid (s.readReg rn + off.signExtend 64) f.size .store = true →
      probeFaultsAt .dc (s.readReg rn + off.signExtend 64) f.size s base →
      ∃ t, exec (f.instr rt rn off) s = .next t ∧ t.status = s.record .segment base ∧ faultFrame s t ∧
        storesValue (s.readReg rn + off.signExtend 64).toNat f.size (s.readReg rt) s t ∧
        refillStopped .dc (s.readReg rn + off.signExtend 64) f.size s t) ∧
    (s.xtag = some (s.readReg rn) → s.params.memValid (s.readReg rn) 8 .store = true →
      probeFaultsAt .dc (s.readReg rn) 8 s base →
      ∃ t, exec (.stxr rt rs rn) s = .next t ∧ t.status = s.record .segment base ∧ faultFrame s t ∧
        storesValue (s.readReg rn).toNat 8 (s.readReg rt) s t ∧ refillStopped .dc (s.readReg rn) 8 s t)

/-- R102 (c), R280 (c): after a store that did not fault, a load of the same size whose effective address is the
store's, run without a fault in any later state whose memory and straps are those the store left, returns the
stored bytes, zero- or sign-extended, whatever its base, its offset and the data cache; a succeeding STXR is a
store and LDXR a load of a doubleword. It is a consequence that the spec draws; the extensions are its decision
D11. -/
def Obligations.LoadAfterStoreReturnsStored : Prop :=
  ∀ (s t u v : State) (a : Word) (rt rs rn rd rn' : RegNum) (off off' : BitVec 9), rd ≠ zr →
    t.status = .continuing → memSame t u → u.params = t.params → u.effAddr rn' off' = a → v.status = .continuing →
    ((exec (.stur rt rn off) s = .next t ∧ s.effAddr rn off = a ∨
        exec (.stxr rt rs rn) s = .next t ∧ t.stxrOk = true ∧ s.readReg rn = a) →
      exec (.ldur rd rn' off') u = .next v ∨ exec (.ldxr rd rn' off') u = .next v → v.readReg rd = s.readReg rt) ∧
    (exec (.sturw rt rn off) s = .next t → s.effAddr rn off = a → exec (.ldursw rd rn' off') u = .next v →
      v.readReg rd = ((s.readReg rt).setWidth 32).signExtend 64) ∧
    (exec (.sturh rt rn off) s = .next t → s.effAddr rn off = a → exec (.ldurh rd rn' off') u = .next v →
      v.readReg rd = ((s.readReg rt).setWidth 16).setWidth 64) ∧
    (exec (.sturb rt rn off) s = .next t → s.effAddr rn off = a → exec (.ldurb rd rn' off') u = .next v →
      v.readReg rd = ((s.readReg rt).setWidth 8).setWidth 64)

/-! ## Exclusives -/

/-- R196: LDXR with a destination other than 31 loads the doubleword and records its address, replacing any
earlier tag; its data-cache check is a load's. The order of the tag write is the spec's decision D15, the byte order D17; `port` is the model's
own field (log 7). -/
def Obligations.LoadExclusiveCompletes : Prop :=
  ∀ (rt rn : RegNum) (off : BitVec 9) (s : State), rt ≠ zr → baseOk rn s →
    probeOk .dc (s.readReg rn + off.signExtend 64) 8 s →
    s.params.memValid (s.readReg rn + off.signExtend 64) 8 .load = true →
    ∃ t, exec (.ldxr rt rn off) s = .next t ∧
      loadsValue s (s.readReg rn + off.signExtend 64).toNat 8 false (t.readReg rt) ∧
      t.xtag = some (s.readReg rn + off.signExtend 64) ∧
      regsSameBut [rt] s t ∧ memSame s t ∧ t.stxrOk = s.stxrOk ∧ t.status = s.status ∧
      dataFrame s t ∧ dataChecked (s.readReg rn + off.signExtend 64) 8 s t ∧
      (s.dc = none → t.port = s.port ++ [.read (s.readReg rn + off.signExtend 64) 8])

/-- R197: STXR with the tag equal to its address writes the doubleword, 0 to the outcome register, clears the
tag and records the success; with outcome register 31 the outcome write alone is dropped; its data-cache check is a
store's. The details are the
spec's decision D15, the byte order D17; `port` is the model's own field (log 7). -/
def Obligations.StoreExclusiveSucceeds : Prop :=
  ∀ (rt rs rn : RegNum) (s : State), baseOk rn s → s.xtag = some (s.readReg rn) →
    s.params.memValid (s.readReg rn) 8 .store = true → probeOk .dc (s.readReg rn) 8 s →
    ∃ t, exec (.stxr rt rs rn) s = .next t ∧ storesValue (s.readReg rn).toNat 8 (s.readReg rt) s t ∧
      (rs ≠ zr → t.readReg rs = 0) ∧ (rs = zr → t.readReg rs = s.readReg rs) ∧ regsSameBut [rs] s t ∧
      t.xtag = none ∧ t.stxrOk = true ∧ t.status = s.status ∧ dataFrame s t ∧ dataChecked (s.readReg rn) 8 s t ∧
      (s.dc = none → t.port = s.port ++ [.write (s.readReg rn) 8 (s.readReg rt)])

/-- R197: STXR with any other tag, or none, writes 1 to the outcome register and records the failure; the tag,
memory, the data cache and the port are untouched. The details are the spec's decision D15. -/
def Obligations.StoreExclusiveFails : Prop :=
  ∀ (rt rs rn : RegNum) (s : State), baseOk rn s → s.xtag ≠ some (s.readReg rn) →
    ∃ t, exec (.stxr rt rs rn) s = .next t ∧ (rs ≠ zr → t.readReg rs = 1) ∧
      (rs = zr → t.readReg rs = s.readReg rs) ∧ regsSameBut [rs] s t ∧ memSame s t ∧ t.xtag = s.xtag ∧
      t.stxrOk = false ∧ t.status = s.status ∧ t.dc = s.dc ∧ t.port = s.port ∧ dataFrame s t

/-- R199: of two STXR in a row of which the first succeeds, the second fails, whatever its address: with the same
base register, or another that passes the stack-pointer check. It writes 1 to its outcome register, unless that
is register 31, and leaves memory and the cleared tag. It is a consequence that the spec draws; the details are
its decision D15. -/
def Obligations.SecondStoreExclusiveFails : Prop :=
  ∀ (rt rs rn rt' rs' rn' : RegNum) (s t u : State),
    exec (.stxr rt rs rn) s = .next t → t.stxrOk = true → t.status = .continuing →
    rn' = rn ∨ baseOk rn' t → exec (.stxr rt' rs' rn') t = .next u →
    (rs' ≠ zr → u.readReg rs' = 1) ∧ regsSameBut (if rs' = zr then [] else [rs']) t u ∧ u.stxrOk = false ∧
    u.xtag = none ∧ memSame t u ∧ u.status = .continuing

/-! ## Branches -/

/-- R206, R207, R205: CBZ and CBNZ test all 64 bits; taken, the index is the target and `taken` is set; not
taken, nothing changes. Which value branches is the spec's general knowledge (G9), the range of the target its
decision D28. -/
def Obligations.CompareBranchResults : Prop :=
  ∀ (rt : RegNum) (target : Nat) (s : State), target ≤ s.plen →
    ∀ p ∈ [(Instr.cbz rt target, decide ((s.readReg rt).toNat = 0)), (.cbnz rt target, decide ((s.readReg rt).toNat ≠ 0))],
      ∃ t, exec p.1 s = .next t ∧ t.idx = (if p.2 then target else s.idx) ∧
        t.taken = (if p.2 then true else s.taken) ∧ branchFrame [] s t

/-- R210 to R226: each condition-code branch, on each of the sixteen flag states, branches exactly where its
column of the truth table says 1. The columns are those of R226, which the spec derives from R210; the range of
the target is its decision D28 (log 5). -/
def Obligations.CondBranchTruthTable : Prop :=
  ∀ p ∈ condForms, ∀ (target : Nat) (s : State), target ≤ s.plen →
    ∃ t, exec (p.1 target) s = .next t ∧ t.idx = (if p.2.getLsbD s.flags.row then target else s.idx) ∧
      t.taken = (if p.2.getLsbD s.flags.row then true else s.taken) ∧ branchFrame [] s t

/-- R231, R232: B branches; BL also writes the address of the instruction after it, `TEXT_BASE + 4*idx` with the
advanced index, to the link register (modulo 2^64 for straps that break R38's constraint, the model's choice,
log 21). The link value is the spec's decision D26 on the conflict C1, the number
of the link register D1. -/
def Obligations.BranchAndLinkResults : Prop :=
  ∀ (target : Nat) (s : State), target ≤ s.plen →
    (∃ t, exec (.b target) s = .next t ∧ t.idx = target ∧ t.taken = true ∧ branchFrame [] s t) ∧
    (∃ t, exec (.bl target) s = .next t ∧ t.idx = target ∧ t.taken = true ∧
      t.readReg lrIndex = BitVec.ofNat 64 (s.params.textBase.toNat + 4 * s.idx) ∧ branchFrame [lrIndex] s t)

/-- R233: BR to the address of an instruction index from 0 to `PLEN` branches to that index. The extent of the
text segment is the spec's decision D27, the bound of the straps D25. -/
def Obligations.BranchRegisterResults : Prop :=
  ∀ (rn : RegNum) (k : Nat) (s : State), s.StrapsOk → k ≤ s.plen →
    s.readReg rn = s.params.textBase + BitVec.ofNat 64 (4 * k) →
    ∃ t, exec (.br rn) s = .next t ∧ t.idx = k ∧ t.taken = true ∧ branchFrame [] s t

/-- R233: BR to an address that is not a multiple of 4 reports `PCAlignmentFault`, in range or not; to one that
is and lies outside the text segment, `SegmentFault`; only the status changes. The order of the checks and the
extent of the text segment are the spec's decision D27; that a fault is a next state with a status, and that the
segment's end does not wrap for straps that break R38's constraint, are the model's choices (log 1, log 21). -/
def Obligations.BranchRegisterFaults : Prop :=
  ∀ (rn : RegNum) (s : State),
    ((s.readReg rn).toNat % 4 ≠ 0 →
      exec (.br rn) s = .next { s with status := s.record .pcAlignment (s.readReg rn) }) ∧
    ((s.readReg rn).toNat % 4 = 0 →
      ((s.readReg rn).toNat < s.params.textBase.toNat ∨
        s.params.textBase.toNat + 4 * s.plen < (s.readReg rn).toNat) →
      exec (.br rn) s = .next { s with status := s.record .segment (s.readReg rn) })

/-- R230, R232, R233: after a BL, `BR LR` in any state with that link register, program and straps returns to
the instruction after the BL. It is a consequence of the spec's decisions D26 and D27. -/
def Obligations.BranchRegisterReturnsFromCall : Prop :=
  ∀ (target : Int) (s t u : State), s.StrapsOk → s.idx ≤ s.plen → exec (.bl target) s = .next t →
    u.readReg lrIndex = t.readReg lrIndex → u.prog = t.prog → u.params = t.params →
    ∃ v, exec (.br lrIndex) u = .next v ∧ v.idx = s.idx ∧ v.taken = true ∧ branchFrame [] u v

/-- R113 `WF_TARGET` and `WF_LDXR_RT`, R196, D28: a branch whose target lies outside `0..PLEN` is refused,
whether or not it would branch, and so is LDXR with destination 31; by name. The refusals are the spec's
decisions D28 and D14; that the target check is made at execution is the model's choice (log 17). -/
def Obligations.IllFormedInstructionsRefused : Prop :=
  (∀ (i : Instr) (target : Int) (s : State), i.target? = some target → target < 0 ∨ (s.plen : Int) < target →
    exec i s = .refused (.illFormed .target)) ∧
  ∀ (rn : RegNum) (off : BitVec 9) (s : State), exec (.ldxr 31 rn off) s = .refused (.illFormed .ldxrRt)

/-! ## Address decomposer and cache controller -/

/-- R84, R85: the index is below the number of entries, and the three fields put back together are the
address. -/
def Obligations.AddressFieldsRecombine : Prop :=
  ∀ (c : Cache) (a : Word), c.ib + c.bsb ≤ 62 →
    c.index a < c.numEntries ∧ c.tag a < 2 ^ c.tagBits ∧
    a = (BitVec.ofNat 64 (c.tag a) <<< (c.ib + c.bsb)) ||| (BitVec.ofNat 64 (c.index a) <<< c.bsb) |||
      BitVec.ofNat 64 (c.offset a)

/-- R86: a block base is the tag shifted left by `ib + bsb` with the index put in at `bsb`, as a number
`t * size + i * B`; it is a multiple of `B` and lies in its tag's region of `size` bytes. -/
def Obligations.BlockBaseInTagRegion : Prop :=
  ∀ (c : Cache) (t i : Nat), c.ib + c.bsb ≤ 62 → t < 2 ^ c.tagBits → i < c.numEntries →
    c.blockBase t i = (BitVec.ofNat 64 t <<< (c.ib + c.bsb)) ||| (BitVec.ofNat 64 i <<< c.bsb) ∧
    (c.blockBase t i).toNat = t * c.size + i * c.blockSize ∧
    (c.blockBase t i).toNat % c.blockSize = 0 ∧ t * c.size ≤ (c.blockBase t i).toNat ∧
    (c.blockBase t i).toNat < (t + 1) * c.size

/-- R88 (a), (b): for a range that does not wrap, the span's length is the number of blocks the range touches,
and its elements are consecutive block numbers modulo `E`. It is a consequence that the spec draws. -/
def Obligations.SpanListsTouchedBlocks : Prop :=
  ∀ (c : Cache) (a : Word) (n : Nat), c.ib + c.bsb ≤ 62 → 1 ≤ n → a.toNat + n ≤ 2 ^ 64 →
    (c.span a n).length = (a.toNat + n - 1) / c.blockSize - a.toNat / c.blockSize + 1 ∧
    ∀ j, j < (c.span a n).length → (c.span a n)[j]? = some ((a.toNat / c.blockSize + j) % c.numEntries)

/-- R89, R90, R92, R95, R102 (d): a check of an access hits exactly when every spanned entry is valid with the tag of
the starting address; one counter moves by one; after a check that went through every spanned entry is valid
with that tag, and on a miss holds the bytes of its own block, ascending; entries outside the span are unchanged.
The order of a block's bytes is the spec's decision D17, the one tag of an access that crosses a tag region D35
(log 5). -/
def Obligations.CacheCheckOutcome : Prop :=
  ∀ (pos : CachePos) (a : Word) (n : Nat) (s t : State) (c : Cache) (hit : Bool), s.cacheAt pos = some c → c.Wf →
    cacheProbe pos a n s = .done hit t →
    ∃ c', t.cacheAt pos = some c' ∧ countsOnce c c' hit ∧
      (hit = true ↔ ∀ i ∈ c.span a n, ∃ e, c.entries[i]? = some e ∧ e.valid = true ∧ e.tag = c.tag a) ∧
      (∀ i ∈ c.span a n, ∃ e, c'.entries[i]? = some e ∧ e.valid = true ∧ e.tag = c.tag a ∧
        (hit = false → e.block = (List.range c.blockSize).map fun p =>
          s.byteAt ((c.blockBase (c.tag a) i).toNat + p))) ∧
      ∀ i, i ∉ c.span a n → c'.entries[i]? = c.entries[i]?

/-- R100: the caches never supply data. Two states that differ only in their caches, the status and the port,
stepped without a fault, agree again on every register, flag, latch, the index, the tag, memory, the program
and the straps. -/
def Obligations.CachesNeverAffectResults : Prop :=
  ∀ s t s' t' : State, t = { s with ic := t.ic, dc := t.dc, status := t.status, port := t.port } →
    step s = .next s' → step t = .next t' →
    (∀ r, s'.status ≠ .faulted r) → (∀ r, t'.status ≠ .faulted r) →
    t' = { s' with ic := t'.ic, dc := t'.dc, status := t'.status, port := t'.port }

/-- R244: a load or LDXR that faults without a data cache also faults with any data cache. It is a consequence that
the spec draws. -/
def Obligations.DataCacheNeverHidesLoadFault : Prop :=
  ∀ (i : Instr) (rt rn : RegNum) (off : BitVec 9) (s t u : State) (r : FaultRecord),
    (i = .ldxr rt rn off ∨ ∃ f ∈ loadForms, i = f.instr rt rn off) → s.status = .continuing →
    exec i { s with dc := none } = .next t → t.status = .faulted r →
    exec i s = .next u → ∃ q, u.status = .faulted q

/-! ## The host -/

/-- D33, R42, R65: a write to memory by the host between commands stores its bytes and nothing else: no tag is
cleared, no cache touched. It is the spec's decision D33; that it stands beside the step is the model's choice
(log 13). -/
def Obligations.HostWriteTouchesMemoryOnly : Prop :=
  ∀ (s : State) (a : Nat) (bs : List Byte),
    (∀ p, p < bs.length → (s.hostWrite a bs).byteAt (a + p) = bs.getD p 0) ∧
    memSameOutside a bs.length s (s.hostWrite a bs) ∧
    s.hostWrite a bs = { s with mem := (s.hostWrite a bs).mem }
end

