-- ==== Sys2Proof/Laws/State.lean ====
section
/-! SUPPORT. One lemma per field per update of the state: what each named update leaves alone and what it sets,
so that no later proof unfolds a record update. -/

namespace Sys2Proof.Machine

open Sys2Proof

/-! ### writeReg -/

@[simp] theorem State.writeReg_idx (s : State) (i : RegNum) (v : Word) : (s.writeReg i v).idx = s.idx := by unfold State.writeReg; split <;> rfl
@[simp] theorem State.writeReg_flags (s : State) (i : RegNum) (v : Word) : (s.writeReg i v).flags = s.flags := by unfold State.writeReg; split <;> rfl
@[simp] theorem State.writeReg_xtag (s : State) (i : RegNum) (v : Word) : (s.writeReg i v).xtag = s.xtag := by unfold State.writeReg; split <;> rfl
@[simp] theorem State.writeReg_taken (s : State) (i : RegNum) (v : Word) : (s.writeReg i v).taken = s.taken := by unfold State.writeReg; split <;> rfl
@[simp] theorem State.writeReg_stxrOk (s : State) (i : RegNum) (v : Word) : (s.writeReg i v).stxrOk = s.stxrOk := by unfold State.writeReg; split <;> rfl
@[simp] theorem State.writeReg_ic (s : State) (i : RegNum) (v : Word) : (s.writeReg i v).ic = s.ic := by unfold State.writeReg; split <;> rfl
@[simp] theorem State.writeReg_dc (s : State) (i : RegNum) (v : Word) : (s.writeReg i v).dc = s.dc := by unfold State.writeReg; split <;> rfl
@[simp] theorem State.writeReg_prog (s : State) (i : RegNum) (v : Word) : (s.writeReg i v).prog = s.prog := by unfold State.writeReg; split <;> rfl
@[simp] theorem State.writeReg_mem (s : State) (i : RegNum) (v : Word) : (s.writeReg i v).mem = s.mem := by unfold State.writeReg; split <;> rfl
@[simp] theorem State.writeReg_params (s : State) (i : RegNum) (v : Word) : (s.writeReg i v).params = s.params := by unfold State.writeReg; split <;> rfl
@[simp] theorem State.writeReg_status (s : State) (i : RegNum) (v : Word) : (s.writeReg i v).status = s.status := by unfold State.writeReg; split <;> rfl
@[simp] theorem State.writeReg_port (s : State) (i : RegNum) (v : Word) : (s.writeReg i v).port = s.port := by unfold State.writeReg; split <;> rfl

/-! ### setFlags -/

@[simp] theorem State.setFlags_regs (s : State) (f : Flags) : (s.setFlags f).regs = s.regs := rfl
@[simp] theorem State.setFlags_idx (s : State) (f : Flags) : (s.setFlags f).idx = s.idx := rfl
@[simp] theorem State.setFlags_xtag (s : State) (f : Flags) : (s.setFlags f).xtag = s.xtag := rfl
@[simp] theorem State.setFlags_taken (s : State) (f : Flags) : (s.setFlags f).taken = s.taken := rfl
@[simp] theorem State.setFlags_stxrOk (s : State) (f : Flags) : (s.setFlags f).stxrOk = s.stxrOk := rfl
@[simp] theorem State.setFlags_ic (s : State) (f : Flags) : (s.setFlags f).ic = s.ic := rfl
@[simp] theorem State.setFlags_dc (s : State) (f : Flags) : (s.setFlags f).dc = s.dc := rfl
@[simp] theorem State.setFlags_prog (s : State) (f : Flags) : (s.setFlags f).prog = s.prog := rfl
@[simp] theorem State.setFlags_mem (s : State) (f : Flags) : (s.setFlags f).mem = s.mem := rfl
@[simp] theorem State.setFlags_params (s : State) (f : Flags) : (s.setFlags f).params = s.params := rfl
@[simp] theorem State.setFlags_status (s : State) (f : Flags) : (s.setFlags f).status = s.status := rfl
@[simp] theorem State.setFlags_port (s : State) (f : Flags) : (s.setFlags f).port = s.port := rfl

/-! ### branch -/

@[simp] theorem State.branch_regs (s : State) (k : Nat) : (s.branch k).regs = s.regs := rfl
@[simp] theorem State.branch_flags (s : State) (k : Nat) : (s.branch k).flags = s.flags := rfl
@[simp] theorem State.branch_xtag (s : State) (k : Nat) : (s.branch k).xtag = s.xtag := rfl
@[simp] theorem State.branch_stxrOk (s : State) (k : Nat) : (s.branch k).stxrOk = s.stxrOk := rfl
@[simp] theorem State.branch_ic (s : State) (k : Nat) : (s.branch k).ic = s.ic := rfl
@[simp] theorem State.branch_dc (s : State) (k : Nat) : (s.branch k).dc = s.dc := rfl
@[simp] theorem State.branch_prog (s : State) (k : Nat) : (s.branch k).prog = s.prog := rfl
@[simp] theorem State.branch_mem (s : State) (k : Nat) : (s.branch k).mem = s.mem := rfl
@[simp] theorem State.branch_params (s : State) (k : Nat) : (s.branch k).params = s.params := rfl
@[simp] theorem State.branch_status (s : State) (k : Nat) : (s.branch k).status = s.status := rfl
@[simp] theorem State.branch_port (s : State) (k : Nat) : (s.branch k).port = s.port := rfl

/-! ### takeFault -/

@[simp] theorem State.takeFault_regs (s : State) (f : Raise) : (s.takeFault f).regs = s.regs := rfl
@[simp] theorem State.takeFault_idx (s : State) (f : Raise) : (s.takeFault f).idx = s.idx := rfl
@[simp] theorem State.takeFault_flags (s : State) (f : Raise) : (s.takeFault f).flags = s.flags := rfl
@[simp] theorem State.takeFault_xtag (s : State) (f : Raise) : (s.takeFault f).xtag = s.xtag := rfl
@[simp] theorem State.takeFault_taken (s : State) (f : Raise) : (s.takeFault f).taken = s.taken := rfl
@[simp] theorem State.takeFault_stxrOk (s : State) (f : Raise) : (s.takeFault f).stxrOk = s.stxrOk := rfl
@[simp] theorem State.takeFault_ic (s : State) (f : Raise) : (s.takeFault f).ic = s.ic := rfl
@[simp] theorem State.takeFault_dc (s : State) (f : Raise) : (s.takeFault f).dc = s.dc := rfl
@[simp] theorem State.takeFault_prog (s : State) (f : Raise) : (s.takeFault f).prog = s.prog := rfl
@[simp] theorem State.takeFault_mem (s : State) (f : Raise) : (s.takeFault f).mem = s.mem := rfl
@[simp] theorem State.takeFault_params (s : State) (f : Raise) : (s.takeFault f).params = s.params := rfl
@[simp] theorem State.takeFault_port (s : State) (f : Raise) : (s.takeFault f).port = s.port := rfl

/-! ### issue -/

@[simp] theorem State.issue_regs (s : State) (ts : List Transaction) : (s.issue ts).regs = s.regs := rfl
@[simp] theorem State.issue_idx (s : State) (ts : List Transaction) : (s.issue ts).idx = s.idx := rfl
@[simp] theorem State.issue_flags (s : State) (ts : List Transaction) : (s.issue ts).flags = s.flags := rfl
@[simp] theorem State.issue_xtag (s : State) (ts : List Transaction) : (s.issue ts).xtag = s.xtag := rfl
@[simp] theorem State.issue_taken (s : State) (ts : List Transaction) : (s.issue ts).taken = s.taken := rfl
@[simp] theorem State.issue_stxrOk (s : State) (ts : List Transaction) : (s.issue ts).stxrOk = s.stxrOk := rfl
@[simp] theorem State.issue_ic (s : State) (ts : List Transaction) : (s.issue ts).ic = s.ic := rfl
@[simp] theorem State.issue_dc (s : State) (ts : List Transaction) : (s.issue ts).dc = s.dc := rfl
@[simp] theorem State.issue_prog (s : State) (ts : List Transaction) : (s.issue ts).prog = s.prog := rfl
@[simp] theorem State.issue_mem (s : State) (ts : List Transaction) : (s.issue ts).mem = s.mem := rfl
@[simp] theorem State.issue_params (s : State) (ts : List Transaction) : (s.issue ts).params = s.params := rfl
@[simp] theorem State.issue_status (s : State) (ts : List Transaction) : (s.issue ts).status = s.status := rfl

/-! ### setCache -/

@[simp] theorem State.setCache_regs (s : State) (pos : CachePos) (c : Cache) : (s.setCache pos c).regs = s.regs := by cases pos <;> rfl
@[simp] theorem State.setCache_idx (s : State) (pos : CachePos) (c : Cache) : (s.setCache pos c).idx = s.idx := by cases pos <;> rfl
@[simp] theorem State.setCache_flags (s : State) (pos : CachePos) (c : Cache) : (s.setCache pos c).flags = s.flags := by cases pos <;> rfl
@[simp] theorem State.setCache_xtag (s : State) (pos : CachePos) (c : Cache) : (s.setCache pos c).xtag = s.xtag := by cases pos <;> rfl
@[simp] theorem State.setCache_taken (s : State) (pos : CachePos) (c : Cache) : (s.setCache pos c).taken = s.taken := by cases pos <;> rfl
@[simp] theorem State.setCache_stxrOk (s : State) (pos : CachePos) (c : Cache) : (s.setCache pos c).stxrOk = s.stxrOk := by cases pos <;> rfl
@[simp] theorem State.setCache_prog (s : State) (pos : CachePos) (c : Cache) : (s.setCache pos c).prog = s.prog := by cases pos <;> rfl
@[simp] theorem State.setCache_mem (s : State) (pos : CachePos) (c : Cache) : (s.setCache pos c).mem = s.mem := by cases pos <;> rfl
@[simp] theorem State.setCache_params (s : State) (pos : CachePos) (c : Cache) : (s.setCache pos c).params = s.params := by cases pos <;> rfl
@[simp] theorem State.setCache_status (s : State) (pos : CachePos) (c : Cache) : (s.setCache pos c).status = s.status := by cases pos <;> rfl
@[simp] theorem State.setCache_port (s : State) (pos : CachePos) (c : Cache) : (s.setCache pos c).port = s.port := by cases pos <;> rfl

/-! ### clearTagOn -/

@[simp] theorem State.clearTagOn_regs (s : State) (ea : Word) (n : Nat) : (s.clearTagOn ea n).regs = s.regs := by unfold State.clearTagOn; split <;> (try split) <;> rfl
@[simp] theorem State.clearTagOn_idx (s : State) (ea : Word) (n : Nat) : (s.clearTagOn ea n).idx = s.idx := by unfold State.clearTagOn; split <;> (try split) <;> rfl
@[simp] theorem State.clearTagOn_flags (s : State) (ea : Word) (n : Nat) : (s.clearTagOn ea n).flags = s.flags := by unfold State.clearTagOn; split <;> (try split) <;> rfl
@[simp] theorem State.clearTagOn_taken (s : State) (ea : Word) (n : Nat) : (s.clearTagOn ea n).taken = s.taken := by unfold State.clearTagOn; split <;> (try split) <;> rfl
@[simp] theorem State.clearTagOn_stxrOk (s : State) (ea : Word) (n : Nat) : (s.clearTagOn ea n).stxrOk = s.stxrOk := by unfold State.clearTagOn; split <;> (try split) <;> rfl
@[simp] theorem State.clearTagOn_ic (s : State) (ea : Word) (n : Nat) : (s.clearTagOn ea n).ic = s.ic := by unfold State.clearTagOn; split <;> (try split) <;> rfl
@[simp] theorem State.clearTagOn_dc (s : State) (ea : Word) (n : Nat) : (s.clearTagOn ea n).dc = s.dc := by unfold State.clearTagOn; split <;> (try split) <;> rfl
@[simp] theorem State.clearTagOn_prog (s : State) (ea : Word) (n : Nat) : (s.clearTagOn ea n).prog = s.prog := by unfold State.clearTagOn; split <;> (try split) <;> rfl
@[simp] theorem State.clearTagOn_mem (s : State) (ea : Word) (n : Nat) : (s.clearTagOn ea n).mem = s.mem := by unfold State.clearTagOn; split <;> (try split) <;> rfl
@[simp] theorem State.clearTagOn_params (s : State) (ea : Word) (n : Nat) : (s.clearTagOn ea n).params = s.params := by unfold State.clearTagOn; split <;> (try split) <;> rfl
@[simp] theorem State.clearTagOn_status (s : State) (ea : Word) (n : Nat) : (s.clearTagOn ea n).status = s.status := by unfold State.clearTagOn; split <;> (try split) <;> rfl
@[simp] theorem State.clearTagOn_port (s : State) (ea : Word) (n : Nat) : (s.clearTagOn ea n).port = s.port := by unfold State.clearTagOn; split <;> (try split) <;> rfl

/-! ### beginStep -/

@[simp] theorem State.beginStep_regs (s : State) : (s.beginStep).regs = s.regs := rfl
@[simp] theorem State.beginStep_flags (s : State) : (s.beginStep).flags = s.flags := rfl
@[simp] theorem State.beginStep_xtag (s : State) : (s.beginStep).xtag = s.xtag := rfl
@[simp] theorem State.beginStep_stxrOk (s : State) : (s.beginStep).stxrOk = s.stxrOk := rfl
@[simp] theorem State.beginStep_ic (s : State) : (s.beginStep).ic = s.ic := rfl
@[simp] theorem State.beginStep_dc (s : State) : (s.beginStep).dc = s.dc := rfl
@[simp] theorem State.beginStep_prog (s : State) : (s.beginStep).prog = s.prog := rfl
@[simp] theorem State.beginStep_mem (s : State) : (s.beginStep).mem = s.mem := rfl
@[simp] theorem State.beginStep_params (s : State) : (s.beginStep).params = s.params := rfl

/-! ### complete -/

@[simp] theorem State.complete_regs (s : State) : (s.complete).regs = s.regs := rfl
@[simp] theorem State.complete_idx (s : State) : (s.complete).idx = s.idx := rfl
@[simp] theorem State.complete_flags (s : State) : (s.complete).flags = s.flags := rfl
@[simp] theorem State.complete_xtag (s : State) : (s.complete).xtag = s.xtag := rfl
@[simp] theorem State.complete_taken (s : State) : (s.complete).taken = s.taken := rfl
@[simp] theorem State.complete_stxrOk (s : State) : (s.complete).stxrOk = s.stxrOk := rfl
@[simp] theorem State.complete_ic (s : State) : (s.complete).ic = s.ic := rfl
@[simp] theorem State.complete_dc (s : State) : (s.complete).dc = s.dc := rfl
@[simp] theorem State.complete_prog (s : State) : (s.complete).prog = s.prog := rfl
@[simp] theorem State.complete_mem (s : State) : (s.complete).mem = s.mem := rfl
@[simp] theorem State.complete_params (s : State) : (s.complete).params = s.params := rfl

/-! ### What the updates set -/

@[simp] theorem State.setFlags_flags (s : State) (f : Flags) : (s.setFlags f).flags = f := rfl
@[simp] theorem State.branch_idx (s : State) (k : Nat) : (s.branch k).idx = k := rfl
@[simp] theorem State.branch_taken (s : State) (k : Nat) : (s.branch k).taken = true := rfl
@[simp] theorem State.takeFault_status (s : State) (f : Raise) : (s.takeFault f).status = s.record f.kind f.addr := rfl
@[simp] theorem State.issue_port (s : State) (ts : List Transaction) : (s.issue ts).port = s.port ++ ts := rfl
@[simp] theorem State.beginStep_idx (s : State) : s.beginStep.idx = s.idx + 1 := rfl
@[simp] theorem State.beginStep_taken (s : State) : s.beginStep.taken = false := rfl
@[simp] theorem State.beginStep_status (s : State) : s.beginStep.status = .continuing := rfl
@[simp] theorem State.beginStep_port (s : State) : s.beginStep.port = [] := rfl
@[simp] theorem State.complete_status (s : State) : s.complete.status = .completed := rfl
@[simp] theorem State.complete_port (s : State) : s.complete.port = [] := rfl

@[simp] theorem State.setCache_cacheAt (s : State) (pos : CachePos) (c : Cache) : (s.setCache pos c).cacheAt pos = some c := by
  cases pos <;> rfl
theorem State.setCache_cacheAt_ne (s : State) {pos q : CachePos} (c : Cache) (h : q ≠ pos) :
    (s.setCache pos c).cacheAt q = s.cacheAt q := by
  cases pos <;> cases q <;> first | rfl | exact absurd rfl h
@[simp] theorem State.setCache_ic_dc (s : State) (c : Cache) : (s.setCache .ic c).dc = s.dc := rfl
@[simp] theorem State.setCache_dc_ic (s : State) (c : Cache) : (s.setCache .dc c).ic = s.ic := rfl
@[simp] theorem State.setCache_ic (s : State) (c : Cache) : (s.setCache .ic c).ic = some c := rfl
@[simp] theorem State.setCache_dc (s : State) (c : Cache) : (s.setCache .dc c).dc = some c := rfl
@[simp] theorem State.cacheAt_ic (s : State) : s.cacheAt .ic = s.ic := rfl
@[simp] theorem State.cacheAt_dc (s : State) : s.cacheAt .dc = s.dc := rfl

/-- The exclusive tag after a store's bytes (R179). -/
theorem State.clearTagOn_xtag (s : State) (ea : Word) (n : Nat) :
    (s.clearTagOn ea n).xtag = (match s.xtag with
      | none => none
      | some tag => if overlap ea n tag then none else some tag) := by
  unfold State.clearTagOn
  cases h : s.xtag with
  | none => simp [h]
  | some t => by_cases ho : overlap ea n t <;> simp [ho, h]

/-! ### Registers -/

/-- Reading a register depends on the register file alone. -/
theorem State.readReg_congr {s t : State} (h : t.regs = s.regs) (i : RegNum) : t.readReg i = s.readReg i := by
  unfold State.readReg; simp [h]

/-- A register written and read back (R32). -/
theorem State.readReg_writeReg_same (s : State) (i : RegNum) (v : Word) (h : i ≠ zr) : (s.writeReg i v).readReg i = v := by
  simp [State.readReg, State.writeReg, h]

/-- A write to one register leaves every other alone (R32). -/
theorem State.readReg_writeReg_ne (s : State) {i j : RegNum} (v : Word) (h : j ≠ i) :
    (s.writeReg i v).readReg j = s.readReg j := by
  unfold State.writeReg State.readReg
  split
  · rfl
  · have : i.toNat ≠ j.toNat := fun e => h (BitVec.eq_of_toNat_eq e.symm)
    simp [this]

/-- A write to register 31 is dropped (R32). -/
@[simp] theorem State.writeReg_zr (s : State) (v : Word) : s.writeReg zr v = s := by simp [State.writeReg]

/-- No write changes register 31 (R32). -/
@[simp] theorem State.readReg_zr_writeReg (s : State) (i : RegNum) (v : Word) :
    (s.writeReg i v).readReg zr = s.readReg zr := by
  by_cases h : i = zr
  · subst h; simp
  · exact s.readReg_writeReg_ne v (fun e => h e.symm)

/-- The byte of memory at an address depends on memory alone. -/
theorem State.byteAt_congr {s t : State} (h : t.mem = s.mem) (a : Nat) : t.byteAt a = s.byteAt a := by
  unfold State.byteAt; rw [h]

/-- `PLEN` depends on the program alone. -/
theorem State.plen_congr {s t : State} (h : t.prog = s.prog) : t.plen = s.plen := by unfold State.plen; rw [h]

/-- What writing a register does, in the terms of the claims. -/
theorem State.writeReg_spec (s : State) (rd : RegNum) (v : Word) : writesReg rd v s (s.writeReg rd v) := by
  refine ⟨s.readReg_writeReg_same rd v, ?_, ?_, ?_, ?_⟩
  · rintro rfl; simp
  · intro r hr; exact s.readReg_writeReg_ne v (by simpa using hr)
  · intro b; exact State.byteAt_congr (by simp) b
  · simp [restSame, fixedSame]

end Sys2Proof.Machine
end

