-- ==== Sys2Proof/Laws/Memory.lean ====
section
/-! SUPPORT. Memory and byte order: a byte written reads back, every other byte is unchanged, every operation
keeps the canonical form; bytes of a value and value of bytes are inverse (R60, R61, R64, R65). -/

namespace Sys2Proof.Machine

open Sys2Proof

/-! ### One byte -/

theorem Memory.read_cons (c : Host.Cell) (m : Memory) (a : Nat) :
    Memory.read (c :: m) a = if c.1 = a then c.2 else Memory.read m a := rfl

theorem Memory.read_erase_same (m : Memory) (a : Nat) : Memory.read (Memory.erase m a) a = unlistedByte := by
  induction m with
  | nil => rfl
  | cons c rest ih =>
    by_cases h : c.1 = a
    · simpa [Memory.erase, h] using ih
    · simp only [Memory.erase, List.filter_cons, bne_iff_ne, ne_eq, h, not_false_eq_true, if_true]
      rw [Memory.read_cons, if_neg h]; exact ih

theorem Memory.read_erase_ne (m : Memory) {a b : Nat} (h : b ≠ a) :
    Memory.read (Memory.erase m a) b = Memory.read m b := by
  induction m with
  | nil => rfl
  | cons c rest ih =>
    by_cases hc : c.1 = a
    · have : c.1 ≠ b := fun e => h (e.symm.trans hc)
      rw [Memory.read_cons, if_neg this]
      simpa [Memory.erase, hc] using ih
    · simp only [Memory.erase, List.filter_cons, bne_iff_ne, ne_eq, hc, not_false_eq_true, if_true]
      rw [Memory.read_cons, Memory.read_cons]; split
      · rfl
      · exact ih

theorem Memory.read_insert (m : Memory) (a : Nat) (b : Byte) (x : Nat) (h : ∀ c ∈ m, c.1 ≠ a) :
    Memory.read (Memory.insert m a b) x = if a = x then b else Memory.read m x := by
  induction m with
  | nil => simp [Memory.insert, Memory.read_cons]
  | cons c rest ih =>
    have hc : c.1 ≠ a := h c (by simp)
    have hr := ih fun d hd => h d (by simp [hd])
    unfold Memory.insert
    split
    · rw [Memory.read_cons]
    · rw [Memory.read_cons, hr, Memory.read_cons]
      by_cases hx : a = x
      · subst hx; simp [hc]
      · simp [hx]

theorem Memory.mem_erase {m : Memory} {a : Nat} {c : Host.Cell} (h : c ∈ Memory.erase m a) : c ∈ m ∧ c.1 ≠ a := by
  simpa [Memory.erase] using h

/-- What a byte write does to every byte (R61, R65). -/
theorem Memory.read_write (m : Memory) (a : Nat) (b : Byte) (x : Nat) :
    Memory.read (Memory.write m a b) x = if a = x then b else Memory.read m x := by
  unfold Memory.write
  split
  · rename_i hb; subst hb
    by_cases hx : a = x
    · subst hx; simp [Memory.read_erase_same]
    · rw [Memory.read_erase_ne m (fun e => hx e.symm), if_neg hx]
  · rw [Memory.read_insert _ _ _ _ fun c hc => (Memory.mem_erase hc).2]
    by_cases hx : a = x
    · simp [hx]
    · rw [if_neg hx, if_neg hx, Memory.read_erase_ne m (fun e => hx e.symm)]

/-! ### The canonical form -/

theorem Memory.erase_wf {m : Memory} (h : Memory.wf m) (a : Nat) : Memory.wf (Memory.erase m a) :=
  ⟨h.1.filter _, fun c hc => h.2 c (Memory.mem_erase hc).1⟩

theorem Memory.mem_insert {m : Memory} {a : Nat} {b : Byte} {c : Host.Cell} (h : c ∈ Memory.insert m a b) :
    c = (a, b) ∨ c ∈ m := by
  induction m with
  | nil => simpa [Memory.insert] using h
  | cons d rest ih =>
    unfold Memory.insert at h
    split at h
    · simpa using h
    · rcases List.mem_cons.1 h with rfl | h'
      · simp
      · rcases ih h' with rfl | h''
        · simp
        · simp [h'']

theorem Memory.insert_wf {m : Memory} (h : Memory.wf m) {a : Nat} (ha : a < 2 ^ 64) {b : Byte} (hb : b ≠ unlistedByte)
    (hn : ∀ c ∈ m, c.1 ≠ a) : Memory.wf (Memory.insert m a b) := by
  refine ⟨?_, fun c hc => ?_⟩
  · have hs := h.1
    clear h
    induction m with
    | nil => simp [Memory.insert]
    | cons d rest ih =>
      have hd := List.pairwise_cons.1 hs
      unfold Memory.insert
      split
      · rename_i hlt
        refine List.pairwise_cons.2 ⟨fun c hc => ?_, hs⟩
        rcases List.mem_cons.1 hc with rfl | hc'
        · exact hlt
        · exact Nat.lt_trans hlt (hd.1 c hc')
      · rename_i hge
        refine List.pairwise_cons.2 ⟨fun c hc => ?_, ih (fun c hc => hn c (by simp [hc])) hd.2⟩
        rcases Memory.mem_insert hc with rfl | hc'
        · have := hn d (by simp)
          show d.1 < a
          omega
        · exact hd.1 c hc'
  · rcases Memory.mem_insert hc with rfl | hc'
    · exact ⟨ha, hb⟩
    · exact h.2 c hc'

/-- A byte write keeps the canonical form. -/
theorem Memory.write_wf {m : Memory} (h : Memory.wf m) {a : Nat} (ha : a < 2 ^ 64) (b : Byte) :
    Memory.wf (Memory.write m a b) := by
  unfold Memory.write
  split
  · exact Memory.erase_wf h a
  · rename_i hb
    exact Memory.insert_wf (Memory.erase_wf h a) ha hb fun c hc => (Memory.mem_erase hc).2

/-! ### Runs of bytes -/

/-- What a run of byte writes does to every byte (R61). -/
theorem Memory.read_writeBytes (m : Memory) (a : Nat) (bs : List Byte) (x : Nat) :
    Memory.read (Memory.writeBytes m a bs) x =
      if a ≤ x ∧ x < a + bs.length then bs.getD (x - a) 0 else Memory.read m x := by
  induction bs generalizing m a with
  | nil =>
    have h : ¬ (a ≤ x ∧ x < a + ([] : List Byte).length) := by simp
    rw [if_neg h]; rfl
  | cons b rest ih =>
    rw [Memory.writeBytes, ih, Memory.read_write]
    simp only [List.length_cons]
    by_cases hx : a = x
    · subst hx; simp
    · by_cases h : a + 1 ≤ x ∧ x < a + 1 + rest.length
      · have h' : a ≤ x ∧ x < a + (rest.length + 1) := by omega
        rw [if_pos h, if_pos h']
        obtain ⟨d, hd⟩ : ∃ d, x - a = d + 1 := ⟨x - a - 1, by omega⟩
        rw [hd, show x - (a + 1) = d by omega]; simp
      · have h' : ¬ (a ≤ x ∧ x < a + (rest.length + 1)) := by omega
        rw [if_neg h, if_neg h', if_neg hx]

/-- A run of byte writes below 2^64 keeps the canonical form. -/
theorem Memory.writeBytes_wf {m : Memory} (h : Memory.wf m) {a : Nat} (bs : List Byte) (ha : a + bs.length ≤ 2 ^ 64) :
    Memory.wf (Memory.writeBytes m a bs) := by
  induction bs generalizing m a with
  | nil => exact h
  | cons b rest ih =>
    have hl : (b :: rest).length = rest.length + 1 := rfl
    rw [hl] at ha
    have ha' : a + 1 + rest.length ≤ 2 ^ 64 := by omega
    exact ih (Memory.write_wf h (by omega) b) ha'

@[simp] theorem Memory.readBytes_length (m : Memory) (a len : Nat) : (Memory.readBytes m a len).length = len := by
  simp [Memory.readBytes]

theorem Memory.readBytes_getD (m : Memory) (a len p : Nat) (h : p < len) :
    (Memory.readBytes m a len).getD p 0 = Memory.read m (a + p) := by
  simp [Memory.readBytes, List.getD_eq_getElem?_getD, h]

/-! ### Byte order -/

@[simp] theorem littleBytes_length (n : Nat) (v : Word) : (littleBytes n v).length = n := by simp [littleBytes]
@[simp] theorem ordered_length (o : ByteOrder) (bs : List Byte) : (ordered o bs).length = bs.length := by
  cases o <;> simp [ordered]
@[simp] theorem bytesOfValue_length (o : ByteOrder) (n : Nat) (v : Word) : (bytesOfValue o n v).length = n := by
  simp [bytesOfValue]

/-- The byte at an offset of a list put in the other order (R64). -/
theorem ordered_getD (o : ByteOrder) (bs : List Byte) (p : Nat) (h : p < bs.length) :
    (ordered o bs).getD p 0 = bs.getD (bytePos o bs.length p) 0 := by
  cases o with
  | little => rfl
  | big =>
    have h' : bs.length - 1 - p < bs.length := by omega
    simp [ordered, bytePos, List.getD_eq_getElem?_getD, h, h']

theorem littleBytes_getD (n : Nat) (v : Word) (p : Nat) (h : p < n) :
    (littleBytes n v).getD p 0 = (v >>> (8 * p)).setWidth 8 := by
  simp [littleBytes, List.getD_eq_getElem?_getD, h]

/-- The bytes of a value in address order (R61, R64). -/
theorem bytesOfValue_getD (o : ByteOrder) (n : Nat) (v : Word) (p : Nat) (h : p < n) :
    (bytesOfValue o n v).getD p 0 = (v >>> (8 * bytePos o n p)).setWidth 8 := by
  have h1 := ordered_getD o (littleBytes n v) p (by simpa using h)
  rw [littleBytes_length] at h1
  rw [bytesOfValue, h1, littleBytes_getD]
  cases o <;> simp only [bytePos] <;> omega

/-- The bits of the number whose bytes are a list. -/
theorem littleNat_testBit (bs : List Byte) (j : Nat) :
    (littleNat bs).testBit j = (bs.getD (j / 8) 0).getLsbD (j % 8) := by
  induction bs generalizing j with
  | nil => simp [littleNat]
  | cons b rest ih =>
    have hb : b.toNat < 2 ^ 8 := b.isLt
    have hs : littleNat (b :: rest) = 2 ^ 8 * littleNat rest + b.toNat := Nat.add_comm ..
    rw [hs, Nat.testBit_two_pow_mul_add _ hb]
    by_cases hj : j < 8
    · have h0 : j / 8 = 0 := by omega
      have h1 : j % 8 = j := by omega
      simp [hj, h0, h1, BitVec.getLsbD]
    · obtain ⟨d, hd⟩ : ∃ d, j / 8 = d + 1 := ⟨j / 8 - 1, by omega⟩
      rw [if_neg hj, ih, hd, show (j - 8) / 8 = d by omega, show (j - 8) % 8 = j % 8 by omega]
      simp

/-- The bits of the value formed from bytes in address order (R60, R64). -/
theorem valueOfBytes_getLsbD (o : ByteOrder) (bs : List Byte) (j : Nat) (hj : j < 64) :
    (valueOfBytes o bs).getLsbD j =
      if j < 8 * bs.length then (bs.getD (bytePos o bs.length (j / 8)) 0).getLsbD (j % 8) else false := by
  unfold valueOfBytes
  rw [BitVec.getLsbD_ofNat]
  simp only [hj, decide_true, Bool.true_and]
  rw [littleNat_testBit]
  split
  · rename_i h
    rw [ordered_getD]
    omega
  · rename_i h
    rw [List.getD_eq_default]
    · simp
    · simp; omega

/-- The value read from the bytes of a value is its low bytes (R102 (c)). -/
theorem valueOfBytes_bytesOfValue (o : ByteOrder) (n : Nat) (v : Word) :
    valueOfBytes o (bytesOfValue o n v) = lowBytes n v := by
  apply BitVec.eq_of_getLsbD_eq
  intro j hj
  rw [valueOfBytes_getLsbD o _ j hj]
  simp only [bytesOfValue_length, lowBytes, BitVec.getLsbD_setWidth, hj, decide_true, Bool.true_and]
  split
  · rename_i h
    have hb : bytePos o n (j / 8) < n := by cases o <;> simp only [bytePos] <;> omega
    have hbb : bytePos o n (bytePos o n (j / 8)) = j / 8 := by cases o with | little => rfl | big => simp only [bytePos]; omega
    have h8 : j % 8 < 8 := Nat.mod_lt _ (by omega)
    rw [bytesOfValue_getD o n v _ hb, hbb]
    simp only [BitVec.getLsbD_setWidth, h8, decide_true, Bool.true_and, BitVec.getLsbD_ushiftRight, h]
    congr 1; omega
  · rename_i h; simp [h]

/-- Reading back a run of bytes just written. -/
theorem Memory.readBytes_writeBytes (m : Memory) (a : Nat) (bs : List Byte) :
    Memory.readBytes (Memory.writeBytes m a bs) a bs.length = bs := by
  apply List.ext_getElem (by simp)
  intro p h1 h2
  have hp : p < bs.length := by simpa using h1
  have hr := Memory.read_writeBytes m a bs (a + p)
  rw [if_pos ⟨by omega, by omega⟩] at hr
  simpa [Memory.readBytes, List.getD_eq_getElem?_getD, hp] using hr

end Sys2Proof.Machine
end

