-- ==== Sys2Proof/Laws/Ops.lean ====
section
/-! SUPPORT. What the lines of an instruction can do: where a sequence of lines ends (R20, R282), and the two
transfers of the memory port (R60, R61). -/

namespace Sys2Proof.Machine

open Sys2Proof

/-- The state that a run of lines leaves, whether it got to its end or raised (R20). -/
def Run.final {α : Type} (r : Run α) : State :=
  match r with
  | .done _ s => s
  | .raised _ s => s

@[simp] theorem Run.final_done {α : Type} (a : α) (s : State) : (Run.done a s).final = s := rfl
@[simp] theorem Run.final_raised {α : Type} (f : Raise) (s : State) : (Run.raised f s : Run α).final = s := rfl
@[simp] theorem Run.andThen_done {α β : Type} (a : α) (s : State) (next : α → State → Run β) :
    (Run.done a s).andThen next = next a s := rfl
@[simp] theorem Run.andThen_raised {α β : Type} (f : Raise) (s : State) (next : α → State → Run β) :
    (Run.raised f s).andThen next = .raised f s := rfl
@[simp] theorem Run.outcome_done (s : State) : (Run.done () s).outcome = .next s := rfl
@[simp] theorem Run.outcome_raised (f : Raise) (s : State) : (Run.raised f s).outcome = .next (s.takeFault f) := rfl

/-- An instruction whose lines have run answers a next state: the one they leave, with the fault taken if they
raised (R246, R273). -/
theorem Run.outcome_cases (r : Run Unit) {t : State} (h : r.outcome = .next t) :
    r = .done () t ∨ ∃ f u, r = .raised f u ∧ t = u.takeFault f := by
  cases r with
  | done a s => cases h; exact .inl rfl
  | raised f s => cases h; exact .inr ⟨f, s, rfl, rfl⟩

/-- A sequence got to its end: both parts did. -/
theorem Run.andThen_eq_done {α β : Type} {r : Run α} {next : α → State → Run β} {b : β} {t : State}
    (h : r.andThen next = .done b t) : ∃ a u, r = .done a u ∧ next a u = .done b t := by
  cases r with
  | done a s => exact ⟨a, s, rfl, h⟩
  | raised f s => simp at h

/-- A sequence raised: its first part did, or its second. -/
theorem Run.andThen_eq_raised {α β : Type} {r : Run α} {next : α → State → Run β} {f : Raise} {t : State}
    (h : r.andThen next = .raised f t) : r = .raised f t ∨ ∃ a u, r = .done a u ∧ next a u = .raised f t := by
  cases r with
  | done a s => exact .inr ⟨a, s, rfl, h⟩
  | raised g s => simp at h; simp [h]

/-- A valid window ends by 2^64 (R62 (b)). -/
theorem Params.memValid_bound {p : Params} {a : Word} {n : Nat} {k : AccessKind} (h : p.memValid a n k = true) :
    a.toNat + n ≤ 2 ^ 64 := by
  obtain ⟨w, -, hw⟩ := List.any_eq_true.1 h
  simp only [Window.admits, Bool.and_eq_true, decide_eq_true_eq] at hw
  omega

/-- All that `MemRead` can do (R60). -/
theorem memRead_eq (a : Word) (n : Nat) (s : State) :
    memRead a n s =
      if s.params.memValid a n .load = true then
        .done (valueOfBytes s.params.byteOrder (Memory.readBytes s.mem a.toNat n)) (s.issue [.read a n])
      else .raised { kind := .segment, addr := a } (s.issue [.read a n]) := rfl

/-- The bits of the value that `MemRead` gives, byte by byte (R60, R64). -/
theorem memRead_value_getLsbD (s : State) (a n j : Nat) (hj : j < 64) :
    (valueOfBytes s.params.byteOrder (Memory.readBytes s.mem a n)).getLsbD j =
      if j < 8 * n then (s.byteAt (a + bytePos s.params.byteOrder n (j / 8))).getLsbD (j % 8) else false := by
  rw [valueOfBytes_getLsbD _ _ j hj, Memory.readBytes_length]
  split
  · rename_i h
    rw [Memory.readBytes_getD]
    · rfl
    · cases s.params.byteOrder <;> (simp only [bytePos]; omega)
  · rfl

/-- The state after a `MemWrite` that was made (R61). -/
def State.written (s : State) (a : Word) (n : Nat) (v : Word) : State :=
  { s.issue [.write a n (lowBytes n v)] with
    mem := Memory.writeBytes s.mem a.toNat (bytesOfValue s.params.byteOrder n v) }

@[simp] theorem State.written_regs (s : State) (a : Word) (n : Nat) (v : Word) : (s.written a n v).regs = s.regs := rfl
@[simp] theorem State.written_idx (s : State) (a : Word) (n : Nat) (v : Word) : (s.written a n v).idx = s.idx := rfl
@[simp] theorem State.written_flags (s : State) (a : Word) (n : Nat) (v : Word) : (s.written a n v).flags = s.flags := rfl
@[simp] theorem State.written_xtag (s : State) (a : Word) (n : Nat) (v : Word) : (s.written a n v).xtag = s.xtag := rfl
@[simp] theorem State.written_taken (s : State) (a : Word) (n : Nat) (v : Word) : (s.written a n v).taken = s.taken := rfl
@[simp] theorem State.written_stxrOk (s : State) (a : Word) (n : Nat) (v : Word) : (s.written a n v).stxrOk = s.stxrOk := rfl
@[simp] theorem State.written_ic (s : State) (a : Word) (n : Nat) (v : Word) : (s.written a n v).ic = s.ic := rfl
@[simp] theorem State.written_dc (s : State) (a : Word) (n : Nat) (v : Word) : (s.written a n v).dc = s.dc := rfl
@[simp] theorem State.written_prog (s : State) (a : Word) (n : Nat) (v : Word) : (s.written a n v).prog = s.prog := rfl
@[simp] theorem State.written_params (s : State) (a : Word) (n : Nat) (v : Word) : (s.written a n v).params = s.params := rfl
@[simp] theorem State.written_status (s : State) (a : Word) (n : Nat) (v : Word) : (s.written a n v).status = s.status := rfl
@[simp] theorem State.written_port (s : State) (a : Word) (n : Nat) (v : Word) :
    (s.written a n v).port = s.port ++ [.write a n (lowBytes n v)] := rfl

/-- All that `MemWrite` can do (R61). -/
theorem memWrite_eq (a : Word) (n : Nat) (v : Word) (s : State) :
    memWrite a n v s =
      if s.params.memValid a n .store = true then .done () (s.written a n v)
      else .raised { kind := .segment, addr := a } (s.issue [.write a n (lowBytes n v)]) := rfl

/-- The bytes that `MemWrite` stores, and those it leaves (R61, R64). -/
theorem State.written_stores (s : State) (a : Word) (n : Nat) (v : Word) :
    storesValue a.toNat n v s (s.written a n v) := by
  constructor
  · intro p hp
    show Memory.read (Memory.writeBytes _ _ _) _ = _
    rw [Memory.read_writeBytes, if_pos (by simpa using hp)]
    rw [show a.toNat + p - a.toNat = p by omega]
    exact bytesOfValue_getD _ n v p hp
  · intro b hb
    show Memory.read (Memory.writeBytes _ _ _) _ = _
    rw [Memory.read_writeBytes, if_neg]
    · rfl
    · simp; omega

/-- `MemWrite` keeps the canonical form of memory. -/
theorem State.written_wf {s : State} {a : Word} {n : Nat} (v : Word) (h : Memory.wf s.mem)
    (hv : s.params.memValid a n .store = true) : Memory.wf (s.written a n v).mem :=
  Memory.writeBytes_wf h _ (by simpa using Params.memValid_bound hv)

/-- The memory after reset is in the canonical form. -/
theorem reset_mem_wf : Memory.wf State.reset.mem := by simp [State.reset, State.fresh, Memory.wf]

end Sys2Proof.Machine
end

