-- ==== Sys2Proof/Laws/Cache.lean ====
section
/-! SUPPORT. What the cache controller can do (R90, R92, R95), said once: what a miss service leaves and fills,
when it fails, and what a probe changes of the state. -/

namespace Sys2Proof.Machine

open Sys2Proof

/-! ### The miss service (R92) -/

@[simp] theorem Cache.setEntry_blockBase (c : Cache) (i : Nat) (e : CacheEntry) (t j : Nat) :
    (c.setEntry i e).blockBase t j = c.blockBase t j := rfl
@[simp] theorem Cache.setEntry_blockSize (c : Cache) (i : Nat) (e : CacheEntry) :
    (c.setEntry i e).blockSize = c.blockSize := rfl

/-- A miss service keeps the geometry, the counters and the number of entries, and answers a miss. -/
theorem Cache.missService_keeps (fetch : Word → Nat → Option (List Byte)) (c : Cache) (t : Nat) (sp : List Nat) :
    let r := Cache.missService fetch c t sp
    r.cache.bsb = c.bsb ∧ r.cache.ib = c.ib ∧ r.cache.hits = c.hits ∧ r.cache.misses = c.misses ∧
      r.cache.entries.length = c.entries.length ∧ r.hit = false := by
  induction sp generalizing c with
  | nil => simp [Cache.missService]
  | cons i rest ih =>
    simp only [Cache.missService]
    split
    · simp
    · simpa [Cache.setEntry] using ih (c.setEntry i _)

/-- A miss service leaves the entries outside its span as they were. -/
theorem Cache.missService_outside (fetch : Word → Nat → Option (List Byte)) (c : Cache) (t : Nat) (sp : List Nat)
    (i : Nat) (hi : i ∉ sp) : (Cache.missService fetch c t sp).cache.entries[i]? = c.entries[i]? := by
  induction sp generalizing c with
  | nil => simp [Cache.missService]
  | cons j rest ih =>
    simp only [List.mem_cons, not_or] at hi
    simp only [Cache.missService]
    split
    · rfl
    · rw [ih _ hi.2]; simp [Cache.setEntry, Ne.symm hi.1]

/-- A miss service whose block requests all succeed does not fail, and only such a one. -/
theorem Cache.missService_failed_none (fetch : Word → Nat → Option (List Byte)) (c : Cache) (t : Nat)
    (sp : List Nat) :
    (Cache.missService fetch c t sp).failed = none ↔ ∀ i ∈ sp, fetch (c.blockBase t i) c.blockSize ≠ none := by
  induction sp generalizing c with
  | nil => simp [Cache.missService]
  | cons j rest ih =>
    simp only [Cache.missService]
    split
    · rename_i h; simp [h]
    · rename_i blk h
      simp only [List.forall_mem_cons, h, ih (c.setEntry j _)]
      simp

/-- A miss service fails at the first block request that does. -/
theorem Cache.missService_failed_some (fetch : Word → Nat → Option (List Byte)) (c : Cache) (t : Nat)
    (sp : List Nat) (base : Word) :
    (Cache.missService fetch c t sp).failed = some base ↔
      ∃ pre i post, sp = pre ++ i :: post ∧ base = c.blockBase t i ∧
        (∀ j ∈ pre, fetch (c.blockBase t j) c.blockSize ≠ none) ∧ fetch base c.blockSize = none := by
  induction sp generalizing c with
  | nil => simp [Cache.missService]
  | cons k rest ih =>
    simp only [Cache.missService]
    split
    · rename_i h
      constructor
      · rintro ⟨⟩; exact ⟨[], k, rest, rfl, rfl, by simp, h⟩
      · rintro ⟨pre, i, post, he, rfl, hp, hf⟩
        cases pre with
        | nil => simp at he; simp [he.1]
        | cons p ps => simp at he; exact absurd (he.1 ▸ h) (hp p (by simp))
    · rename_i blk h
      simp only [ih (c.setEntry k _), Cache.setEntry_blockBase, Cache.setEntry_blockSize]
      constructor
      · rintro ⟨pre, i, post, rfl, rfl, hp, hf⟩
        refine ⟨k :: pre, i, post, rfl, rfl, ?_, hf⟩
        intro j hj
        rcases List.mem_cons.1 hj with rfl | hj'
        · simp [h]
        · exact hp j hj'
      · rintro ⟨pre, i, post, he, rfl, hp, hf⟩
        cases pre with
        | nil => simp at he; rw [← he.1, h] at hf; simp at hf
        | cons p ps =>
          simp at he
          exact ⟨ps, i, post, he.2, rfl, fun j hj => hp j (by simp [hj]), hf⟩

/-- A miss service that does not fail leaves every spanned entry valid, with the tag and its own block. -/
theorem Cache.missService_fills (fetch : Word → Nat → Option (List Byte)) (c : Cache) (t : Nat) (sp : List Nat)
    (h : (Cache.missService fetch c t sp).failed = none) (i : Nat) (hi : i ∈ sp) (hl : i < c.entries.length) :
    ∃ blk, fetch (c.blockBase t i) c.blockSize = some blk ∧
      (Cache.missService fetch c t sp).cache.entries[i]? = some { tag := t, valid := true, block := blk } := by
  induction sp generalizing c with
  | nil => simp at hi
  | cons j rest ih =>
    simp only [Cache.missService] at h ⊢
    split at h
    · simp at h
    · rename_i blk hb
      by_cases hr : i ∈ rest
      · simpa [hb] using ih (c.setEntry j _) h hr (by simpa [Cache.setEntry] using hl)
      · have hij : i = j := (List.mem_cons.1 hi).resolve_right hr
        subst hij
        refine ⟨blk, hb, ?_⟩
        simp only
        rw [Cache.missService_outside _ _ _ _ _ hr]
        simp [Cache.setEntry, hl]

/-- A miss service cut short by a block request that fails leaves the cache that the elements before it make. -/
theorem Cache.missService_cut (fetch : Word → Nat → Option (List Byte)) (c : Cache) (t : Nat) (pre post : List Nat)
    (i : Nat) (hp : ∀ j ∈ pre, fetch (c.blockBase t j) c.blockSize ≠ none)
    (hi : fetch (c.blockBase t i) c.blockSize = none) :
    (Cache.missService fetch c t (pre ++ i :: post)).cache = (Cache.missService fetch c t pre).cache := by
  induction pre generalizing c with
  | nil => simp [Cache.missService, hi]
  | cons j rest ih =>
    simp only [List.cons_append, Cache.missService]
    split
    · rfl
    · exact ih (c.setEntry j _) (fun k hk => hp k (by simp [hk])) hi

/-- A miss service keeps a cache well formed. -/
theorem Cache.missService_wf {fetch : Word → Nat → Option (List Byte)} {c : Cache} (hc : c.Wf) {t : Nat}
    (ht : t < 2 ^ c.tagBits) (hf : ∀ a len blk, fetch a len = some blk → blk.length = len) (sp : List Nat) :
    (Cache.missService fetch c t sp).cache.Wf := by
  induction sp generalizing c with
  | nil => exact hc
  | cons j rest ih =>
    simp only [Cache.missService]
    split
    · exact hc
    · rename_i blk hb
      refine ih (c := c.setEntry j { tag := t, valid := true, block := blk }) ⟨hc.bits, ?_, ?_, ?_⟩ ht
      · show (c.entries.set j _).length = _
        rw [List.length_set]; exact hc.entries
      · intro e he
        rcases List.mem_or_eq_of_mem_set he with he | rfl
        · exact hc.blocks e he
        · exact hf _ _ _ hb
      · intro e he
        rcases List.mem_or_eq_of_mem_set he with he | rfl
        · exact hc.tags e he
        · exact ht

/-! ### The check (R90) -/

/-- A tag is below `2^tb` (R85). -/
theorem Cache.tag_lt (c : Cache) (hc : c.ib + c.bsb ≤ 62) (a : Word) : c.tag a < 2 ^ c.tagBits := by
  have ha := a.isLt
  have he : 64 - c.tagBits = c.ib + c.bsb := by unfold Cache.tagBits; omega
  have h64 : c.tagBits + (c.ib + c.bsb) = 64 := by unfold Cache.tagBits; omega
  rw [Cache.tag, he, BitVec.toNat_ushiftRight, Nat.shiftRight_eq_div_pow, Nat.div_lt_iff_lt_mul (by positivity),
    ← Nat.pow_add, h64]
  exact ha

/-- On a hit only the hit counter moves (R90). -/
theorem Cache.check_hit (fetch : Word → Nat → Option (List Byte)) {c : Cache} {a : Word} {n : Nat}
    (h : c.spanHits (c.tag a) (c.span a n) = true) :
    Cache.check fetch c a n =
      { cache := { c with hits := c.hits + 1 }, hit := true, issued := [], failed := none } := by
  simp [Cache.check, h]

/-- On a miss the miss counter moves and the span is serviced (R90, R92). -/
theorem Cache.check_miss (fetch : Word → Nat → Option (List Byte)) {c : Cache} {a : Word} {n : Nat}
    (h : c.spanHits (c.tag a) (c.span a n) = false) :
    Cache.check fetch c a n =
      Cache.missService fetch { c with misses := c.misses + 1 } (c.tag a) (c.span a n) := by
  simp [Cache.check, h]

/-- A check that does not fail moves exactly one counter (R90). -/
theorem Cache.check_counts (fetch : Word → Nat → Option (List Byte)) (c : Cache) (a : Word) (n : Nat) :
    countsOnce c (Cache.check fetch c a n).cache (c.spanHits (c.tag a) (c.span a n)) ∧
      (Cache.check fetch c a n).hit = c.spanHits (c.tag a) (c.span a n) := by
  cases h : c.spanHits (c.tag a) (c.span a n) with
  | true => rw [Cache.check_hit fetch h]; simp [countsOnce]
  | false =>
    rw [Cache.check_miss fetch h]
    have hk := Cache.missService_keeps fetch { c with misses := c.misses + 1 } (c.tag a) (c.span a n)
    exact ⟨⟨by simpa using hk.2.2.1, by simpa using hk.2.2.2.1, hk.1, hk.2.1, by simp⟩, hk.2.2.2.2.2⟩

/-- A check keeps a cache well formed, whether or not it fails. -/
theorem Cache.check_wf {fetch : Word → Nat → Option (List Byte)} {c : Cache} (hc : c.Wf) (a : Word) (n : Nat)
    (hf : ∀ a len blk, fetch a len = some blk → blk.length = len) : (Cache.check fetch c a n).cache.Wf := by
  have ht := c.tag_lt hc.bits a
  have hc' (h m : Nat) : ({ c with hits := h, misses := m } : Cache).Wf := ⟨hc.bits, hc.entries, hc.blocks, hc.tags⟩
  cases h : c.spanHits (c.tag a) (c.span a n) with
  | true => rw [Cache.check_hit fetch h]; exact hc' _ _
  | false => rw [Cache.check_miss fetch h]; exact Cache.missService_wf (hc' c.hits (c.misses + 1)) ht hf _

/-! ### The probe of the engine (R96, R99) -/

/-- A block request gives a block of the length asked for (R63). -/
theorem State.fetchBlock_length {s : State} {a : Word} {len : Nat} {blk : List Byte}
    (h : s.fetchBlock a len = some blk) : blk.length = len := by
  unfold State.fetchBlock memBlock at h
  split at h
  · cases h; simp
  · cases h

/-- The bytes that a block request gives (R63). -/
theorem State.fetchBlock_bytes {s : State} {a : Word} {len : Nat} {blk : List Byte}
    (h : s.fetchBlock a len = some blk) : blk = (List.range len).map fun p => s.byteAt (a.toNat + p) := by
  unfold State.fetchBlock memBlock at h
  split at h
  · cases h; rfl
  · cases h

/-- A block request succeeds exactly where the block may be read (R63). -/
theorem State.fetchBlock_none (s : State) (a : Word) (len : Nat) :
    s.fetchBlock a len = none ↔ s.params.memValid a len .block = false := by
  unfold State.fetchBlock memBlock; split <;> simp_all

/-- A miss service over memory whose block requests all succeed refills its elements. -/
theorem Cache.missService_refilled (s : State) (c : Cache) (t : Nat) (sp : List Nat)
    (h : ∀ i ∈ sp, s.fetchBlock (c.blockBase t i) c.blockSize ≠ none) :
    refilled c (Cache.missService s.fetchBlock c t sp).cache s t sp := by
  refine ⟨(Cache.missService_keeps _ c t sp).2.2.2.2.1, fun i hi hl => ?_, Cache.missService_outside _ c t sp⟩
  obtain ⟨blk, hb, he⟩ := Cache.missService_fills _ c t sp ((Cache.missService_failed_none ..).2 h) i hi hl
  rw [he, State.fetchBlock_bytes hb]; rfl

/-- A check that does not fail leaves the cache checked once. -/
theorem Cache.check_checkedOnce (s : State) (c : Cache) (a : Word) (n : Nat)
    (h : (Cache.check s.fetchBlock c a n).failed = none) :
    checkedOnce a n c (Cache.check s.fetchBlock c a n).cache s := by
  refine ⟨(Cache.check_counts _ c a n).1, fun hm => ?_⟩
  rw [Cache.check_miss _ hm] at h ⊢
  exact Cache.missService_refilled s { c with misses := c.misses + 1 } (c.tag a) (c.span a n)
    ((Cache.missService_failed_none ..).1 h)

/-- A check that misses and meets a block that may not be read leaves the elements before it refilled. -/
theorem Cache.check_stopped (s : State) (c : Cache) (a : Word) (n : Nat)
    (hm : c.spanHits (c.tag a) (c.span a n) = false) (pre post : List Nat) (i : Nat)
    (he : c.span a n = pre ++ i :: post)
    (hp : ∀ j ∈ pre, s.params.memValid (c.blockBase (c.tag a) j) c.blockSize .block = true)
    (hi : s.params.memValid (c.blockBase (c.tag a) i) c.blockSize .block = false) :
    refilled c (Cache.check s.fetchBlock c a n).cache s (c.tag a) pre := by
  have hp' : ∀ j ∈ pre, s.fetchBlock (c.blockBase (c.tag a) j) c.blockSize ≠ none := fun j hj => by
    rw [ne_eq, State.fetchBlock_none, hp j hj]; simp
  rw [Cache.check_miss _ hm, he,
    Cache.missService_cut _ { c with misses := c.misses + 1 } _ _ _ _ hp' ((State.fetchBlock_none ..).2 hi)]
  exact Cache.missService_refilled s { c with misses := c.misses + 1 } (c.tag a) pre hp'

/-- All that a probe changes of the state, whether or not it faults: its cache and the port. -/
theorem cacheProbe_frame (pos : CachePos) (a : Word) (n : Nat) (s : State) :
    (cacheProbe pos a n s).final =
        { s with ic := (cacheProbe pos a n s).final.ic, dc := (cacheProbe pos a n s).final.dc,
                 port := (cacheProbe pos a n s).final.port } ∧
      ∀ q, q ≠ pos → (cacheProbe pos a n s).final.cacheAt q = s.cacheAt q := by
  unfold cacheProbe CacheResult.finish
  split
  · simp
  · split <;> cases pos <;> refine ⟨rfl, fun q hq => ?_⟩ <;> cases q <;> first | rfl | exact absurd rfl hq

/-- Where no cache is configured a probe does nothing. -/
theorem cacheProbe_none {pos : CachePos} {s : State} (h : s.cacheAt pos = none) (a : Word) (n : Nat) :
    cacheProbe pos a n s = .done false s := by
  unfold cacheProbe; rw [h]

/-- Where a cache is configured, the cache after a probe is the checked one. -/
theorem cacheProbe_cache {pos : CachePos} {s : State} {c : Cache} (h : s.cacheAt pos = some c) (a : Word) (n : Nat) :
    (cacheProbe pos a n s).final.cacheAt pos = some (Cache.check s.fetchBlock c a n).cache := by
  unfold cacheProbe CacheResult.finish
  rw [h]
  simp only
  split <;> cases pos <;> rfl

/-- A probe gets to its end exactly when its check goes through (R92). -/
theorem cacheProbe_done_iff (pos : CachePos) (a : Word) (n : Nat) (s : State) :
    (∃ hit, cacheProbe pos a n s = .done hit (cacheProbe pos a n s).final) ↔ probeOk pos a n s := by
  cases hc : s.cacheAt pos with
  | none => rw [cacheProbe_none hc]; simp [probeOk, hc]
  | some c =>
    have hf : (∃ hit, cacheProbe pos a n s = .done hit (cacheProbe pos a n s).final) ↔
        (Cache.check s.fetchBlock c a n).failed = none := by
      unfold cacheProbe CacheResult.finish
      rw [hc]; simp only
      split <;> simp_all
    rw [hf]
    have hp : probeOk pos a n s ↔ c.spanHits (c.tag a) (c.span a n) = true ∨
        ∀ i ∈ c.span a n, s.params.memValid (c.blockBase (c.tag a) i) c.blockSize .block = true := by
      simp [probeOk, hc]
    rw [hp]
    cases hh : c.spanHits (c.tag a) (c.span a n) with
    | true => simp [Cache.check_hit _ hh]
    | false =>
      rw [Cache.check_miss _ hh, Cache.missService_failed_none]
      simp only [ne_eq, State.fetchBlock_none, Bool.not_eq_false, Bool.false_eq_true, false_or]
      rfl

/-- A probe raises exactly the segment fault of the block request that fails (R92, R98). -/
theorem cacheProbe_raised_iff (pos : CachePos) (a : Word) (n : Nat) (s : State) (f : Raise) :
    cacheProbe pos a n s = .raised f (cacheProbe pos a n s).final ↔
      f.kind = .segment ∧ probeFaultsAt pos a n s f.addr := by
  cases hc : s.cacheAt pos with
  | none => rw [cacheProbe_none hc]; simp [probeFaultsAt, hc]
  | some c =>
    have hf : cacheProbe pos a n s = .raised f (cacheProbe pos a n s).final ↔
        f.kind = .segment ∧ (Cache.check s.fetchBlock c a n).failed = some f.addr := by
      unfold cacheProbe CacheResult.finish
      rw [hc]; simp only
      split
      · simp_all
      · rename_i base hb
        obtain ⟨k, x⟩ := f
        simp only [Run.final_raised, Run.raised.injEq, Raise.mk.injEq, and_true, hb, Option.some.injEq]
        constructor <;> rintro ⟨h1, h2⟩ <;> exact ⟨h1.symm, h2⟩
    rw [hf]
    refine and_congr_right fun _ => ?_
    cases hh : c.spanHits (c.tag a) (c.span a n) with
    | true => simp [Cache.check_hit _ hh, probeFaultsAt, hc, hh]
    | false =>
      rw [Cache.check_miss _ hh, Cache.missService_failed_some]
      simp only [ne_eq, State.fetchBlock_none, Bool.not_eq_false, probeFaultsAt, hc, Option.some.injEq]
      constructor
      · rintro ⟨pre, i, post, h1, h2, h3, h4⟩
        exact ⟨c, pre, i, post, rfl, hh, h1, h2, h3, h4⟩
      · rintro ⟨c', pre, i, post, rfl, -, h1, h2, h3, h4⟩
        exact ⟨pre, i, post, h1, h2, h3, h4⟩

/-- What a probe that gets to its end leaves (R90, R92): the rest of the state as it was, its cache checked once. -/
theorem cacheProbe_done {pos : CachePos} {a : Word} {n : Nat} {s t : State} {hit : Bool}
    (h : cacheProbe pos a n s = .done hit t) :
    t = { s with ic := t.ic, dc := t.dc, port := t.port } ∧ (∀ q, q ≠ pos → t.cacheAt q = s.cacheAt q) ∧
      (s.cacheAt pos = none → t = s) ∧
      ∀ c, s.cacheAt pos = some c → ∃ c', t.cacheAt pos = some c' ∧ checkedOnce a n c c' t ∧
        hit = c.spanHits (c.tag a) (c.span a n) := by
  have hf : (cacheProbe pos a n s).final = t := by rw [h]; rfl
  have hfr := cacheProbe_frame pos a n s
  rw [hf] at hfr
  refine ⟨hfr.1, hfr.2, fun hn => ?_, fun c hc => ?_⟩
  · rw [cacheProbe_none hn] at h; cases h; rfl
  · have h1 := cacheProbe_cache hc a n
    rw [hf] at h1
    have hh : hit = (Cache.check s.fetchBlock c a n).hit ∧ (Cache.check s.fetchBlock c a n).failed = none := by
      unfold cacheProbe CacheResult.finish at h
      rw [hc] at h; simp only at h
      split at h
      · rename_i hn; cases h; exact ⟨rfl, hn⟩
      · cases h
    rw [(Cache.check_counts s.fetchBlock c a n).2] at hh
    have hm : ∀ x, t.byteAt x = s.byteAt x := fun x => by rw [hfr.1]; rfl
    have hk := Cache.check_checkedOnce s c a n hh.2
    simp only [checkedOnce, refilled, Cache.refilledEntry, ← hm] at hk
    exact ⟨_, h1, hk, hh.1⟩

/-- What a probe that faults leaves (R92, R98): the rest of the state as it was, the miss counted, the elements
before the fault refilled. -/
theorem cacheProbe_raised {pos : CachePos} {a : Word} {n : Nat} {s t : State} {f : Raise}
    (h : cacheProbe pos a n s = .raised f t) :
    t = { s with ic := t.ic, dc := t.dc, port := t.port } ∧ (∀ q, q ≠ pos → t.cacheAt q = s.cacheAt q) ∧
      f.kind = .segment ∧ probeFaultsAt pos a n s f.addr ∧ refillStopped pos a n s t := by
  have hf : (cacheProbe pos a n s).final = t := by rw [h]; rfl
  have hfr := cacheProbe_frame pos a n s
  rw [hf] at hfr
  have hr := (cacheProbe_raised_iff pos a n s f).1 (by rw [hf, h])
  refine ⟨hfr.1, hfr.2, hr.1, hr.2, fun c hc => ?_⟩
  have h1 := cacheProbe_cache hc a n
  rw [hf] at h1
  obtain ⟨c', -, -, -, hc', hh, -⟩ := hr.2
  rw [hc] at hc'; cases hc'
  have hk := (Cache.check_counts s.fetchBlock c a n).1
  rw [hh] at hk
  have hm : ∀ x, t.byteAt x = s.byteAt x := fun x => by rw [hfr.1]; rfl
  refine ⟨_, h1, hk, fun pre i post he hp hi => ?_⟩
  have hs := Cache.check_stopped s c a n hh pre post i he hp hi
  simpa only [refilled, Cache.refilledEntry, ← hm] using hs

/-- A data-cache check depends on the data cache before, and on the data cache and memory after. -/
theorem dataChecked.of_eq {a : Word} {n : Nat} {s s' t t' : State} (h : dataChecked a n s t) (hs : s'.dc = s.dc)
    (ht : t'.dc = t.dc) (hm : t'.mem = t.mem) : dataChecked a n s' t' := by
  unfold dataChecked checkedOnce refilled Cache.refilledEntry State.byteAt at *
  rwa [hs, ht, hm]

/-- What a stopped refill leaves depends on the cache and the straps before, and on the cache and memory after. -/
theorem refillStopped.of_eq {pos : CachePos} {a : Word} {n : Nat} {s s' t t' : State} (h : refillStopped pos a n s t)
    (hs : s'.cacheAt pos = s.cacheAt pos) (hp : s'.params = s.params) (ht : t'.cacheAt pos = t.cacheAt pos)
    (hm : t'.mem = t.mem) : refillStopped pos a n s' t' := by
  unfold refillStopped refilled Cache.refilledEntry State.byteAt at *
  rwa [hs, hp, ht, hm]

/-- A probe keeps every cache well formed. -/
theorem cacheProbe_wf {s : State} (h : ∀ pos c, s.cacheAt pos = some c → c.Wf) (pos : CachePos) (a : Word) (n : Nat) :
    ∀ q c, (cacheProbe pos a n s).final.cacheAt q = some c → c.Wf := by
  intro q c hq
  by_cases hqp : q = pos
  · subst hqp
    cases hc : s.cacheAt q with
    | none => rw [cacheProbe_none hc, Run.final_done, hc] at hq; cases hq
    | some c' =>
      rw [cacheProbe_cache hc] at hq; cases hq
      exact Cache.check_wf (h q c' hc) a n fun _ _ _ => State.fetchBlock_length
  · rw [(cacheProbe_frame pos a n s).2 q hqp] at hq
    exact h q c hq

end Sys2Proof.Machine
end

