-- ==== Sys2Proof/Laws/Command.lean ====
section
/-! SUPPORT. What a reset can do with the program handed over (R113, R126, R270). -/

namespace Sys2Proof.Machine

open Sys2Proof

/-- A program is accepted exactly when none of its positions fails. -/
theorem firstFailingSlot_eq_none {plen k : Nat} {prog : List Slot} :
    firstFailingSlot plen k prog = none ↔ ∀ slot ∈ prog, slot.failing plen = none := by
  induction prog generalizing k with
  | nil => simp [firstFailingSlot]
  | cons slot rest ih => cases h : slot.failing plen <;> simp [firstFailingSlot, h, ih]

/-- The position that a refused program is refused for is the first that fails. -/
theorem firstFailingSlot_append {plen k : Nat} {pre post : List Slot} {slot : Slot} {r : Refusal}
    (hp : ∀ x ∈ pre, x.failing plen = none) (hs : slot.failing plen = some r) :
    firstFailingSlot plen k (pre ++ slot :: post) = some (k + pre.length, r) := by
  induction pre generalizing k with
  | nil => simp [firstFailingSlot, hs]
  | cons x rest ih =>
    simp only [List.cons_append, firstFailingSlot, hp x (by simp)]
    rw [ih fun y hy => hp y (by simp [hy]), List.length_cons]
    congr 2; omega

/-- A position of validation that goes through: no pair, or one that builds. -/
theorem resetPosition_ready {pos : CachePos} {cfg : Option CachePair} {rest : Option Cache → ResetOutcome} {s : State}
    (h : resetPosition pos cfg rest = .ready s) :
    ∃ c, rest c = .ready s ∧ (cfg = none ∧ c = none ∨ ∃ p b, cfg = some p ∧ buildCache p = .built b ∧ c = some b) := by
  unfold resetPosition at h
  split at h
  · exact ⟨none, h, .inl ⟨rfl, rfl⟩⟩
  · rename_i p
    split at h
    · rename_i b hb; exact ⟨some b, h, .inr ⟨p, b, rfl, hb, rfl⟩⟩
    · cases h
    · cases h

/-- All that a reset that answers `Ready` has done: both cache positions went through, the program is well formed,
and the state is the fresh one. -/
theorem resetWith_ready {params : Params} {prog : List Slot} {mem : Memory} {s : State}
    (h : resetWith params prog mem = .ready s) :
    ∃ ic dc, s = State.fresh params ic dc prog mem ∧ (∀ slot ∈ prog, slot.failing prog.length = none) ∧
      (params.icCfg = none ∧ ic = none ∨ ∃ p b, params.icCfg = some p ∧ buildCache p = .built b ∧ ic = some b) ∧
      (params.dcCfg = none ∧ dc = none ∨ ∃ p b, params.dcCfg = some p ∧ buildCache p = .built b ∧ dc = some b) := by
  obtain ⟨ic, h, hic⟩ := resetPosition_ready h
  obtain ⟨dc, h, hdc⟩ := resetPosition_ready h
  unfold resetProgram at h
  split at h
  · cases h
  · rename_i hf
    cases h
    exact ⟨ic, dc, rfl, firstFailingSlot_eq_none.1 hf, hic, hdc⟩

end Sys2Proof.Machine
end

