-- ==== Sys2Proof/Laws/Encoding.lean ====
section
/-! SUPPORT. The fields of an encoded word: a field does not touch the bits outside its place (R116 to R121),
and the displacement of a branch that fits its field is the one read back (R122). -/

namespace Sys2Proof

theorem place_getLsbD {n : Nat} (x : BitVec n) (lo i : Nat) (hi : i < 32) :
    (place x lo).getLsbD i = (decide (lo ≤ i) && x.getLsbD (i - lo)) := by
  by_cases hl : lo ≤ i
  · simp [place, hi, hl, Nat.not_lt.2 hl]
  · simp [place, hi, hl, Nat.lt_of_not_le hl]

/-- A field is invisible under a mask that has no bit of its place. -/
theorem place_and_eq_zero {n : Nat} (x : BitVec n) (lo : Nat) (mask : InstrWord)
    (h : ∀ i, i < 32 → lo ≤ i → i < lo + n → mask.getLsbD i = false) : place x lo &&& mask = 0 := by
  apply BitVec.eq_of_getLsbD_eq
  intro i hi
  rw [BitVec.getLsbD_and, place_getLsbD x lo i hi]
  by_cases hl : lo ≤ i
  · by_cases hn : i < lo + n
    · simp [h i hi hl hn]
    · simp [BitVec.getLsbD_of_ge x (i - lo) (by omega)]
  · simp [hl]

theorem or_and_eq_left {a b mask : InstrWord} (h : b &&& mask = 0) : (a ||| b) &&& mask = a &&& mask := by
  rw [BitVec.and_comm, BitVec.and_or_distrib_left, BitVec.and_comm mask b, h, BitVec.and_comm]; simp

/-! ### Each format shows its row's `match` under the row's mask (R123) -/

theorem encodeR_fits {m : InstrWord} {rm : RegNum} {sh : BitVec 6} {rn rd : RegNum} {x : Mnemonic}
    (h : m &&& 0xFFE00000 = m) : (⟨x, 0xFFE00000, m⟩ : MaskRow).fits (encodeR m rm sh rn rd) = true := by
  simp only [MaskRow.fits, encodeR, beq_iff_eq]
  rw [or_and_eq_left (place_and_eq_zero rd 0 _ (by decide)), or_and_eq_left (place_and_eq_zero rn 5 _ (by decide)),
    or_and_eq_left (place_and_eq_zero sh 10 _ (by decide)), or_and_eq_left (place_and_eq_zero rm 16 _ (by decide)), h]

theorem encodeI_fits {m : InstrWord} {imm : BitVec 12} {rn rd : RegNum} {x : Mnemonic}
    (h : m &&& 0xFFC00000 = m) : (⟨x, 0xFFC00000, m⟩ : MaskRow).fits (encodeI m imm rn rd) = true := by
  simp only [MaskRow.fits, encodeI, beq_iff_eq]
  rw [or_and_eq_left (place_and_eq_zero rd 0 _ (by decide)), or_and_eq_left (place_and_eq_zero rn 5 _ (by decide)),
    or_and_eq_left (place_and_eq_zero imm 10 _ (by decide)), h]

theorem encodeD_fits {m : InstrWord} {off : BitVec 9} {rn rt : RegNum} {x : Mnemonic}
    (h : m &&& 0xFFE00000 = m) : (⟨x, 0xFFE00000, m⟩ : MaskRow).fits (encodeD m off rn rt) = true := by
  simp only [MaskRow.fits, encodeD, beq_iff_eq]
  rw [or_and_eq_left (place_and_eq_zero rt 0 _ (by decide)), or_and_eq_left (place_and_eq_zero rn 5 _ (by decide)),
    or_and_eq_left (place_and_eq_zero off 12 _ (by decide)), h]

theorem encodeX_fits {m : InstrWord} {rs rn rt : RegNum} {x : Mnemonic}
    (h : m &&& 0xFFE00000 = m) : (⟨x, 0xFFE00000, m⟩ : MaskRow).fits (encodeX m rs rn rt) = true := by
  simp only [MaskRow.fits, encodeX, beq_iff_eq]
  rw [or_and_eq_left (place_and_eq_zero rt 0 _ (by decide)), or_and_eq_left (place_and_eq_zero rn 5 _ (by decide)),
    or_and_eq_left (place_and_eq_zero rs 16 _ (by decide)), h]

theorem encodeIM_fits {m : InstrWord} {hw : BitVec 2} {imm16 : BitVec 16} {rd : RegNum} {x : Mnemonic}
    (h : m &&& 0xFF800000 = m) : (⟨x, 0xFF800000, m⟩ : MaskRow).fits (encodeIM m hw imm16 rd) = true := by
  simp only [MaskRow.fits, encodeIM, beq_iff_eq]
  rw [or_and_eq_left (place_and_eq_zero rd 0 _ (by decide)), or_and_eq_left (place_and_eq_zero imm16 5 _ (by decide)),
    or_and_eq_left (place_and_eq_zero hw 21 _ (by decide)), h]

theorem encodeCB_fits {m : InstrWord} {k : Nat} {target : Int} {rt : RegNum} {x : Mnemonic}
    (h : m &&& 0xFF000000 = m) : (⟨x, 0xFF000000, m⟩ : MaskRow).fits (encodeCB m k target rt) = true := by
  simp only [MaskRow.fits, encodeCB, beq_iff_eq]
  rw [or_and_eq_left (place_and_eq_zero rt 0 _ (by decide)), or_and_eq_left (place_and_eq_zero _ 5 _ (by decide)), h]

theorem encodeCond_fits {m : InstrWord} {k : Nat} {target : Int} {x : Mnemonic}
    (h : m &&& 0xFF00001F = m) : (⟨x, 0xFF00001F, m⟩ : MaskRow).fits (encodeCond m k target) = true := by
  simp only [MaskRow.fits, encodeCond, beq_iff_eq]
  rw [or_and_eq_left (place_and_eq_zero _ 5 _ (by decide)), h]

theorem encodeB_fits {m : InstrWord} {k : Nat} {target : Int} {x : Mnemonic}
    (h : m &&& 0xFC000000 = m) : (⟨x, 0xFC000000, m⟩ : MaskRow).fits (encodeB m k target) = true := by
  simp only [MaskRow.fits, encodeB, beq_iff_eq]
  rw [or_and_eq_left (place_and_eq_zero _ 0 _ (by decide)), h]

/-! ### Displacements (R122) -/

theorem toInt_ofInt_of_fits (n : Nat) (x : Int) (h : fitsSigned n x = true) : (BitVec.ofInt (n + 1) x).toInt = x := by
  simp only [fitsSigned, Bool.and_eq_true, decide_eq_true_eq] at h
  rw [BitVec.toInt_ofInt]
  have hp : (0 : Int) < 2 ^ n := by positivity
  have hs : ((2 ^ (n + 1) : Nat) : Int) = 2 * 2 ^ n := by rw [Nat.pow_succ]; push_cast; ring
  apply Int.bmod_eq_of_le <;> rw [hs] <;> omega

theorem fits_toInt (n : Nat) (x : BitVec (n + 1)) : fitsSigned n x.toInt = true := by
  have h1 := BitVec.two_mul_toInt_lt (x := x)
  have h2 := BitVec.le_two_mul_toInt (x := x)
  have hp : (2 : Int) ^ (n + 1) = 2 * 2 ^ n := by ring
  simp only [fitsSigned, Bool.and_eq_true, decide_eq_true_eq]
  omega

end Sys2Proof
end

