-- ==== Sys2Proof/Laws/Transfer.lean ====
section
/-! SUPPORT. What a load, a store and an exclusive can do (R176 to R179, R196, R197), said once each: where
they get to their end and what they then leave, and where and how they raise. -/

namespace Sys2Proof.Machine

open Sys2Proof

/-- All that a data-side probe and a data transfer share: nothing but the data cache and the port differs. -/
def portOnly (s t : State) : Prop := t = { s with dc := t.dc, port := t.port }

theorem low4_eq_zero (v : Word) : v.extractLsb' 0 4 = 0 ↔ v.toNat % 16 = 0 := by
  rw [← BitVec.toNat_inj]; simp

/-- The base register passes the stack-pointer check (R176). -/
theorem spCheck_ok {rn : RegNum} {s : State} (h : baseOk rn s) : spCheck rn s = .done () s := by
  unfold spCheck
  rw [if_neg]
  rintro ⟨h1, h2⟩
  exact h2 ((low4_eq_zero _).2 (h h1))

/-- The base register fails the stack-pointer check (R176). -/
theorem spCheck_fails {rn : RegNum} {s : State} (h : ¬ baseOk rn s) :
    rn = spIndex ∧ spCheck rn s = .raised { kind := .spAlignment, addr := s.readReg spIndex } s := by
  simp only [baseOk, Classical.not_imp] at h
  refine ⟨h.1, ?_⟩
  unfold spCheck
  rw [if_pos ⟨h.1, fun he => h.2 ((low4_eq_zero _).1 he)⟩]

/-- A data-side probe that gets to its end changes nothing but the data cache and the port, and counts once. -/
theorem dProbe_done {a : Word} {n : Nat} {s t : State} {hit : Bool} (h : dProbe a n s = .done hit t) :
    portOnly s t ∧ dataChecked a n s t ∧ (s.dc = none → t = s) := by
  obtain ⟨h1, h2, h3, h4⟩ := cacheProbe_done h
  have hic : t.ic = s.ic := h2 .ic (by decide)
  refine ⟨?_, ⟨fun hn => by rw [h3 hn]; exact hn, fun c hc => ?_⟩, h3⟩
  · unfold portOnly; rw [h1]; simp [hic]
  · obtain ⟨c', h5, h6, -⟩ := h4 c hc
    exact ⟨c', h5, h6⟩

/-- A data-side probe that faults. -/
theorem dProbe_raised {a : Word} {n : Nat} {s t : State} {f : Raise} (h : dProbe a n s = .raised f t) :
    portOnly s t ∧ f.kind = .segment ∧ probeFaultsAt .dc a n s f.addr ∧ refillStopped .dc a n s t := by
  obtain ⟨h1, h2, h3, h4, h5⟩ := cacheProbe_raised h
  have hic : t.ic = s.ic := h2 .ic (by decide)
  refine ⟨?_, h3, h4, h5⟩
  unfold portOnly; rw [h1]; simp [hic]

/-- A data-side probe whose check goes through gets to its end. -/
theorem dProbe_of_ok {a : Word} {n : Nat} {s : State} (h : probeOk .dc a n s) : ∃ hit t, dProbe a n s = .done hit t := by
  obtain ⟨hit, h⟩ := (cacheProbe_done_iff .dc a n s).2 h
  exact ⟨hit, _, h⟩

/-- A data-side probe whose refill meets a block that may not be read faults there. -/
theorem dProbe_of_faults {a : Word} {n : Nat} {s : State} {base : Word} (h : probeFaultsAt .dc a n s base) :
    ∃ t, dProbe a n s = .raised { kind := .segment, addr := base } t :=
  ⟨_, (cacheProbe_raised_iff .dc a n s { kind := .segment, addr := base }).2 ⟨rfl, h⟩⟩

/-! ### Loads (R178) -/

/-- The value that a load reads (R60). -/
def State.loaded (s : State) (a : Word) (n : Nat) : Word :=
  valueOfBytes s.params.byteOrder (Memory.readBytes s.mem a.toNat n)

/-- Where the lines of a load get to their end: the value read, everything but the data cache and the port
as it was. -/
theorem loadValue_done {rn : RegNum} {a : Word} {n : Nat} {s t : State} {v : Word}
    (h : loadValue rn a n s = .done v t) :
    baseOk rn s ∧ probeOk .dc a n s ∧ s.params.memValid a n .load = true ∧ v = s.loaded a n ∧ portOnly s t ∧
      dataChecked a n s t ∧ (s.dc = none → t.port = s.port ++ [.read a n]) := by
  by_cases hb : baseOk rn s
  · unfold loadValue at h
    rw [spCheck_ok hb, Run.andThen_done] at h
    obtain ⟨hit, u, hu, hr⟩ := Run.andThen_eq_done h
    obtain ⟨h1, h2, h3⟩ := dProbe_done hu
    rw [memRead_eq] at hr
    have hp : u.params = s.params := by rw [h1]
    have hm : u.mem = s.mem := by rw [h1]
    rw [hp, hm] at hr
    split at hr
    · rename_i hv
      simp only [Run.done.injEq] at hr
      obtain ⟨rfl, rfl⟩ := hr
      refine ⟨hb, (cacheProbe_done_iff ..).1 ⟨hit, ?_⟩, hv, rfl, ?_, h2, fun hn => by rw [h3 hn]; rfl⟩
      · have : (cacheProbe .dc a n s).final = u := by
          show (dProbe a n s).final = u
          rw [hu]; rfl
        rw [this]; exact hu
      · unfold portOnly at h1 ⊢; rw [h1]; rfl
    · cases hr
  · unfold loadValue at h
    rw [(spCheck_fails hb).2] at h
    cases h

/-- Where the lines of a load raise: at the stack pointer, in the refill, or at the read itself; nothing but the
data cache and the port has changed. -/
theorem loadValue_raised {rn : RegNum} {a : Word} {n : Nat} {s t : State} {f : Raise}
    (h : loadValue rn a n s = .raised f t) :
    portOnly s t ∧
      ((¬ baseOk rn s ∧ rn = spIndex ∧ f = { kind := .spAlignment, addr := s.readReg spIndex } ∧ t = s) ∨
       (baseOk rn s ∧ f.kind = .segment ∧ probeFaultsAt .dc a n s f.addr) ∨
       (baseOk rn s ∧ f = { kind := .segment, addr := a } ∧ s.params.memValid a n .load = false)) := by
  by_cases hb : baseOk rn s
  · unfold loadValue at h
    rw [spCheck_ok hb, Run.andThen_done] at h
    rcases Run.andThen_eq_raised h with h | ⟨hit, u, hu, hr⟩
    · obtain ⟨h1, h2, h3, -⟩ := dProbe_raised h
      exact ⟨h1, .inr (.inl ⟨hb, h2, h3⟩)⟩
    · obtain ⟨h1, h2, h3⟩ := dProbe_done hu
      rw [memRead_eq] at hr
      have hp : u.params = s.params := by rw [h1]
      rw [hp] at hr
      split at hr
      · cases hr
      · rename_i hv
        simp only [Run.raised.injEq] at hr
        obtain ⟨rfl, rfl⟩ := hr
        refine ⟨?_, .inr (.inr ⟨hb, rfl, by simpa using hv⟩)⟩
        unfold portOnly at h1 ⊢; rw [h1]; rfl
  · unfold loadValue at h
    obtain ⟨h1, h2⟩ := spCheck_fails hb
    rw [h2] at h
    simp only [Run.andThen_raised, Run.raised.injEq] at h
    obtain ⟨rfl, rfl⟩ := h
    exact ⟨rfl, .inl ⟨hb, h1, rfl, rfl⟩⟩

/-- A load gets to its end when nothing stands in its way (R178). -/
theorem loadValue_of_ok {rn : RegNum} {a : Word} {n : Nat} {s : State} (hb : baseOk rn s) (hp : probeOk .dc a n s)
    (hv : s.params.memValid a n .load = true) : ∃ t, loadValue rn a n s = .done (s.loaded a n) t := by
  obtain ⟨hit, u, hu⟩ := dProbe_of_ok hp
  obtain ⟨h1, -, -⟩ := dProbe_done hu
  have hp : u.params = s.params := by rw [h1]
  have hm : u.mem = s.mem := by rw [h1]
  refine ⟨u.issue [.read a n], ?_⟩
  unfold loadValue
  rw [spCheck_ok hb, Run.andThen_done, hu, Run.andThen_done, memRead_eq, hp, if_pos hv, hm]
  rfl

/-- A load's refill faults at its block request (R92, R98). -/
theorem loadValue_of_faults {rn : RegNum} {a : Word} {n : Nat} {s : State} {base : Word} (hb : baseOk rn s)
    (hp : probeFaultsAt .dc a n s base) :
    ∃ t, loadValue rn a n s = .raised { kind := .segment, addr := base } t ∧
      refillStopped .dc a n s t := by
  obtain ⟨t, ht⟩ := dProbe_of_faults hp
  refine ⟨t, ?_, (dProbe_raised ht).2.2.2⟩
  unfold loadValue
  rw [spCheck_ok hb, Run.andThen_done, ht, Run.andThen_raised]

/-- A load of an address that is not valid faults at it, after its check (R60, R178). -/
theorem loadValue_of_invalid {rn : RegNum} {a : Word} {n : Nat} {s : State} (hb : baseOk rn s)
    (hp : probeOk .dc a n s) (hv : s.params.memValid a n .load = false) :
    ∃ t, loadValue rn a n s = .raised { kind := .segment, addr := a } t ∧ dataChecked a n s t := by
  obtain ⟨hit, u, hu⟩ := dProbe_of_ok hp
  obtain ⟨h1, h2, -⟩ := dProbe_done hu
  have hp : u.params = s.params := by rw [h1]
  refine ⟨u.issue [.read a n], ?_, h2⟩
  unfold loadValue
  rw [spCheck_ok hb, Run.andThen_done, hu, Run.andThen_done, memRead_eq, hp, hv]
  rfl

/-- The value a load gives, bit by bit, with the extension that its form applies (R66). -/
theorem loaded_extension (s : State) (a : Word) (n : Nat) (signed : Bool) (e : Extension)
    (h : (n = 8 ∧ signed = false ∧ e = .identity) ∨ (n = 4 ∧ signed = true ∧ e = .sext32) ∨
      (n = 2 ∧ signed = false ∧ e = .zext16) ∨ (n = 1 ∧ signed = false ∧ e = .zext8)) :
    loadsValue s a.toNat n signed (e.apply (s.loaded a n)) := by
  intro j hj
  rcases h with ⟨rfl, rfl, rfl⟩ | ⟨rfl, rfl, rfl⟩ | ⟨rfl, rfl, rfl⟩ | ⟨rfl, rfl, rfl⟩
  · have hj' : j < 8 * 8 := by omega
    simp only [Extension.apply, State.loaded]
    rw [memRead_value_getLsbD s _ _ j hj, if_pos hj', if_pos hj']
  · simp only [Extension.apply, State.loaded, BitVec.getLsbD_signExtend, BitVec.msb_eq_getLsbD_last,
      BitVec.getLsbD_setWidth, hj, decide_true, Bool.true_and]
    by_cases h : j < 32
    · have hj' : j < 8 * 4 := by omega
      simp only [h, decide_true, Bool.true_and, if_true]
      rw [memRead_value_getLsbD s _ _ j hj, if_pos hj']
    · simp only [h, if_false]
      rw [memRead_value_getLsbD s _ _ _ (by omega)]
      simp
  · simp only [Extension.apply, State.loaded, BitVec.getLsbD_setWidth, hj, decide_true, Bool.true_and]
    rw [memRead_value_getLsbD s _ _ j hj]
    by_cases h : j < 16 <;> simp [h]
  · simp only [Extension.apply, State.loaded, BitVec.getLsbD_setWidth, hj, decide_true, Bool.true_and]
    rw [memRead_value_getLsbD s _ _ j hj]
    by_cases h : j < 8 <;> simp [h]

/-! ### Stores (R179) -/

/-- Where the write and the check of a store get to their end (R97). -/
theorem dProbeW_done {a : Word} {n : Nat} {v : Word} {s t : State} {hit : Bool} (h : dProbeW a n v s = .done hit t) :
    s.params.memValid a n .store = true ∧ dProbe a n (s.written a n v) = .done hit t := by
  unfold dProbeW cacheProbeW at h
  rw [memWrite_eq] at h
  split at h
  · exact ⟨‹_›, h⟩
  · cases h

/-- Where they raise: at the write, which then stores nothing, or in the refill, memory being written. -/
theorem dProbeW_raised {a : Word} {n : Nat} {v : Word} {s t : State} {f : Raise} (h : dProbeW a n v s = .raised f t) :
    (s.params.memValid a n .store = false ∧ f = { kind := .segment, addr := a } ∧
      t = s.issue [.write a n (lowBytes n v)]) ∨
    (s.params.memValid a n .store = true ∧ dProbe a n (s.written a n v) = .raised f t) := by
  unfold dProbeW cacheProbeW at h
  rw [memWrite_eq] at h
  split at h
  · exact .inr ⟨‹_›, h⟩
  · rename_i hv
    simp only [Run.andThen_raised, Run.raised.injEq] at h
    exact .inl ⟨by simpa using hv, h.1.symm, h.2.symm⟩

/-- A check goes through after the write when it goes through before (R97): it does not read memory's bytes. -/
theorem probeOk_written {a b : Word} {n m : Nat} {v : Word} {s : State} (h : probeOk .dc b m s) :
    probeOk .dc b m (s.written a n v) := h

/-- A store's lines (R179), once its base has passed the stack-pointer check. -/
theorem store_eq {rt rn : RegNum} {off : BitVec 9} {n : Nat} {s : State} (hb : baseOk rn s) :
    store rt rn off n s =
      (dProbeW (s.effAddr rn off) n (s.readReg rt) s).andThen fun _ t => .done () (t.clearTagOn (s.effAddr rn off) n) := by
  unfold store
  rw [spCheck_ok hb, Run.andThen_done]

/-- A store whose base fails the stack-pointer check (R176). -/
theorem store_fails {rt rn : RegNum} {off : BitVec 9} {n : Nat} {s : State} (hb : ¬ baseOk rn s) :
    rn = spIndex ∧ store rt rn off n s = .raised { kind := .spAlignment, addr := s.readReg spIndex } s := by
  obtain ⟨h1, h2⟩ := spCheck_fails hb
  refine ⟨h1, ?_⟩
  unfold store
  rw [h2, Run.andThen_raised]

/-- Where a store gets to its end: the bytes stored, the tag cleared on overlap, nothing else changed but the
data cache and the port. -/
theorem store_done {rt rn : RegNum} {off : BitVec 9} {n : Nat} {s t : State} {x : Unit}
    (h : store rt rn off n s = .done x t) :
    baseOk rn s ∧ s.params.memValid (s.effAddr rn off) n .store = true ∧
      ∃ u hit, dProbe (s.effAddr rn off) n (s.written (s.effAddr rn off) n (s.readReg rt)) = .done hit u ∧
        t = u.clearTagOn (s.effAddr rn off) n := by
  by_cases hb : baseOk rn s
  · rw [store_eq hb] at h
    obtain ⟨hit, u, hu, ht⟩ := Run.andThen_eq_done h
    simp only [Run.done.injEq, true_and] at ht
    obtain ⟨h1, h2⟩ := dProbeW_done hu
    exact ⟨hb, h1, u, hit, h2, ht.symm⟩
  · rw [(store_fails hb).2] at h; cases h

/-- Where a store raises. -/
theorem store_raised {rt rn : RegNum} {off : BitVec 9} {n : Nat} {s t : State} {f : Raise}
    (h : store rt rn off n s = .raised f t) :
    (¬ baseOk rn s ∧ rn = spIndex ∧ f = { kind := .spAlignment, addr := s.readReg spIndex } ∧ t = s) ∨
    (baseOk rn s ∧ s.params.memValid (s.effAddr rn off) n .store = false ∧
      f = { kind := .segment, addr := s.effAddr rn off } ∧
      t = s.issue [.write (s.effAddr rn off) n (lowBytes n (s.readReg rt))]) ∨
    (baseOk rn s ∧ s.params.memValid (s.effAddr rn off) n .store = true ∧
      dProbe (s.effAddr rn off) n (s.written (s.effAddr rn off) n (s.readReg rt)) = .raised f t) := by
  by_cases hb : baseOk rn s
  · rw [store_eq hb] at h
    rcases Run.andThen_eq_raised h with h | ⟨hit, u, -, hr⟩
    · rcases dProbeW_raised h with h | h
      · exact .inr (.inl ⟨hb, h⟩)
      · exact .inr (.inr ⟨hb, h⟩)
    · cases hr
  · obtain ⟨h1, h2⟩ := store_fails (rt := rt) (off := off) (n := n) hb
    rw [h2, Run.raised.injEq] at h
    exact .inl ⟨hb, h1, h.1.symm, h.2.symm⟩

/-! ### Exclusives (R196, R197) -/

/-- The state after an STXR that did not match (R197). -/
def State.stxrFailed (s : State) (rs : RegNum) : State := { s.writeReg rs 1 with stxrOk := false }

/-- The state after an STXR that matched, its transfer made (R197). -/
def State.stxrDone (s : State) (rs : RegNum) : State := { s.writeReg rs 0 with xtag := none, stxrOk := true }

@[simp] theorem State.stxrFailed_idx (s : State) (rs : RegNum) : (s.stxrFailed rs).idx = s.idx := State.writeReg_idx s rs 1
@[simp] theorem State.stxrFailed_flags (s : State) (rs : RegNum) : (s.stxrFailed rs).flags = s.flags := State.writeReg_flags s rs 1
@[simp] theorem State.stxrFailed_taken (s : State) (rs : RegNum) : (s.stxrFailed rs).taken = s.taken := State.writeReg_taken s rs 1
@[simp] theorem State.stxrFailed_ic (s : State) (rs : RegNum) : (s.stxrFailed rs).ic = s.ic := State.writeReg_ic s rs 1
@[simp] theorem State.stxrFailed_dc (s : State) (rs : RegNum) : (s.stxrFailed rs).dc = s.dc := State.writeReg_dc s rs 1
@[simp] theorem State.stxrFailed_prog (s : State) (rs : RegNum) : (s.stxrFailed rs).prog = s.prog := State.writeReg_prog s rs 1
@[simp] theorem State.stxrFailed_mem (s : State) (rs : RegNum) : (s.stxrFailed rs).mem = s.mem := State.writeReg_mem s rs 1
@[simp] theorem State.stxrFailed_params (s : State) (rs : RegNum) : (s.stxrFailed rs).params = s.params := State.writeReg_params s rs 1
@[simp] theorem State.stxrFailed_status (s : State) (rs : RegNum) : (s.stxrFailed rs).status = s.status := State.writeReg_status s rs 1
@[simp] theorem State.stxrFailed_port (s : State) (rs : RegNum) : (s.stxrFailed rs).port = s.port := State.writeReg_port s rs 1
@[simp] theorem State.stxrFailed_xtag (s : State) (rs : RegNum) : (s.stxrFailed rs).xtag = s.xtag := State.writeReg_xtag s rs 1
@[simp] theorem State.stxrDone_idx (s : State) (rs : RegNum) : (s.stxrDone rs).idx = s.idx := State.writeReg_idx s rs 0
@[simp] theorem State.stxrDone_flags (s : State) (rs : RegNum) : (s.stxrDone rs).flags = s.flags := State.writeReg_flags s rs 0
@[simp] theorem State.stxrDone_taken (s : State) (rs : RegNum) : (s.stxrDone rs).taken = s.taken := State.writeReg_taken s rs 0
@[simp] theorem State.stxrDone_ic (s : State) (rs : RegNum) : (s.stxrDone rs).ic = s.ic := State.writeReg_ic s rs 0
@[simp] theorem State.stxrDone_dc (s : State) (rs : RegNum) : (s.stxrDone rs).dc = s.dc := State.writeReg_dc s rs 0
@[simp] theorem State.stxrDone_prog (s : State) (rs : RegNum) : (s.stxrDone rs).prog = s.prog := State.writeReg_prog s rs 0
@[simp] theorem State.stxrDone_mem (s : State) (rs : RegNum) : (s.stxrDone rs).mem = s.mem := State.writeReg_mem s rs 0
@[simp] theorem State.stxrDone_params (s : State) (rs : RegNum) : (s.stxrDone rs).params = s.params := State.writeReg_params s rs 0
@[simp] theorem State.stxrDone_status (s : State) (rs : RegNum) : (s.stxrDone rs).status = s.status := State.writeReg_status s rs 0
@[simp] theorem State.stxrDone_port (s : State) (rs : RegNum) : (s.stxrDone rs).port = s.port := State.writeReg_port s rs 0
@[simp] theorem State.stxrFailed_stxrOk (s : State) (rs : RegNum) : (s.stxrFailed rs).stxrOk = false := rfl
@[simp] theorem State.stxrDone_stxrOk (s : State) (rs : RegNum) : (s.stxrDone rs).stxrOk = true := rfl
@[simp] theorem State.stxrDone_xtag (s : State) (rs : RegNum) : (s.stxrDone rs).xtag = none := rfl

/-- An STXR's lines (R197), once its base has passed the stack-pointer check. -/
theorem storeExclusive_eq {rt rs rn : RegNum} {s : State} (hb : baseOk rn s) :
    storeExclusive rt rs rn s =
      if s.xtag = some (s.readReg rn) then
        (dProbeW (s.readReg rn) 8 (s.readReg rt) s).andThen fun _ t => .done () (t.stxrDone rs)
      else .done () (s.stxrFailed rs) := by
  unfold storeExclusive
  rw [spCheck_ok hb, Run.andThen_done]
  rfl

/-- An STXR whose base fails the stack-pointer check (R176). -/
theorem storeExclusive_fails {rt rs rn : RegNum} {s : State} (hb : ¬ baseOk rn s) :
    rn = spIndex ∧ storeExclusive rt rs rn s = .raised { kind := .spAlignment, addr := s.readReg spIndex } s := by
  obtain ⟨h1, h2⟩ := spCheck_fails hb
  refine ⟨h1, ?_⟩
  unfold storeExclusive
  rw [h2, Run.andThen_raised]

/-- Where an STXR gets to its end: without a match nothing transferred, with one the doubleword stored. -/
theorem storeExclusive_done {rt rs rn : RegNum} {s t : State} {x : Unit} (h : storeExclusive rt rs rn s = .done x t) :
    baseOk rn s ∧
      ((s.xtag ≠ some (s.readReg rn) ∧ t = s.stxrFailed rs) ∨
       (s.xtag = some (s.readReg rn) ∧ s.params.memValid (s.readReg rn) 8 .store = true ∧
        ∃ u hit, dProbe (s.readReg rn) 8 (s.written (s.readReg rn) 8 (s.readReg rt)) = .done hit u ∧
          t = u.stxrDone rs)) := by
  by_cases hb : baseOk rn s
  · refine ⟨hb, ?_⟩
    rw [storeExclusive_eq hb] at h
    split at h
    · rename_i hx
      obtain ⟨hit, u, hu, ht⟩ := Run.andThen_eq_done h
      simp only [Run.done.injEq, true_and] at ht
      obtain ⟨h1, h2⟩ := dProbeW_done hu
      exact .inr ⟨hx, h1, u, hit, h2, ht.symm⟩
    · rename_i hx
      simp only [Run.done.injEq, true_and] at h
      exact .inl ⟨hx, h.symm⟩
  · rw [(storeExclusive_fails hb).2] at h; cases h

/-- Where an STXR raises. -/
theorem storeExclusive_raised {rt rs rn : RegNum} {s t : State} {f : Raise}
    (h : storeExclusive rt rs rn s = .raised f t) :
    (¬ baseOk rn s ∧ rn = spIndex ∧ f = { kind := .spAlignment, addr := s.readReg spIndex } ∧ t = s) ∨
    (baseOk rn s ∧ s.xtag = some (s.readReg rn) ∧
      ((s.params.memValid (s.readReg rn) 8 .store = false ∧ f = { kind := .segment, addr := s.readReg rn } ∧
        t = s.issue [.write (s.readReg rn) 8 (lowBytes 8 (s.readReg rt))]) ∨
       (s.params.memValid (s.readReg rn) 8 .store = true ∧
        dProbe (s.readReg rn) 8 (s.written (s.readReg rn) 8 (s.readReg rt)) = .raised f t))) := by
  by_cases hb : baseOk rn s
  · rw [storeExclusive_eq hb] at h
    split at h
    · rename_i hx
      rcases Run.andThen_eq_raised h with h | ⟨hit, u, -, hr⟩
      · exact .inr ⟨hb, hx, dProbeW_raised h⟩
      · cases hr
    · cases h
  · obtain ⟨h1, h2⟩ := storeExclusive_fails (rt := rt) (rs := rs) hb
    rw [h2, Run.raised.injEq] at h
    exact .inl ⟨hb, h1, h.1.symm, h.2.symm⟩

/-- The overlap test is a shared byte, modulo 2^64 (R195). -/
theorem overlap_eq (ea t : Word) (n : Nat) :
    overlap ea n t = true ↔ (ea - t).toNat < 8 ∨ (t - ea).toNat < n := by simp [overlap]

end Sys2Proof.Machine
end

