-- ==== Sys2Proof/Laws/Exec.lean ====
section
/-! SUPPORT. Once and for all instructions: everything an instruction that answers a next state can have done.
Claims about all instructions go by cases on `Effect`, not by unfolding the meanings. -/

namespace Sys2Proof.Machine

open Sys2Proof

/-- What a data-side probe and a load leave: nothing but the data cache and the port differs, and the data cache
stays well formed. -/
structure Probed (s u : State) : Prop where
  only : portOnly s u
  wf   : (∀ c, s.dc = some c → c.Wf) → ∀ c, u.dc = some c → c.Wf

theorem Probed.refl (s : State) : Probed s s := ⟨rfl, fun h => h⟩

theorem Probed.issue {s u : State} (h : Probed s u) (ts : List Transaction) : Probed s (u.issue ts) :=
  ⟨by have := h.only; unfold portOnly at this ⊢; rw [this]; rfl, h.wf⟩

/-- A data-side probe, whether or not it faults. -/
theorem dProbe_probed (a : Word) (n : Nat) (s : State) : Probed s (dProbe a n s).final := by
  cases h : dProbe a n s with
  | done hit t =>
    refine ⟨(dProbe_done h).1, fun hw c hc => ?_⟩
    cases hs : s.dc with
    | none => rw [show dProbe a n s = .done false s from cacheProbe_none (pos := .dc) hs a n] at h; cases h; exact hw c hc
    | some c' =>
      have := cacheProbe_cache (pos := .dc) (s := s) hs a n
      rw [show cacheProbe .dc a n s = .done hit t from h] at this
      rw [Run.final_done] at hc this
      rw [show t.dc = t.cacheAt .dc from rfl, this] at hc; cases hc
      exact Cache.check_wf (hw c' hs) a n fun _ _ _ => State.fetchBlock_length
  | raised f t =>
    refine ⟨(dProbe_raised h).1, fun hw c hc => ?_⟩
    cases hs : s.dc with
    | none => rw [show dProbe a n s = .done false s from cacheProbe_none (pos := .dc) hs a n] at h; cases h
    | some c' =>
      have := cacheProbe_cache (pos := .dc) (s := s) hs a n
      rw [show cacheProbe .dc a n s = .raised f t from h] at this
      rw [Run.final_raised] at hc this
      rw [show t.dc = t.cacheAt .dc from rfl, this] at hc; cases hc
      exact Cache.check_wf (hw c' hs) a n fun _ _ _ => State.fetchBlock_length

/-- The lines of a load, whether or not they raise. -/
theorem loadValue_probed (rn : RegNum) (a : Word) (n : Nat) (s : State) : Probed s (loadValue rn a n s).final := by
  by_cases hb : baseOk rn s
  · unfold loadValue
    rw [spCheck_ok hb, Run.andThen_done]
    have hp := dProbe_probed a n s
    cases hd : dProbe a n s with
    | done hit u =>
      rw [hd] at hp
      rw [Run.andThen_done, memRead_eq]
      split <;> exact hp.issue _
    | raised f u => rw [hd] at hp; exact hp
  · unfold loadValue
    rw [(spCheck_fails hb).2]
    exact Probed.refl s

/-- The mnemonics that only compute a register and, some of them, the flags (R35, R40). -/
def computing : List Mnemonic :=
  [.add, .addi, .adds, .addis, .sub, .subi, .subs, .subis, .and, .andi, .ands, .andis, .orr, .orri, .eor, .eori,
   .lsl, .lsr, .movz, .movk]

/-- The mnemonics that write the flags (R40). -/
def setters : List Mnemonic := [.adds, .addis, .subs, .subis, .ands, .andis]

/-- The load instructions (R66). -/
def loading : List Mnemonic := [.ldur, .ldursw, .ldurh, .ldurb]

/-- The store instructions (R66). -/
def storing : List Mnemonic := [.stur, .sturw, .sturh, .sturb]

/-- The memory instructions, whose base the stack-pointer check tests (R176). -/
def transferring : List Mnemonic := [.ldur, .ldursw, .ldurh, .ldurb, .stur, .sturw, .sturh, .sturb, .ldxr, .stxr]

/-- The instructions that can raise a segment fault (R240). -/
def faulting : List Mnemonic := [.ldur, .ldursw, .ldurh, .ldurb, .stur, .sturw, .sturh, .sturb, .ldxr, .stxr, .br]

/-- The instructions that store (R66, R197). -/
def writing : List Mnemonic := [.stur, .sturw, .sturh, .sturb, .stxr]

theorem loading_transferring {m : Mnemonic} (h : m ∈ loading) : m ∈ transferring ∧ m ∈ faulting ∧ m ∉ writing := by
  revert h; cases m <;> decide

theorem storing_transferring {m : Mnemonic} (h : m ∈ storing) : m ∈ transferring ∧ m ∈ faulting ∧ m ∈ writing := by
  revert h; cases m <;> decide

/-- The state after an LDXR that recorded its address (R196). -/
def State.ldxrDone (u : State) (rt : RegNum) (v a : Word) : State := { u.writeReg rt v with xtag := some a }

/-- Which instructions can raise which fault (R240), and what the stack-pointer fault reports. -/
def faultFits (i : Instr) (s : State) (f : Raise) : Prop :=
  match f.kind with
  | .pcAlignment => i.mnemonic = .br
  | .spAlignment => f.addr = s.readReg spIndex ∧ i.mnemonic ∈ transferring
  | .segment => i.mnemonic ∈ faulting

theorem faultFits_segment {i : Instr} {s : State} {f : Raise} (hk : f.kind = .segment)
    (hm : i.mnemonic ∈ faulting) : faultFits i s f := by
  unfold faultFits; rw [hk]; exact hm

theorem faultFits_sp {i : Instr} {s : State} (hm : i.mnemonic ∈ transferring) :
    faultFits i s { kind := .spAlignment, addr := s.readReg spIndex } := ⟨rfl, hm⟩

/-- The instruction stores the low `n` bytes of `v` at `a`, if its store is made (R66, R197). -/
def storesAs (i : Instr) (s : State) (a : Word) (n : Nat) (v : Word) : Prop :=
  (∃ f ∈ storeForms, ∃ rt rn off, i = f.instr rt rn off ∧ a = s.effAddr rn off ∧ n = f.size ∧ v = s.readReg rt) ∨
  ∃ rt rs rn, i = .stxr rt rs rn ∧ a = s.readReg rn ∧ n = 8 ∧ v = s.readReg rt

/-- Only the store instructions and STXR store. -/
theorem storesAs_writing {i : Instr} {s : State} {a : Word} {n : Nat} {v : Word} (h : storesAs i s a n v) :
    i.mnemonic ∈ writing := by
  rcases h with ⟨f, hf, rt, rn, off, rfl, -⟩ | ⟨rt, rs, rn, rfl, -⟩
  · simp only [storeForms, List.mem_cons, List.not_mem_nil, or_false] at hf
    rcases hf with rfl | rfl | rfl | rfl <;> exact of_decide_eq_true rfl
  · exact of_decide_eq_true rfl

/-- A store instruction stores at its effective address. -/
theorem storesAs_store {f : StoreForm} (hf : f ∈ storeForms) {rt rn : RegNum} {off : BitVec 9} {s : State} {a : Word}
    {n : Nat} {v : Word} :
    storesAs (f.instr rt rn off) s a n v ↔ a = s.effAddr rn off ∧ n = f.size ∧ v = s.readReg rt := by
  refine ⟨fun h => ?_, fun h => .inl ⟨f, hf, rt, rn, off, rfl, h⟩⟩
  rcases h with ⟨g, hg, rt', rn', off', hi, h⟩ | ⟨rt', rs', rn', hi, h⟩
  · simp only [storeForms, List.mem_cons, List.not_mem_nil, or_false] at hf hg
    rcases hf with rfl | rfl | rfl | rfl <;> rcases hg with rfl | rfl | rfl | rfl <;> cases hi <;> exact h
  · simp only [storeForms, List.mem_cons, List.not_mem_nil, or_false] at hf
    rcases hf with rfl | rfl | rfl | rfl <;> cases hi

/-- STXR stores its doubleword at its base. -/
theorem storesAs_stxr {rt rs rn : RegNum} {s : State} {a : Word} {n : Nat} {v : Word} :
    storesAs (.stxr rt rs rn) s a n v ↔ a = s.readReg rn ∧ n = 8 ∧ v = s.readReg rt := by
  refine ⟨fun h => ?_, fun h => .inr ⟨rt, rs, rn, rfl, h⟩⟩
  rcases h with ⟨g, hg, rt', rn', off', hi, h⟩ | ⟨rt', rs', rn', hi, h⟩
  · simp only [storeForms, List.mem_cons, List.not_mem_nil, or_false] at hg
    rcases hg with rfl | rfl | rfl | rfl <;> cases hi
  · cases hi; exact h

/-- Everything an instruction can have done when it answers a next state. -/
inductive Effect (i : Instr) (s : State) : State → Prop where
  /-- It computed a register, and the flags if it is one that sets them. -/
  | computes (rd : RegNum) (v : Word) (f : Flags) (hm : i.mnemonic ∈ computing)
      (ha : i.args[0]? = some (rd.toNat : Int)) (hf : f = s.flags ∨ i.mnemonic ∈ setters) :
      Effect i s ((s.writeReg rd v).setFlags f)
  /-- It did nothing: a load to register 31 or a branch not taken. -/
  | nothing : Effect i s s
  /-- It loaded a register. -/
  | loads (rt : RegNum) (v : Word) (u : State) (hm : i.mnemonic ∈ loading)
      (ha : i.args[0]? = some (rt.toNat : Int)) (hp : Probed s u) : Effect i s (u.writeReg rt v)
  /-- It loaded a register and recorded the address. -/
  | loadsExclusive (rt rn : RegNum) (off : BitVec 9) (v : Word) (u : State) (hi : i = .ldxr rt rn off)
      (hp : Probed s u) : Effect i s (u.ldxrDone rt v (s.effAddr rn off))
  /-- It stored bytes. -/
  | stores (f : StoreForm) (hf : f ∈ storeForms) (rt rn : RegNum) (off : BitVec 9) (u : State)
      (hi : i = f.instr rt rn off) (hv : s.params.memValid (s.effAddr rn off) f.size .store = true)
      (hp : Probed (s.written (s.effAddr rn off) f.size (s.readReg rt)) u) :
      Effect i s (u.clearTagOn (s.effAddr rn off) f.size)
  /-- It was an STXR without a matching tag. -/
  | stxrFails (rt rs rn : RegNum) (hi : i = .stxr rt rs rn) (hx : s.xtag ≠ some (s.readReg rn)) :
      Effect i s (s.stxrFailed rs)
  /-- It was an STXR with a matching tag, its doubleword stored. -/
  | stxrStores (rt rs rn : RegNum) (u : State) (hi : i = .stxr rt rs rn) (hx : s.xtag = some (s.readReg rn))
      (hv : s.params.memValid (s.readReg rn) 8 .store = true)
      (hp : Probed (s.written (s.readReg rn) 8 (s.readReg rt)) u) : Effect i s (u.stxrDone rs)
  /-- It branched inside the program. -/
  | branches (target : Nat) (ht : target ≤ s.plen) (hi : i.target? ≠ none ∨ i.mnemonic = .br) :
      Effect i s (s.branch target)
  /-- It linked and branched inside the program. -/
  | links (target : Nat) (ht : target ≤ s.plen) (hi : i = .bl target) :
      Effect i s ((s.writeReg lrIndex (s.instrAddr s.idx)).branch target)
  /-- It faulted before anything was written: at the stack pointer, at an address, or in a refill. If it stores
  and its fault is a segment fault, its address was not valid. -/
  | faults (f : Raise) (u : State) (hp : Probed s u) (hf : faultFits i s f)
      (hw : f.kind = .segment → ∀ a n v, storesAs i s a n v → s.params.memValid a n .store = false) :
      Effect i s (u.takeFault f)
  /-- It faulted in the refill after its store, with a data cache. -/
  | faultsAfterStore (f : Raise) (a : Word) (n : Nat) (v : Word) (u : State)
      (hv : s.params.memValid a n .store = true) (hp : Probed (s.written a n v) u) (hi : storesAs i s a n v)
      (hd : s.dc ≠ none) (hk : f.kind = .segment) : Effect i s (u.takeFault f)

/-- A fault of an instruction that does not store. -/
theorem Effect.faultsNoStore {i : Instr} {s u : State} (f : Raise) (hp : Probed s u) (hf : faultFits i s f)
    (hm : i.mnemonic ∉ writing) : Effect i s (u.takeFault f) :=
  .faults f u hp hf fun _ _ _ _ h => absurd (storesAs_writing h) hm

/-- A data-side probe raises only with a data cache. -/
theorem dc_of_dProbe_raised {a : Word} {n : Nat} {s t : State} {f : Raise} (h : dProbe a n s = .raised f t) :
    s.dc ≠ none := fun hs => by
  rw [show dProbe a n s = .done false s from cacheProbe_none (pos := .dc) hs a n] at h; cases h

/-- A load instruction's effect. -/
theorem load_effect {i : Instr} {rt rn : RegNum} {off : BitVec 9} {n : Nat} {e : Extension} {s t : State}
    (hm : i.mnemonic ∈ loading) (ha : i.args[0]? = some (rt.toNat : Int))
    (h : (load rt rn off n e s).outcome = .next t) : Effect i s t := by
  unfold load at h
  split at h
  · cases h; exact .nothing
  · have hp := loadValue_probed rn (s.effAddr rn off) n s
    cases hl : loadValue rn (s.effAddr rn off) n s with
    | done v u =>
      rw [hl] at h hp; cases h
      exact .loads rt _ u hm ha hp
    | raised f u =>
      rw [hl] at h hp; cases h
      obtain ⟨hmem, hmem', hw⟩ := loading_transferring hm
      rcases (loadValue_raised hl).2 with ⟨-, -, rfl, -⟩ | ⟨-, hk, -⟩ | ⟨-, rfl, -⟩
      · exact .faultsNoStore _ hp (faultFits_sp hmem) hw
      · exact .faultsNoStore f hp (faultFits_segment hk hmem') hw
      · exact .faultsNoStore _ hp (faultFits_segment rfl hmem') hw

/-- A store instruction's effect. -/
theorem store_effect {i : Instr} (f : StoreForm) (hf : f ∈ storeForms) {rt rn : RegNum} {off : BitVec 9} {s t : State}
    (hi : i = f.instr rt rn off) (hm : i.mnemonic ∈ storing)
    (h : (store rt rn off f.size s).outcome = .next t) : Effect i s t := by
  obtain ⟨hmem, hmem', -⟩ := storing_transferring hm
  rcases Run.outcome_cases _ h with h' | ⟨g, u, h', rfl⟩
  · obtain ⟨-, hv, u, hit, hu, rfl⟩ := store_done h'
    have hp := dProbe_probed (s.effAddr rn off) f.size (s.written (s.effAddr rn off) f.size (s.readReg rt))
    rw [hu] at hp
    exact .stores f hf rt rn off u hi hv hp
  · rcases store_raised h' with ⟨-, -, rfl, rfl⟩ | ⟨-, hv, rfl, rfl⟩ | ⟨-, hv, hu⟩
    · exact .faults _ _ (Probed.refl _) (faultFits_sp hmem) nofun
    · refine .faults _ _ ((Probed.refl s).issue _) (faultFits_segment rfl hmem') fun _ a n v h => ?_
      obtain ⟨rfl, rfl, -⟩ := (storesAs_store hf).1 (hi ▸ h)
      assumption
    · have hp := dProbe_probed (s.effAddr rn off) f.size (s.written (s.effAddr rn off) f.size (s.readReg rt))
      rw [hu] at hp
      exact .faultsAfterStore g _ _ _ u hv hp (hi ▸ (storesAs_store hf).2 ⟨rfl, rfl, rfl⟩) (fun h => dc_of_dProbe_raised hu h)
        (dProbe_raised hu).2.1

/-- LDXR's effect (R196). -/
theorem ldxr_effect {rt rn : RegNum} {off : BitVec 9} {s t : State} (h : execLdxr rt rn off s = .next t) :
    Effect (.ldxr rt rn off) s t := by
  unfold execLdxr at h
  split at h
  · cases h
  · unfold loadExclusive at h
    dsimp only at h
    have hp := loadValue_probed rn (s.effAddr rn off) 8 s
    cases hl : loadValue rn (s.effAddr rn off) 8 s with
    | done v u =>
      rw [hl] at h hp; cases h
      exact .loadsExclusive rt rn off v u rfl hp
    | raised f u =>
      rw [hl] at h hp; cases h
      have hmem : Mnemonic.ldxr ∈ transferring := by decide
      have hmem' : Mnemonic.ldxr ∈ faulting := by decide
      have hw : Mnemonic.ldxr ∉ writing := by decide
      rcases (loadValue_raised hl).2 with ⟨-, -, rfl, -⟩ | ⟨-, hk, -⟩ | ⟨-, rfl, -⟩
      · exact .faultsNoStore _ hp (faultFits_sp hmem) hw
      · exact .faultsNoStore f hp (faultFits_segment hk hmem') hw
      · exact .faultsNoStore _ hp (faultFits_segment rfl hmem') hw

/-- STXR's effect (R197). -/
theorem stxr_effect {rt rs rn : RegNum} {s t : State} (h : execStxr rt rs rn s = .next t) :
    Effect (.stxr rt rs rn) s t := by
  have hmem : Mnemonic.stxr ∈ transferring := by decide
  have hmem' : Mnemonic.stxr ∈ faulting := by decide
  rcases Run.outcome_cases _ h with h' | ⟨g, u, h', rfl⟩
  · rcases (storeExclusive_done h').2 with ⟨hx, rfl⟩ | ⟨hx, hv, u, hit, hu, rfl⟩
    · exact .stxrFails rt rs rn rfl hx
    · have hp := dProbe_probed (s.readReg rn) 8 (s.written (s.readReg rn) 8 (s.readReg rt))
      rw [hu] at hp
      exact .stxrStores rt rs rn u rfl hx hv hp
  · rcases storeExclusive_raised h' with ⟨-, -, rfl, rfl⟩ | ⟨-, -, ⟨hv, rfl, rfl⟩ | ⟨hv, hu⟩⟩
    · exact .faults _ _ (Probed.refl _) (faultFits_sp hmem) nofun
    · refine .faults _ _ ((Probed.refl s).issue _) (faultFits_segment rfl hmem') fun _ a n v h => ?_
      obtain ⟨rfl, rfl, -⟩ := storesAs_stxr.1 h
      exact hv
    · have hp := dProbe_probed (s.readReg rn) 8 (s.written (s.readReg rn) 8 (s.readReg rt))
      rw [hu] at hp
      exact .faultsAfterStore g _ _ _ u hv hp (storesAs_stxr.2 ⟨rfl, rfl, rfl⟩) (fun h => dc_of_dProbe_raised hu h)
        (dProbe_raised hu).2.1

/-- All that a conditional branch can do (R205, R113). -/
theorem branchWhen_cases {cond : Bool} {target : Int} {s t : State} (h : branchWhen cond target s = .next t) :
    0 ≤ target ∧ target ≤ s.plen ∧ (cond = true ∧ t = s.branch target.toNat ∨ cond = false ∧ t = s) := by
  unfold branchWhen at h
  split at h
  · rename_i ht
    simp only [targetOk, inRange, Bool.and_eq_true, decide_eq_true_eq] at ht
    cases cond <;> cases h <;> simp [ht]
  · cases h

/-- The effect of a branch that links nothing. -/
theorem branchWhen_effect {i : Instr} {cond : Bool} {target : Int} {s t : State} (hi : i.target? ≠ none)
    (h : branchWhen cond target s = .next t) : Effect i s t := by
  obtain ⟨h0, h1, ⟨-, rfl⟩ | ⟨-, rfl⟩⟩ := branchWhen_cases h
  · exact .branches _ (by omega) (.inl hi)
  · exact .nothing

/-- BL's effect (R232). -/
theorem bl_effect {target : Int} {s t : State} (h : execBl target s = .next t) : Effect (.bl target) s t := by
  obtain ⟨h0, h1, ⟨-, rfl⟩ | ⟨hc, -⟩⟩ := branchWhen_cases h
  · refine .links target.toNat ?_ (by rw [Int.toNat_of_nonneg h0])
    have : (s.writeReg lrIndex (s.instrAddr s.idx)).plen = s.plen := State.plen_congr (by simp)
    omega
  · cases hc

/-- An address lies within the text segment: from `TEXT_BASE` to the address after the last instruction (R233). -/
theorem State.inText_iff (s : State) (a : Word) :
    s.inText a = true ↔
      s.params.textBase.toNat ≤ a.toNat ∧ a.toNat ≤ s.params.textBase.toNat + 4 * s.plen := by
  simp only [State.inText, Bool.and_eq_true, decide_eq_true_eq]; rfl

/-- BR's effect (R233). -/
theorem br_effect {rn : RegNum} {s t : State} (h : execBr rn s = .next t) : Effect (.br rn) s t := by
  unfold execBr branchRegister at h
  dsimp only at h
  split at h
  · cases h
    exact .faultsNoStore _ (Probed.refl s) rfl (of_decide_eq_true rfl)
  · split at h
    · rename_i hin
      rw [State.inText_iff] at hin
      cases h
      refine .branches _ ?_ (.inr rfl)
      simp only [isize]
      omega
    · cases h
      exact .faultsNoStore _ (Probed.refl s) (faultFits_segment rfl (show Mnemonic.br ∈ faulting by decide))
        (of_decide_eq_true rfl)

/-- The effect of an instruction that computes a register and no flag. -/
theorem write_effect {i : Instr} (rd : RegNum) (v : Word) {s : State} (hm : i.mnemonic ∈ computing)
    (ha : i.args[0]? = some (rd.toNat : Int)) : Effect i s (s.writeReg rd v) := by
  have h := Effect.computes (i := i) (s := s) rd v s.flags hm ha (.inl rfl)
  have he : (s.writeReg rd v).setFlags s.flags = s.writeReg rd v := by
    rw [← State.writeReg_flags s rd v]; rfl
  rwa [he] at h

/-- Everything an instruction that answers a next state can have done. -/
theorem exec_effect {i : Instr} {s t : State} (h : exec i s = .next t) : Effect i s t := by
  cases i with
  | ldur rt rn off => exact load_effect (of_decide_eq_true rfl) rfl h
  | ldursw rt rn off => exact load_effect (of_decide_eq_true rfl) rfl h
  | ldurh rt rn off => exact load_effect (of_decide_eq_true rfl) rfl h
  | ldurb rt rn off => exact load_effect (of_decide_eq_true rfl) rfl h
  | stur rt rn off => exact store_effect ⟨.stur, 8⟩ (by simp [storeForms]) rfl (of_decide_eq_true rfl) h
  | sturw rt rn off => exact store_effect ⟨.sturw, 4⟩ (by simp [storeForms]) rfl (of_decide_eq_true rfl) h
  | sturh rt rn off => exact store_effect ⟨.sturh, 2⟩ (by simp [storeForms]) rfl (of_decide_eq_true rfl) h
  | sturb rt rn off => exact store_effect ⟨.sturb, 1⟩ (by simp [storeForms]) rfl (of_decide_eq_true rfl) h
  | ldxr rt rn off => exact ldxr_effect h
  | stxr rt rs rn => exact stxr_effect h
  | bl target => exact bl_effect h
  | br rn => exact br_effect h
  | adds rd rn rm => cases h; exact .computes rd _ _ (of_decide_eq_true rfl) rfl (.inr (of_decide_eq_true rfl))
  | addis rd rn imm => cases h; exact .computes rd _ _ (of_decide_eq_true rfl) rfl (.inr (of_decide_eq_true rfl))
  | subs rd rn rm => cases h; exact .computes rd _ _ (of_decide_eq_true rfl) rfl (.inr (of_decide_eq_true rfl))
  | subis rd rn imm => cases h; exact .computes rd _ _ (of_decide_eq_true rfl) rfl (.inr (of_decide_eq_true rfl))
  | ands rd rn rm => cases h; exact .computes rd _ _ (of_decide_eq_true rfl) rfl (.inr (of_decide_eq_true rfl))
  | andis rd rn imm => cases h; exact .computes rd _ _ (of_decide_eq_true rfl) rfl (.inr (of_decide_eq_true rfl))
  | add rd rn rm => cases h; exact write_effect rd _ (of_decide_eq_true rfl) rfl
  | addi rd rn imm => cases h; exact write_effect rd _ (of_decide_eq_true rfl) rfl
  | sub rd rn rm => cases h; exact write_effect rd _ (of_decide_eq_true rfl) rfl
  | subi rd rn imm => cases h; exact write_effect rd _ (of_decide_eq_true rfl) rfl
  | and rd rn rm => cases h; exact write_effect rd _ (of_decide_eq_true rfl) rfl
  | andi rd rn imm => cases h; exact write_effect rd _ (of_decide_eq_true rfl) rfl
  | orr rd rn rm => cases h; exact write_effect rd _ (of_decide_eq_true rfl) rfl
  | orri rd rn imm => cases h; exact write_effect rd _ (of_decide_eq_true rfl) rfl
  | eor rd rn rm => cases h; exact write_effect rd _ (of_decide_eq_true rfl) rfl
  | eori rd rn imm => cases h; exact write_effect rd _ (of_decide_eq_true rfl) rfl
  | lsl rd rn shamt => cases h; exact write_effect rd _ (of_decide_eq_true rfl) rfl
  | lsr rd rn shamt => cases h; exact write_effect rd _ (of_decide_eq_true rfl) rfl
  | movz rd imm16 hw => cases h; exact write_effect rd _ (of_decide_eq_true rfl) rfl
  | movk rd imm16 hw => cases h; exact write_effect rd _ (of_decide_eq_true rfl) rfl
  | cbz rt target => exact branchWhen_effect nofun h
  | cbnz rt target => exact branchWhen_effect nofun h
  | beq target => exact branchWhen_effect nofun h
  | bne target => exact branchWhen_effect nofun h
  | bhs target => exact branchWhen_effect nofun h
  | blo target => exact branchWhen_effect nofun h
  | bhi target => exact branchWhen_effect nofun h
  | bls target => exact branchWhen_effect nofun h
  | bge target => exact branchWhen_effect nofun h
  | blt target => exact branchWhen_effect nofun h
  | bgt target => exact branchWhen_effect nofun h
  | ble target => exact branchWhen_effect nofun h
  | bmi target => exact branchWhen_effect nofun h
  | bpl target => exact branchWhen_effect nofun h
  | bvs target => exact branchWhen_effect nofun h
  | bvc target => exact branchWhen_effect nofun h
  | b target => exact branchWhen_effect nofun h

/-! ### The step -/

/-- All that a step that answers a next state can have done: completed; or faulted in the instruction-cache
probe; or run the instruction fetched, after that probe (R273, R274, R245). -/
theorem step_cases {s t : State} (h : stepOnce s = .next t) :
    (s.idx = s.plen ∧ t = s.complete) ∨
    ∃ slot i, s.idx ≠ s.plen ∧ s.prog[s.idx]? = some slot ∧ slot.form = .instr i ∧
      ((∃ f u, iProbe s.idx s.beginStep = .raised f u ∧ t = u.takeFault f) ∨
       ∃ hit u, iProbe s.idx s.beginStep = .done hit u ∧ exec i u = .next t) := by
  unfold stepOnce at h
  split at h
  · rename_i he; cases h; exact .inl ⟨he, rfl⟩
  · rename_i hne
    split at h
    · cases h
    · rename_i slot hs
      unfold runSlot at h
      split at h
      · rename_i i hi
        refine .inr ⟨slot, i, hne, hs, hi, ?_⟩
        unfold runInstr at h
        split at h
        · rename_i f u hu; cases h; exact .inl ⟨f, u, hu, rfl⟩
        · rename_i hit u hu; exact .inr ⟨hit, u, hu, h⟩
      · cases h
      · cases h

end Sys2Proof.Machine
end

