-- ==== Sys2Proof/Laws/PerInstr.lean ====
section
/-! SUPPORT. Statements about every instruction as syntax, one lemma per constructor. -/

namespace Sys2Proof.Laws.EncodesInItsRow

open Sys2Proof

/-- R123: the word of an instruction, wherever it stands, fits its own row of the opcode table. -/
def Statement (i : Instr) : Prop := ∀ k : Nat, ∃ r ∈ maskRows, r.mn = i.mnemonic ∧ r.fits (encode k i) = true

/-- A row of the table whose mask and match a word shows. -/
theorem of_row {i : Instr} (x : Mnemonic) (mask bits : InstrWord) (hr : (⟨x, mask, bits⟩ : MaskRow) ∈ maskRows)
    (hx : x = i.mnemonic) (h : ∀ k, (⟨x, mask, bits⟩ : MaskRow).fits (encode k i) = true) : Statement i :=
  fun k => ⟨_, hr, hx, h k⟩

theorem add (rd : RegNum) (rn : RegNum) (rm : RegNum) : Statement (.add rd rn rm) :=
  of_row .add 0xFFE00000 0x8B000000 (by decide) rfl fun _ => encodeR_fits (by decide)

theorem addi (rd : RegNum) (rn : RegNum) (imm : BitVec 12) : Statement (.addi rd rn imm) :=
  of_row .addi 0xFFC00000 0x91000000 (by decide) rfl fun _ => encodeI_fits (by decide)

theorem adds (rd : RegNum) (rn : RegNum) (rm : RegNum) : Statement (.adds rd rn rm) :=
  of_row .adds 0xFFE00000 0xAB000000 (by decide) rfl fun _ => encodeR_fits (by decide)

theorem addis (rd : RegNum) (rn : RegNum) (imm : BitVec 12) : Statement (.addis rd rn imm) :=
  of_row .addis 0xFFC00000 0xB1000000 (by decide) rfl fun _ => encodeI_fits (by decide)

theorem sub (rd : RegNum) (rn : RegNum) (rm : RegNum) : Statement (.sub rd rn rm) :=
  of_row .sub 0xFFE00000 0xCB000000 (by decide) rfl fun _ => encodeR_fits (by decide)

theorem subi (rd : RegNum) (rn : RegNum) (imm : BitVec 12) : Statement (.subi rd rn imm) :=
  of_row .subi 0xFFC00000 0xD1000000 (by decide) rfl fun _ => encodeI_fits (by decide)

theorem subs (rd : RegNum) (rn : RegNum) (rm : RegNum) : Statement (.subs rd rn rm) :=
  of_row .subs 0xFFE00000 0xEB000000 (by decide) rfl fun _ => encodeR_fits (by decide)

theorem subis (rd : RegNum) (rn : RegNum) (imm : BitVec 12) : Statement (.subis rd rn imm) :=
  of_row .subis 0xFFC00000 0xF1000000 (by decide) rfl fun _ => encodeI_fits (by decide)

theorem and (rd : RegNum) (rn : RegNum) (rm : RegNum) : Statement (.and rd rn rm) :=
  of_row .and 0xFFE00000 0x8A000000 (by decide) rfl fun _ => encodeR_fits (by decide)

theorem andi (rd : RegNum) (rn : RegNum) (imm : BitVec 12) : Statement (.andi rd rn imm) :=
  of_row .andi 0xFFC00000 0x92000000 (by decide) rfl fun _ => encodeI_fits (by decide)

theorem ands (rd : RegNum) (rn : RegNum) (rm : RegNum) : Statement (.ands rd rn rm) :=
  of_row .ands 0xFFE00000 0xEA000000 (by decide) rfl fun _ => encodeR_fits (by decide)

theorem andis (rd : RegNum) (rn : RegNum) (imm : BitVec 12) : Statement (.andis rd rn imm) :=
  of_row .andis 0xFFC00000 0xF2000000 (by decide) rfl fun _ => encodeI_fits (by decide)

theorem orr (rd : RegNum) (rn : RegNum) (rm : RegNum) : Statement (.orr rd rn rm) :=
  of_row .orr 0xFFE00000 0xAA000000 (by decide) rfl fun _ => encodeR_fits (by decide)

theorem orri (rd : RegNum) (rn : RegNum) (imm : BitVec 12) : Statement (.orri rd rn imm) :=
  of_row .orri 0xFFC00000 0xB2000000 (by decide) rfl fun _ => encodeI_fits (by decide)

theorem eor (rd : RegNum) (rn : RegNum) (rm : RegNum) : Statement (.eor rd rn rm) :=
  of_row .eor 0xFFE00000 0xCA000000 (by decide) rfl fun _ => encodeR_fits (by decide)

theorem eori (rd : RegNum) (rn : RegNum) (imm : BitVec 12) : Statement (.eori rd rn imm) :=
  of_row .eori 0xFFC00000 0xD2000000 (by decide) rfl fun _ => encodeI_fits (by decide)

theorem lsl (rd : RegNum) (rn : RegNum) (shamt : BitVec 6) : Statement (.lsl rd rn shamt) :=
  of_row .lsl 0xFFE00000 0xD3600000 (by decide) rfl fun _ => encodeR_fits (by decide)

theorem lsr (rd : RegNum) (rn : RegNum) (shamt : BitVec 6) : Statement (.lsr rd rn shamt) :=
  of_row .lsr 0xFFE00000 0xD3400000 (by decide) rfl fun _ => encodeR_fits (by decide)

theorem ldur (rt : RegNum) (rn : RegNum) (off : BitVec 9) : Statement (.ldur rt rn off) :=
  of_row .ldur 0xFFE00000 0xF8400000 (by decide) rfl fun _ => encodeD_fits (by decide)

theorem ldursw (rt : RegNum) (rn : RegNum) (off : BitVec 9) : Statement (.ldursw rt rn off) :=
  of_row .ldursw 0xFFE00000 0xB8800000 (by decide) rfl fun _ => encodeD_fits (by decide)

theorem ldurh (rt : RegNum) (rn : RegNum) (off : BitVec 9) : Statement (.ldurh rt rn off) :=
  of_row .ldurh 0xFFE00000 0x78400000 (by decide) rfl fun _ => encodeD_fits (by decide)

theorem ldurb (rt : RegNum) (rn : RegNum) (off : BitVec 9) : Statement (.ldurb rt rn off) :=
  of_row .ldurb 0xFFE00000 0x38400000 (by decide) rfl fun _ => encodeD_fits (by decide)

theorem stur (rt : RegNum) (rn : RegNum) (off : BitVec 9) : Statement (.stur rt rn off) :=
  of_row .stur 0xFFE00000 0xF8000000 (by decide) rfl fun _ => encodeD_fits (by decide)

theorem sturw (rt : RegNum) (rn : RegNum) (off : BitVec 9) : Statement (.sturw rt rn off) :=
  of_row .sturw 0xFFE00000 0xB8000000 (by decide) rfl fun _ => encodeD_fits (by decide)

theorem sturh (rt : RegNum) (rn : RegNum) (off : BitVec 9) : Statement (.sturh rt rn off) :=
  of_row .sturh 0xFFE00000 0x78000000 (by decide) rfl fun _ => encodeD_fits (by decide)

theorem sturb (rt : RegNum) (rn : RegNum) (off : BitVec 9) : Statement (.sturb rt rn off) :=
  of_row .sturb 0xFFE00000 0x38000000 (by decide) rfl fun _ => encodeD_fits (by decide)

theorem ldxr (rt : RegNum) (rn : RegNum) (off : BitVec 9) : Statement (.ldxr rt rn off) :=
  of_row .ldxr 0xFFE00000 0xC8400000 (by decide) rfl fun _ => encodeD_fits (by decide)

theorem stxr (rt : RegNum) (rs : RegNum) (rn : RegNum) : Statement (.stxr rt rs rn) :=
  of_row .stxr 0xFFE00000 0xC8000000 (by decide) rfl fun _ => encodeX_fits (by decide)

theorem movz (rd : RegNum) (imm16 : BitVec 16) (hw : BitVec 2) : Statement (.movz rd imm16 hw) :=
  of_row .movz 0xFF800000 0xD2800000 (by decide) rfl fun _ => encodeIM_fits (by decide)

theorem movk (rd : RegNum) (imm16 : BitVec 16) (hw : BitVec 2) : Statement (.movk rd imm16 hw) :=
  of_row .movk 0xFF800000 0xF2800000 (by decide) rfl fun _ => encodeIM_fits (by decide)

theorem cbz (rt : RegNum) (target : Int) : Statement (.cbz rt target) :=
  of_row .cbz 0xFF000000 0xB4000000 (by decide) rfl fun _ => encodeCB_fits (by decide)

theorem cbnz (rt : RegNum) (target : Int) : Statement (.cbnz rt target) :=
  of_row .cbnz 0xFF000000 0xB5000000 (by decide) rfl fun _ => encodeCB_fits (by decide)

theorem beq (target : Int) : Statement (.beq target) :=
  of_row .beq 0xFF00001F 0x54000000 (by decide) rfl fun _ => encodeCond_fits (by decide)

theorem bne (target : Int) : Statement (.bne target) :=
  of_row .bne 0xFF00001F 0x54000001 (by decide) rfl fun _ => encodeCond_fits (by decide)

theorem bhs (target : Int) : Statement (.bhs target) :=
  of_row .bhs 0xFF00001F 0x54000002 (by decide) rfl fun _ => encodeCond_fits (by decide)

theorem blo (target : Int) : Statement (.blo target) :=
  of_row .blo 0xFF00001F 0x54000003 (by decide) rfl fun _ => encodeCond_fits (by decide)

theorem bhi (target : Int) : Statement (.bhi target) :=
  of_row .bhi 0xFF00001F 0x54000008 (by decide) rfl fun _ => encodeCond_fits (by decide)

theorem bls (target : Int) : Statement (.bls target) :=
  of_row .bls 0xFF00001F 0x54000009 (by decide) rfl fun _ => encodeCond_fits (by decide)

theorem bge (target : Int) : Statement (.bge target) :=
  of_row .bge 0xFF00001F 0x5400000A (by decide) rfl fun _ => encodeCond_fits (by decide)

theorem blt (target : Int) : Statement (.blt target) :=
  of_row .blt 0xFF00001F 0x5400000B (by decide) rfl fun _ => encodeCond_fits (by decide)

theorem bgt (target : Int) : Statement (.bgt target) :=
  of_row .bgt 0xFF00001F 0x5400000C (by decide) rfl fun _ => encodeCond_fits (by decide)

theorem ble (target : Int) : Statement (.ble target) :=
  of_row .ble 0xFF00001F 0x5400000D (by decide) rfl fun _ => encodeCond_fits (by decide)

theorem bmi (target : Int) : Statement (.bmi target) :=
  of_row .bmi 0xFF00001F 0x54000004 (by decide) rfl fun _ => encodeCond_fits (by decide)

theorem bpl (target : Int) : Statement (.bpl target) :=
  of_row .bpl 0xFF00001F 0x54000005 (by decide) rfl fun _ => encodeCond_fits (by decide)

theorem bvs (target : Int) : Statement (.bvs target) :=
  of_row .bvs 0xFF00001F 0x54000006 (by decide) rfl fun _ => encodeCond_fits (by decide)

theorem bvc (target : Int) : Statement (.bvc target) :=
  of_row .bvc 0xFF00001F 0x54000007 (by decide) rfl fun _ => encodeCond_fits (by decide)

theorem b (target : Int) : Statement (.b target) :=
  of_row .b 0xFC000000 0x14000000 (by decide) rfl fun _ => encodeB_fits (by decide)

theorem bl (target : Int) : Statement (.bl target) :=
  of_row .bl 0xFC000000 0x94000000 (by decide) rfl fun _ => encodeB_fits (by decide)

theorem br (rn : RegNum) : Statement (.br rn) :=
  of_row .br 0xFFE00000 0xD6000000 (by decide) rfl fun _ => encodeR_fits (by decide)

end Sys2Proof.Laws.EncodesInItsRow
end

