-- ==== Sys2Proof/Tests/Slice0.lean ====
section
/-! SUPPORT. Our own tests: the smoke test of the well-formedness checks, the words of V-ENC, one-step tests from
the vectors of 95_test_vectors.md, and, for every statement with hypotheses, a state and operands that meet them
all together (`witness_…`). -/

namespace Sys2Proof.Tests

open Sys2Proof Sys2Proof.Machine

/-! ## Helpers -/

/-- `D` of 95_test_vectors.md. -/
def D : Word := 0x10000000
/-- `M64`. -/
def M64 : Word := 0xFFFFFFFFFFFFFFFF

/-- The state after reset with some registers set. -/
def st (rs : List (RegNum × Word)) : State := rs.foldl (fun s p => s.writeReg p.1 p.2) State.reset

/-- Flags from the letters N, Z, C, V. -/
def fl (n z c v : Nat) : Flags := { n := n == 1, z := z == 1, c := c == 1, v := v == 1 }

/-- What a next state shows. -/
def after {α : Type} (o : Host.Outcome State Fault Refusal) (f : State → α) : Option α :=
  match o with
  | .next t => some (f t)
  | _ => none

/-- The result in `x[1]` of an instruction run on registers. -/
def x1 (i : Instr) (rs : List (RegNum × Word)) : Option Word := after (exec i (st rs)) fun t => t.readReg 1

/-- The result in `x[1]` and the flags, all flags set before. -/
def x1f (i : Instr) (rs : List (RegNum × Word)) : Option (Word × Flags) :=
  after (exec i { st rs with flags := fl 1 1 1 1 }) fun t => (t.readReg 1, t.flags)

/-- A state with `D` in `x[2]` and bytes from `D` up. -/
def memState (rs : List (RegNum × Word)) (bs : List Byte) : State := (st ((2, D) :: rs)).hostWrite 0x10000000 bs

/-- A program of 12 positions, the instruction under test at 2 on line 7. -/
def prog12 (i : Instr) : List Slot :=
  [idleSlot, idleSlot, { form := .instr i, line := 7 }] ++ List.replicate 9 idleSlot

/-- The state before the step at position 2. -/
def at2 (i : Instr) (rs : List (RegNum × Word)) : State := { st rs with prog := prog12 i, idx := 2 }

/-- The index and the branch latch after the step at position 2. -/
def jump (i : Instr) (rs : List (RegNum × Word)) (f : Flags) : Option (Nat × Bool) :=
  after (step { at2 i rs with flags := f }) fun t => (t.idx, t.taken)

/-! ## Well-formedness (R113): an ill-formed record for each check -/

def failing (mn : Mnemonic) (args : List Int) : Option WfCheck := Record.failing 10 { mn := mn, args := args, line := 1 }

theorem test_wf_arity : failing .add [1, 2] = some .arity := by decide
theorem test_wf_reg : failing .add [1, 2, 32] = some .reg ∧ failing .stxr [1, -1, 2] = some .reg := by decide
theorem test_wf_imm12 : failing .addi [1, 2, 4096] = some .imm12 ∧ failing .addi [1, 2, 4095] = none := by decide
theorem test_wf_shamt : failing .lsl [1, 2, 64] = some .shamt ∧ failing .lsl [1, 2, 63] = none := by decide
theorem test_wf_off9 :
    failing .ldur [1, 2, 256] = some .off9 ∧ failing .ldur [1, 2, -257] = some .off9 ∧
    failing .ldur [1, 2, -256] = none := by decide
theorem test_wf_imm16 : failing .movz [1, 65536, 0] = some .imm16 ∧ failing .movz [1, 65535, 0] = none := by decide
theorem test_wf_movsh : failing .movk [1, 5, 8] = some .movsh ∧ failing .movk [1, 5, 48] = none := by decide
theorem test_wf_target :
    failing .b [11] = some .target ∧ failing .cbz [1, -1] = some .target ∧ failing .b [10] = none := by decide
theorem test_wf_ldxr_rt : failing .ldxr [31, 2, 0] = some .ldxrRt ∧ failing .ldur [31, 2, 0] = none := by decide

/-! ## Decoding and encoding (V-ENC) -/

/-- V-ENC: the words of the arith instructions, field by field from bit 31 down. -/
def arithWords : List (InstrWord × Instr) :=
  [ (0b10001011000_00011_000000_00010_00001, .add 1 2 3)
  , (0b1001000100_111111111111_00010_00001, .addi 1 2 4095)
  , (0b10101011000_00011_000000_00010_00001, .adds 1 2 3)
  , (0b1011000100_000000000001_01010_01001, .addis 9 10 1)
  , (0b11001011000_00011_000000_00010_00001, .sub 1 2 3)
  , (0b1101000100_000000010000_11100_11100, .subi 28 28 16)
  , (0b11101011000_00000_000000_00000_00000, .subs 0 0 0)
  , (0b1111000100_000000000001_00001_11111, .subis 31 1 1) ]

theorem test_decode_arith : (arithWords.all fun p => decode 5 p.1 == .ok p.2 && encode 5 p.2 == p.1) = true := by decide

/-- V-ENC: the words of the logic instructions, field by field from bit 31 down. -/
def logicWords : List (InstrWord × Instr) :=
  [ (0b10001010000_00110_000000_00101_00100, .and 4 5 6)
  , (0b1001001000_000011111111_00101_00100, .andi 4 5 255)
  , (0b11101010000_00100_000000_00010_11111, .ands 31 2 4)
  , (0b1111001000_000000000001_01000_00111, .andis 7 8 1)
  , (0b10101010000_00011_000000_11111_00001, .orr 1 31 3)
  , (0b1011001000_000000000001_00010_00001, .orri 1 2 1)
  , (0b11001010000_01100_000000_01011_01010, .eor 10 11 12)
  , (0b1101001000_111111111111_01011_01010, .eori 10 11 4095) ]

theorem test_decode_logic : (logicWords.all fun p => decode 5 p.1 == .ok p.2 && encode 5 p.2 == p.1) = true := by decide

/-- V-ENC: the words of the shift and move instructions, field by field from bit 31 down. -/
def shiftMoveWords : List (InstrWord × Instr) :=
  [ (0b11010011011_00000_111111_00010_00001, .lsl 1 2 63)
  , (0b11010011010_00000_000100_00010_00001, .lsr 1 2 4)
  , (0b110100101_01_0001001000110100_00001, .movz 1 0x1234 1)
  , (0b111100101_11_1010101111001101_00001, .movk 1 0xABCD 3) ]

theorem test_decode_shift_move : (shiftMoveWords.all fun p => decode 5 p.1 == .ok p.2 && encode 5 p.2 == p.1) = true := by decide

/-- V-ENC: the words of the transfer instructions, field by field from bit 31 down. -/
def transferWords : List (InstrWord × Instr) :=
  [ (0b11111000010_111111000_00_00010_00001, .ldur 1 2 (-8))
  , (0b10111000100_000000100_00_00010_00001, .ldursw 1 2 4)
  , (0b01111000010_000001010_00_00010_00001, .ldurh 1 2 10)
  , (0b00111000010_011111111_00_00010_00001, .ldurb 1 2 255)
  , (0b11111000000_000000000_00_11100_00001, .stur 1 28 0)
  , (0b10111000000_100000000_00_00010_00001, .sturw 1 2 (-256))
  , (0b01111000000_000000010_00_00010_00001, .sturh 1 2 2)
  , (0b00111000000_000000011_00_00010_00001, .sturb 1 2 3) ]

theorem test_decode_transfer : (transferWords.all fun p => decode 5 p.1 == .ok p.2 && encode 5 p.2 == p.1) = true := by decide

/-- V-ENC: the words of the exclusive instructions, field by field from bit 31 down. -/
def exclusiveWords : List (InstrWord × Instr) :=
  [ (0b11001000010_000000000_00_00010_00001, .ldxr 1 2 0)
  , (0b11001000000_00100_000000_00010_00011, .stxr 3 4 2) ]

theorem test_decode_exclusive : (exclusiveWords.all fun p => decode 5 p.1 == .ok p.2 && encode 5 p.2 == p.1) = true := by decide

/-- V-ENC: the words of the compare and uncond instructions, field by field from bit 31 down. -/
def compareUncondWords : List (InstrWord × Instr) :=
  [ (0b10110100_0000000000000000100_00001, .cbz 1 9)
  , (0b10110101_1111111111111111101_00001, .cbnz 1 2)
  , (0b000101_00000000000000000000000000, .b 5)
  , (0b100101_11111111111111111111111011, .bl 0)
  , (0b11010110000_11111_000000_11110_00000, .br 30) ]

theorem test_decode_compare_uncond : (compareUncondWords.all fun p => decode 5 p.1 == .ok p.2 && encode 5 p.2 == p.1) = true := by decide

/-- V-ENC: the words of the cond instructions, field by field from bit 31 down. -/
def condWords : List (InstrWord × Instr) :=
  [ (0b01010100_0000000000000000010_00000, .beq 7)
  , (0b01010100_1111111111111111110_00001, .bne 3)
  , (0b01010100_0000000000000000001_00010, .bhs 6)
  , (0b01010100_0000000000000000001_00011, .blo 6)
  , (0b01010100_0000000000000000001_00100, .bmi 6)
  , (0b01010100_0000000000000000001_00101, .bpl 6)
  , (0b01010100_0000000000000000001_00110, .bvs 6)
  , (0b01010100_0000000000000000001_00111, .bvc 6)
  , (0b01010100_0000000000000000001_01000, .bhi 6)
  , (0b01010100_0000000000000000001_01001, .bls 6)
  , (0b01010100_1111111111111111011_01010, .bge 0)
  , (0b01010100_0000000000000000111_01011, .blt 12)
  , (0b01010100_0000000000000000000_01100, .bgt 5)
  , (0b01010100_1111111111111111111_01101, .ble 4) ]

theorem test_decode_cond : (condWords.all fun p => decode 5 p.1 == .ok p.2 && encode 5 p.2 == p.1) = true := by decide

/-- R126, the illegal words of V-ENC. -/
theorem test_illegal_words :
    decode 5 0x00000000 = .error (.illegal 0x00000000) ∧ decode 5 0xFFFFFFFF = .error (.illegal 0xFFFFFFFF) ∧
    decode 5 0x5400000E = .error (.illegal 0x5400000E) ∧ decode 5 0x9B030041 = .error (.illegal 0x9B030041) := by
  decide

/-- Fields that a format ignores are ignored (R116, R118, R125). -/
theorem test_ignored_fields :
    decode 5 0x8B03FC41 = .ok (.add 1 2 3) ∧ decode 5 0xD37FFC41 = .ok (.lsl 1 2 63) ∧
    decode 5 0xF85F8C41 = .ok (.ldur 1 2 (-8)) ∧ decode 5 0xC804FC43 = .ok (.stxr 3 4 2) ∧
    decode 5 0xD600FFDF = .ok (.br 30) := by decide

theorem test_table_word :
    decodeTableWord 32 0x8B030041 = some (.add 1 2 3) ∧ decodeTableWord 32 0x9B030041 = none := by decide

/-- The word stored where the step fetches next is the one it runs, from the state after reset. -/
theorem test_fetch_word :
    after (step (State.reset.withFetchWord 32 0x91001FE0)) (fun t => (t.readReg 0, t.idx)) = some (7, 1) ∧
    after (step (State.reset.withFetchWord 32 0x94000003)) (fun t => (t.readReg 30, t.idx)) = some (0x400004, 3) := by
  decide

/-! ## Arithmetic and logic (V-ALU, S5 to S7) -/

theorem test_add : x1f (.add 1 2 3) [(2, M64), (3, 2)] = some (1, fl 1 1 1 1) := by decide
theorem test_add_reads_first : after (exec (.add 2 2 2) (st [(2, 3)])) (fun t => t.readReg 2) = some 6 := by decide
theorem test_add_zr : after (exec (.add 31 2 3) (st [(2, M64), (3, 2)])) (fun t => t.readReg 31) = some 0 := by decide
theorem test_addi : x1 (.addi 1 2 4095) [(2, 1)] = some 0x1000 := by decide
theorem test_adds_overflow : x1f (.adds 1 2 3) [(2, 0x7FFFFFFFFFFFFFFF), (3, 1)] = some (signBit, fl 1 0 0 1) := by decide
theorem test_adds_carry : x1f (.adds 1 2 3) [(2, signBit), (3, M64)] = some (0x7FFFFFFFFFFFFFFF, fl 0 0 1 1) := by decide
theorem test_addis : x1f (.addis 1 2 1) [(2, M64)] = some (0, fl 0 1 1 0) := by decide
theorem test_sub : x1 (.sub 1 31 3) [(3, signBit)] = some signBit := by decide
theorem test_subi : x1 (.subi 1 2 1) [(2, 0)] = some M64 := by decide

/-- The flags of SUBS in the three modes (R145). -/
def subsFlags (a b : Word) : List (Option Flags) :=
  [SubsFlagMode.literal, .negated, .inverted].map fun m =>
    after (exec (.subs 1 2 3) { st [(2, a), (3, b)] with params := { Params.ref with subsFlagMode := m } }) State.flags

theorem test_subs_modes :
    subsFlags 5 7 = [some (fl 1 0 0 1), some (fl 1 0 0 0), some (fl 1 0 0 0)] ∧
    subsFlags 0 0 = [some (fl 0 1 0 0), some (fl 0 1 0 0), some (fl 0 1 1 0)] ∧
    subsFlags signBit 1 = [some (fl 0 0 1 0), some (fl 0 0 1 1), some (fl 0 0 1 1)] := by decide
theorem test_subs_modes_sign :
    subsFlags 0 signBit = [some (fl 1 0 0 0), some (fl 1 0 0 0), some (fl 1 0 0 1)] ∧
    subsFlags 0x7FFFFFFFFFFFFFFF M64 = [some (fl 1 0 0 0), some (fl 1 0 0 1), some (fl 1 0 0 1)] := by decide
theorem test_subis : x1f (.subis 1 1 1) [(1, 0)] = some (M64, fl 1 0 0 1) := by decide
theorem test_and :
    x1f (.and 1 2 3) [(2, 0xFF00FF00FF00FF00), (3, 0x0FF00FF00FF00FF0)] = some (0x0F000F000F000F00, fl 1 1 1 1) := by
  decide
theorem test_andi : x1 (.andi 1 2 255) [(2, 0x123456789ABCDEF0)] = some 0xF0 := by decide
theorem test_ands : x1f (.ands 1 2 3) [(2, 0x8000000000000001), (3, signBit)] = some (signBit, fl 1 0 0 0) := by decide
theorem test_andis : x1f (.andis 1 2 4095) [(2, M64)] = some (0xFFF, fl 0 0 0 0) := by decide
theorem test_orr : x1 (.orr 1 31 3) [(3, 0xDEADBEEF)] = some 0xDEADBEEF := by decide
theorem test_orri : x1 (.orri 1 2 1) [(2, 0x1000)] = some 0x1001 := by decide
theorem test_eor : x1 (.eor 1 2 3) [(2, 0xFF), (3, 0x0F)] = some 0xF0 := by decide
theorem test_eori : x1 (.eori 1 2 4095) [(2, M64)] = some 0xFFFFFFFFFFFFF000 := by decide

/-! ## Shifts and moves (V-SHIFT, V-MOVE) -/

theorem test_lsl : x1f (.lsl 1 2 1) [(2, 0x8000000000000001)] = some (2, fl 1 1 1 1) := by decide
theorem test_lsr : x1f (.lsr 1 2 4) [(2, M64)] = some (0x0FFFFFFFFFFFFFFF, fl 1 1 1 1) := by decide
theorem test_movz : x1f (.movz 1 0x1234 1) [(1, M64)] = some (0x12340000, fl 1 1 1 1) := by decide
theorem test_movk : x1f (.movk 1 0xABCD 3) [(1, 0x1111222233334444)] = some (0xABCD222233334444, fl 1 1 1 1) := by decide

/-! ## Loads and stores (V-LOAD, V-STORE, V-SP) -/

/-- The bytes of V-LOAD. -/
def loadBytes : List Byte :=
  [0x88, 0x77, 0x66, 0x55, 0x44, 0x33, 0x22, 0x11, 0x81, 0x80, 0xFF, 0xFF, 0x00, 0x00, 0x00, 0x80]

/-- `x[1]` and the transactions after a load. -/
def loadX1 (i : Instr) : Option (Word × List Transaction) :=
  after (exec i (memState [] loadBytes)) fun t => (t.readReg 1, t.port)

theorem test_ldur : loadX1 (.ldur 1 2 1) = some (0x8111223344556677, [.read 0x10000001 8]) := by decide
theorem test_ldur_zr :
    after (exec (.ldur 31 2 0) (st [(2, 0x100)])) (fun t => (t.port, t.status)) = some ([], .ready) := by decide
theorem test_ldursw : loadX1 (.ldursw 1 2 8) = some (0xFFFFFFFFFFFF8081, [.read 0x10000008 4]) := by decide
theorem test_ldurh : loadX1 (.ldurh 1 2 8) = some (0x8081, [.read 0x10000008 2]) := by decide
theorem test_ldurb : loadX1 (.ldurb 1 2 9) = some (0x80, [.read 0x10000009 1]) := by decide

/-- Big-endian order mirrors the bytes (R64). -/
theorem test_ldursw_big :
    after (exec (.ldursw 1 2 4) { memState [] loadBytes with params := { Params.ref with byteOrder := .big } })
      (fun t => t.readReg 1) = some 0x44332211 := by decide

/-- The first 16 bytes from `D` after a store at offset 3 over bytes FF. -/
def stored (i : Instr) : Option (List Byte × List Transaction) :=
  after (exec i (memState [(1, 0xA1B2C3D4E5F60718)] (List.replicate 16 0xFF))) fun t =>
    (Memory.readBytes t.mem 0x10000000 16, t.port)

theorem test_stur :
    stored (.stur 1 2 3) =
      some ([0xFF, 0xFF, 0xFF, 0x18, 0x07, 0xF6, 0xE5, 0xD4, 0xC3, 0xB2, 0xA1, 0xFF, 0xFF, 0xFF, 0xFF, 0xFF],
        [.write 0x10000003 8 0xA1B2C3D4E5F60718]) := by decide
theorem test_sturw :
    stored (.sturw 1 2 3) =
      some ([0xFF, 0xFF, 0xFF, 0x18, 0x07, 0xF6, 0xE5] ++ List.replicate 9 0xFF, [.write 0x10000003 4 0xE5F60718]) := by
  decide
theorem test_sturh :
    stored (.sturh 1 2 3) =
      some ([0xFF, 0xFF, 0xFF, 0x18, 0x07] ++ List.replicate 11 0xFF, [.write 0x10000003 2 0x0718]) := by decide
theorem test_sturb :
    stored (.sturb 1 2 3) = some ([0xFF, 0xFF, 0xFF, 0x18] ++ List.replicate 12 0xFF, [.write 0x10000003 1 0x18]) := by
  decide

/-- The check looks at the register, not at the address (V-SP). -/
theorem test_sp_check :
    after (step (at2 (.ldur 1 28 8) [(28, 0x7FFFFFFFE8)])) (fun t => (t.status, t.port)) =
      some (.faulted { kind := .spAlignment, addr := 0x7FFFFFFFE8, line := 7 }, []) := by decide

/-- A load whose last bytes lie beyond the valid range (V-FAULT). -/
theorem test_ldur_fault :
    after (step (at2 (.ldur 1 2 4) [(1, 0x55), (2, 0x7FFFFFFFF8)])) (fun t => (t.status, t.readReg 1, t.idx, t.port)) =
      some (.faulted { kind := .segment, addr := 0x7FFFFFFFFC, line := 7 }, 0x55, 3, [.read 0x7FFFFFFFFC 8]) := by
  decide

/-! ## Exclusives (V-EXCL, S8) -/

theorem test_ldxr :
    after (exec (.ldxr 1 2 3) (memState [] [7])) (fun t => (t.readReg 1, t.xtag)) = some (0, some 0x10000003) := by decide
theorem test_stxr_fails :
    after (exec (.stxr 3 4 2) { memState [(3, 8)] [7] with xtag := some 0x10000008 })
      (fun t => ((t.readReg 4, t.xtag, t.stxrOk), t.byteAt 0x10000000, t.port)) =
      some ((1, some 0x10000008, false), 7, []) := by decide
theorem test_stxr_succeeds :
    after (exec (.stxr 3 4 2) { memState [(3, 8), (4, 99)] [7] with xtag := some D })
      (fun t => ((t.readReg 4, t.xtag, t.stxrOk), t.byteAt 0x10000000, t.port)) =
      some ((0, none, true), 8, [.write D 8 8]) := by decide

/-- A store clears the tag when it overlaps the tagged doubleword, at both edges (R195). -/
def tagAfter (i : Instr) : Option (Option Word) :=
  after (exec i { st [(2, 0x10000010)] with xtag := some 0x10000010 }) State.xtag

theorem test_tag_overlap :
    tagAfter (.stur 1 2 (-8)) = some (some 0x10000010) ∧ tagAfter (.stur 1 2 (-7)) = some none ∧
    tagAfter (.stur 1 2 7) = some none ∧ tagAfter (.stur 1 2 8) = some (some 0x10000010) := by decide
theorem test_tag_overlap_narrow :
    tagAfter (.sturw 1 2 (-4)) = some (some 0x10000010) ∧ tagAfter (.sturw 1 2 (-3)) = some none ∧
    tagAfter (.sturb 1 2 (-1)) = some (some 0x10000010) ∧ tagAfter (.sturb 1 2 7) = some none := by decide

/-! ## Branches (V-CB, V-COND, V-B, V-BR) -/

theorem test_cbz : jump (.cbz 1 9) [(1, 0)] (fl 0 0 0 0) = some (9, true) ∧ jump (.cbz 1 9) [(1, signBit)] (fl 0 0 0 0) = some (3, false) := by decide
theorem test_cbnz : jump (.cbnz 1 9) [(1, 0)] (fl 0 0 0 0) = some (3, false) ∧ jump (.cbnz 1 9) [(1, signBit)] (fl 0 0 0 0) = some (9, true) := by decide
theorem test_beq : jump (.beq 9) [] (fl 0 1 0 0) = some (9, true) ∧ jump (.beq 9) [] (fl 0 0 0 0) = some (3, false) := by decide
theorem test_bne : jump (.bne 9) [] (fl 1 0 1 1) = some (9, true) ∧ jump (.bne 9) [] (fl 0 1 0 0) = some (3, false) := by decide
theorem test_bhs : jump (.bhs 9) [] (fl 0 0 1 0) = some (9, true) ∧ jump (.bhs 9) [] (fl 1 1 0 1) = some (3, false) := by decide
theorem test_blo : jump (.blo 9) [] (fl 1 1 0 1) = some (9, true) ∧ jump (.blo 9) [] (fl 0 0 1 0) = some (3, false) := by decide
theorem test_bhi : jump (.bhi 9) [] (fl 0 0 1 0) = some (9, true) ∧ jump (.bhi 9) [] (fl 0 1 1 0) = some (3, false) := by decide
theorem test_bls : jump (.bls 9) [] (fl 0 1 1 0) = some (9, true) ∧ jump (.bls 9) [] (fl 0 0 1 0) = some (3, false) := by decide
theorem test_bge : jump (.bge 9) [] (fl 1 0 0 1) = some (9, true) ∧ jump (.bge 9) [] (fl 1 0 0 0) = some (3, false) := by decide
theorem test_blt : jump (.blt 9) [] (fl 1 0 0 0) = some (9, true) ∧ jump (.blt 9) [] (fl 1 0 0 1) = some (3, false) := by decide
theorem test_bgt : jump (.bgt 9) [] (fl 0 0 0 0) = some (9, true) ∧ jump (.bgt 9) [] (fl 0 1 0 0) = some (3, false) := by decide
theorem test_ble : jump (.ble 9) [] (fl 1 0 0 0) = some (9, true) ∧ jump (.ble 9) [] (fl 1 0 0 1) = some (3, false) := by decide
theorem test_bmi : jump (.bmi 9) [] (fl 1 0 0 0) = some (9, true) ∧ jump (.bmi 9) [] (fl 0 1 1 1) = some (3, false) := by decide
theorem test_bpl : jump (.bpl 9) [] (fl 0 1 1 1) = some (9, true) ∧ jump (.bpl 9) [] (fl 1 0 0 0) = some (3, false) := by decide
theorem test_bvs : jump (.bvs 9) [] (fl 0 0 0 1) = some (9, true) ∧ jump (.bvs 9) [] (fl 1 1 1 0) = some (3, false) := by decide
theorem test_bvc : jump (.bvc 9) [] (fl 1 1 1 0) = some (9, true) ∧ jump (.bvc 9) [] (fl 0 0 0 1) = some (3, false) := by decide
theorem test_b : jump (.b 2) [] (fl 0 0 0 0) = some (2, true) ∧ jump (.b 12) [] (fl 0 0 0 0) = some (12, true) := by decide
theorem test_bl :
    after (step (at2 (.bl 3) [])) (fun t => (t.idx, t.taken, t.readReg 30)) = some (3, true, 0x40000C) := by decide
theorem test_br :
    jump (.br 5) [(5, 0x400010)] (fl 0 0 0 0) = some (4, true) ∧ jump (.br 5) [(5, 0x400030)] (fl 0 0 0 0) = some (12, true) := by
  decide

/-- The status after BR to an address. -/
def brStatus (a : Word) : Option Status := after (step (at2 (.br 5) [(5, a)])) State.status

theorem test_br_faults :
    brStatus 0x400034 = some (.faulted { kind := .segment, addr := 0x400034, line := 7 }) ∧
    brStatus 0x3FFFFC = some (.faulted { kind := .segment, addr := 0x3FFFFC, line := 7 }) ∧
    brStatus 0x12 = some (.faulted { kind := .pcAlignment, addr := 0x12, line := 7 }) := by decide

/-! ## Caches (S1, S2, V-CACHE, V-FAULT) -/

theorem test_cache_pairs :
    buildCache ⟨32, 8⟩ = .built (freshCache 3 2) ∧ buildCache ⟨1, 1⟩ = .built (freshCache 0 0) ∧
    buildCache ⟨48, 8⟩ = .configurationError ∧ buildCache ⟨20, 8⟩ = .configurationError ∧
    buildCache ⟨8, 16⟩ = .configurationError ∧ buildCache ⟨-8, 8⟩ = .configurationError ∧
    buildCache ⟨48, 24⟩ = .refused := by decide

theorem test_address_fields :
    (freshCache 3 2).tag 0x1000001D = 0x800000 ∧ (freshCache 3 2).index 0x1000001D = 3 ∧
    (freshCache 3 2).offset 0x1000001D = 5 ∧ (freshCache 0 2).tag M64 = 0x3FFFFFFFFFFFFFFF := by decide

theorem test_span :
    (freshCache 3 2).span 0x10000005 8 = [0, 1] ∧ (freshCache 2 2).span 0x10000003 8 = [0, 1, 2] ∧
    (freshCache 3 2).span 0x1000001D 8 = [3, 0] ∧
    (freshCache 3 2).span 0xFFFFFFFFFFFFFFFD 8 = [3, 0] ∧ (freshCache 0 2).span 0x10000002 8 = [2, 3, 0, 1, 2, 3, 0, 1] := by
  decide

/-- A state with a data cache. -/
def withDc (s : State) (bsb ib : Nat) : State := { s with dc := some (freshCache bsb ib) }

/-- A read miss at a tag-region crossing (S4, V-CACHE K1 #10): the refills, then the read; the value is memory's. -/
theorem test_cached_load :
    after (exec (.ldur 1 2 0x1D) (withDc ((st [(2, D)]).hostWrite 0x1000001D
        [0x1D, 0x1E, 0x1F, 0x20, 0x21, 0x22, 0x23, 0x24]) 3 2))
      (fun t => (t.readReg 1, t.port, t.observeCounters .dc)) =
      some (0x24232221201F1E1D, [.block 0x10000018 8, .block 0x10000000 8, .read 0x1000001D 8], some (0, 1)) := by decide

/-- A write hit leaves the block as it was (S3, R94). -/
theorem test_write_hit_stale :
    after (exec (.stur 3 2 0) { memState [(3, 0x22)] [0x11] with
        dc := some { (freshCache 3 0) with entries := [⟨0x2000000, true, [0x11, 0, 0, 0, 0, 0, 0, 0]⟩] } })
      (fun t => (t.byteAt 0x10000000, t.observeDump .dc, t.observeCounters .dc)) =
      some (0x22, some [⟨0x2000000, true, [0x11, 0, 0, 0, 0, 0, 0, 0]⟩], some (1, 0)) := by decide

/-- A refill of a block that may not be read (V-FAULT): the miss is counted, nothing else changes. -/
theorem test_refill_fault :
    after (step (withDc (at2 (.ldur 1 2 0) [(1, 0x55), (2, 0x108)]) 4 2))
      (fun t => (t.status, t.readReg 1, t.observeCounters .dc, t.port)) =
      some (.faulted { kind := .segment, addr := 0x100, line := 7 }, 0x55, some (0, 1), [.block 0x100 16]) := by decide

/-- R92: an access over two blocks of which the second may not be read leaves the first refilled, the second as it
was. -/
theorem test_refill_stopped :
    let blockD : Window := { kind := .block, base := 0x10000000, limit := 0x10000008, minLen := 0, maxLen := 8 }
    let s := withDc { memState [] [9] with params := { Params.ref with memMap := [refWindow .load, blockD] } } 3 1
    after (exec (.ldur 1 2 4) s) (fun t => (t.status, t.dc.map fun c => c.entries)) =
      some (.faulted { kind := .segment, addr := D + 8, line := 0 },
        some [⟨0x1000000, true, [9, 0, 0, 0, 0, 0, 0, 0]⟩, freshEntry 3]) := by decide

/-! ## Witnesses: each statement with hypotheses has a state and operands that meet them -/

/-- The state of the witnesses: a program of 12, 5 in `x[1]`, `D` in `x[2]`. -/
def w (i : Instr) : State := at2 i [(1, 5), (2, D)]

/-- The last doubleword that `RefMap` allows. -/
def top : State := st [(1, 5), (2, 0x7FFFFFFFF8)]

theorem probeOk_none {pos : CachePos} {s : State} (h : s.cacheAt pos = none) (a : Word) (n : Nat) : probeOk pos a n s := by
  intro c hc; rw [h] at hc; cases hc

/-- A cache check that goes through because every block of its span may be read. -/
theorem probeOk_some {pos : CachePos} {s : State} {c : Cache} (h : s.cacheAt pos = some c) (a : Word) (n : Nat)
    (hv : ∀ i ∈ c.span a n, s.params.memValid (c.blockBase (c.tag a) i) c.blockSize .block = true) : probeOk pos a n s := by
  intro c' hc; rw [h] at hc; cases hc; exact .inr hv

theorem baseOk_of {rn : RegNum} {s : State} (h : rn ≠ spIndex) : baseOk rn s := fun e => absurd e h

/-- Both branch fields at the ends of their ranges. -/
theorem witness_DecodeEncodeRoundTrip :
    Instr.encodable 300000 (.cbz 1 (300000 - 2 ^ 18)) = true ∧ Instr.encodable 0 (.beq (2 ^ 18 - 1)) = true ∧
    Instr.encodable 0 (.bl (2 ^ 25 - 1)) = true ∧ Instr.encodable 0 (.ldxr 31 2 (-256)) = true := by decide

theorem witness_EncodeDecodeCanonicalWord :
    decode 5 0x97FFFFFB = .ok (.bl 0) ∧ canonicalWord 0x97FFFFFB = true ∧ decode 5 0xD61F03C0 = .ok (.br 30) ∧
    canonicalWord 0xD61F03C0 = true ∧ canonicalWord 0xD60003C0 = false := by decide

theorem witness_DecoderAgreesWithMaskTable :
    wordMnemonic 0x5400000D = some .ble ∧ (⟨.ble, 0xFF00001F, 0x5400000D⟩ : MaskRow).fits 0x5400000D = true ∧
    (⟨6, 0b000101, .one .b⟩ : OpcodeRow).fits 0b00010111111 = true := by decide

/-- A program is refused whole for its first bad position: an illegal word, a branch past the end, a bad record. -/
theorem test_program_refused :
    resetWith Params.ref [idleSlot, slotOfWord 1 0 2, slotOfWord 2 0x5400000F 3] [] = .refusedProgram 1 (.illegalWord 0) ∧
    resetWith Params.ref (loadWords 0 [0x14000001, 0x14000002]) [] = .refusedProgram 1 (.illFormed .target) ∧
    resetWith Params.ref (loadRecords [{ mn := .add, args := [1, 2, 32], line := 4 }]) [] =
      .refusedProgram 0 (.illFormed .reg) := by decide

theorem witness_IllegalWordsRefused :
    ((slotOfWord 1 0 2).failing 3 = some (.illegalWord 0) ∧ idleSlot.failing 3 = none ∧
      ([idleSlot] ++ slotOfWord 1 0 2 :: [idleSlot]).length = 3 ∧
      ∃ slot ∈ [idleSlot, slotOfWord 1 0 2], slot.failing 2 ≠ none) ∧
    (∀ r ∈ maskRows, r.fits 0 = false) ∧ (0x5400000E#32).extractLsb' 24 8 = 0x54#8 ∧
    14 ≤ ((0x5400000E#32).extractLsb' 0 5).toNat ∧ 14 ≤ ((0x5400001F#32).extractLsb' 0 5).toNat ∧
    ({ State.reset with prog := [slotOfWord 0 0 1] }).prog[State.reset.idx]? = some (slotOfWord State.reset.idx 0 1) := by
  decide

theorem witness_RecordReadingRoundTrip :
    Instr.wellFormed 12 (.cbz 1 12) = true ∧ Instr.wellFormed 12 (.movk 1 5 3) = true ∧
    decodeRecord 12 { mn := .movk, args := [1, 5, 48], line := 3 } = .ok (.movk 1 5 3) := by decide

/-- A step without an instruction cache, and one with an instruction cache whose check misses and refills. -/
theorem witness_StepRunsFetchedInstruction :
    (let s : State := { State.reset with prog := [slotOfWord 0 0x8B030041 1] }
     decode s.idx 0x8B030041 = .ok (.add 1 2 3) ∧ s.prog[s.idx]? = some (slotOfWord s.idx 0x8B030041 1) ∧
       s.ic = none ∧ probeOk .ic (s.instrAddr s.idx) 4 s) ∧
    (let s : State := { State.reset with prog := [slotOfWord 0 0x8B030041 1], ic := some (freshCache 1 2) }
     decode s.idx 0x8B030041 = .ok (.add 1 2 3) ∧ s.prog[s.idx]? = some (slotOfWord s.idx 0x8B030041 1) ∧
       probeOk .ic (s.instrAddr s.idx) 4 s) :=
  ⟨⟨by decide, by decide, rfl, probeOk_none rfl _ _⟩, ⟨by decide, by decide, probeOk_some rfl _ _ (by decide)⟩⟩

/-- A program whose text may not be read as a block. -/
theorem witness_InstructionProbeFaultSkipsInstruction :
    let s : State := { w (.add 1 2 3) with ic := some (freshCache 3 1), params := { Params.ref with memMap := [] } }
    s.prog[s.idx]? = some { form := .instr (.add 1 2 3), line := 7 } ∧
      probeFaultsAt .ic (s.instrAddr s.idx) 4 s 0x400008 :=
  ⟨by decide, freshCache 3 1, [], 1, [], rfl, by decide, by decide, by decide, by decide, by decide⟩

theorem witness_StepAtEndCompletes :
    State.reset.idx = State.reset.plen ∧ ({ w (.b 12) with idx := 12 }).idx = ({ w (.b 12) with idx := 12 }).plen := by
  decide

/-- A state with the invariant, before a store that answers a next state. -/
theorem witness_StepKeepsInvariant :
    (w (.sturb 1 2 0)).Inv ∧ after (step (w (.sturb 1 2 0))) (fun t => t.mem) = some [(0x10000000, 5)] := by
  refine ⟨⟨by decide, by decide, ?_, by decide, by decide⟩, by decide⟩
  intro pos c h; cases pos <;> cases h

/-- Reset with both caches, a program and a memory. -/
def params2 : Params := { Params.ref with icCfg := some ⟨16, 8⟩, dcCfg := some ⟨32, 8⟩ }

theorem witness_ResetEstablishesInvariant :
    Memory.wf [(5, 7)] ∧ resetWith params2 [idleSlot] [(5, 7)] =
      .ready (State.fresh params2 (some (freshCache 3 1)) (some (freshCache 3 2)) [idleSlot] [(5, 7)]) := by decide

/-- Two pairs that build and a well-formed program. -/
theorem resetAccepts_params2 : resetAccepts params2 [idleSlot] := by
  refine ⟨fun pos p h => ?_, by decide⟩
  cases pos <;> cases h <;> exact ⟨_, rfl⟩

theorem witness_ResetValues :
    cacheStrap params2 .dc = some ⟨32, 8⟩ ∧ cacheStrap Params.ref .ic = none ∧
    resetWith params2 [idleSlot] [(5, 7)] =
      .ready (State.fresh params2 (some (freshCache 3 1)) (some (freshCache 3 2)) [idleSlot] [(5, 7)]) ∧
    spIndex ≠ 0 ∧ (State.fresh params2 (some (freshCache 3 1)) (some (freshCache 3 2)) [] []).cacheAt .dc =
      some (freshCache 3 2) := by decide

/-- The pairs of the clauses: an error, a pair that builds, at the smallest size and at `2^62`. -/
theorem witness_CachePairValidation :
    ((48 : Int) % 8 = 0 ∧ (48 : Int) / 8 = 6) ∧ ((1 : Int) = 2 ^ 0 ∧ (1 : Int) = 2 ^ (0 + 0) ∧ 0 + 0 < 63) ∧
    ((4611686018427387904 : Int) = 2 ^ (0 + 62) ∧ 0 + 62 < 63) ∧ buildCache ⟨32, 8⟩ = .built (freshCache 3 2) := by decide

theorem witness_ResetReportsBadPair :
    buildCache ⟨48, 8⟩ = .configurationError ∧
    ({ Params.ref with icCfg := some ⟨48, 8⟩ }).icCfg = some ⟨48, 8⟩ ∧
    (∀ q, ({ Params.ref with icCfg := some ⟨16, 8⟩, dcCfg := some ⟨48, 8⟩ }).icCfg = some q → ∃ c, buildCache q = .built c) :=
  ⟨by decide, rfl, fun q h => by cases h; exact ⟨_, rfl⟩⟩

/-- One step does not end this run, and two do; steps of each status; a step refused, and one past the end. -/
theorem witness_RunIsIteratedStep :
    after (step State.reset) (fun t => t.status) = some .completed ∧
    after (step (w (.br 1))) (fun t => t.status) = some (.faulted { kind := .pcAlignment, addr := 5, line := 7 }) ∧
    after (step (w (.b 0))) (fun t => t.status) = some .continuing ∧
    (∃ f, step { State.reset with idx := 1 } = .fault f) ∧
    (∃ r, step { State.reset with prog := [slotOfWord 0 0 1] } = .refused r) ∧
    (∃ t, runFuel 1 { State.reset with prog := [idleSlot] } = .outOfFuel t) ∧
    ∃ t, runFuel 2 { State.reset with prog := [idleSlot] } = .completed t :=
  ⟨by decide, by decide, by decide, ⟨_, rfl⟩, ⟨_, rfl⟩, ⟨_, rfl⟩, ⟨_, rfl⟩⟩

theorem witness_StepKeepsProgramAndStraps : after (step (w (.stur 1 2 0))) (fun t => t.idx) = some 3 := by decide

theorem witness_ExecRefusesExactlyIllFormed :
    Instr.wellFormed (w (.b 12)).plen (.b 12) = true ∧ Instr.failing (w (.b 12)).plen (.b 13) = some .target ∧
    Instr.failing (w (.b 12)).plen (.ldxr 31 2 0) = some .ldxrRt := by decide

theorem witness_Register31NeverWritten :
    (30 : RegNum) ≠ zr ∧ (28 : RegNum) ≠ 30 ∧
    after (exec (.movz 31 5 0) State.reset) (fun t => t.idx) = some 0 ∧
    after (step (w (.ldur 31 2 0))) (fun t => t.idx) = some 3 := by decide

theorem witness_OnlySettersChangeFlags :
    after (exec (.adds 1 0 0) State.reset) (fun t => t.flags) = some (fl 0 1 0 0) ∧ State.reset.flags = fl 0 0 0 0 := by decide

theorem witness_OnlyListedRegisterChanges :
    after (exec (.bl 5) (w (.bl 5))) (fun t => t.readReg 30) = some 0x400008 ∧ (w (.bl 5)).readReg 30 = 0 ∧
    after (exec (.stxr 1 4 2) (w (.bl 5))) (fun t => t.readReg 4) = some 1 ∧ (w (.bl 5)).readReg 4 = 0 ∧
    after (exec (.add 1 2 2) (w (.bl 5))) (fun t => t.readReg 1) = some 0x20000000 ∧ (w (.bl 5)).readReg 1 = 5 := by decide

/-- A tag recorded, cleared by its STXR, cleared by a store. -/
theorem witness_TagChangesOnlyAsListed :
    after (exec (.ldxr 1 2 0) (w (.b 0))) (fun t => t.xtag) = some (some D) ∧ (w (.b 0)).xtag = none ∧
    after (exec (.stxr 1 4 2) { w (.b 0) with xtag := some D }) (fun t => t.xtag) = some none ∧
    after (exec (.sturb 1 2 7) { w (.b 0) with xtag := some D }) (fun t => t.xtag) = some none := by decide

theorem witness_OverlapSharesAByte :
    1 ≤ 8 ∧ overlap (D - 7) 8 D = true ∧ overlap (D - 8) 8 D = false ∧ overlap (D + 7) 1 D = true ∧ overlap 3 8 M64 = true := by
  decide

theorem witness_LatchesOnlyByTheirWriters :
    after (exec (.stxr 1 4 2) { w (.b 0) with stxrOk := true }) (fun t => t.stxrOk) = some false ∧
    after (exec (.b 0) (w (.b 0))) (fun t => (t.taken, t.idx)) = some (true, 0) ∧ (w (.b 0)).taken = false := by decide

/-- Each kind of fault, and a store whose refill faults after the write. -/
def storeOnly : List Window := [refWindow .load, refWindow .store]

theorem witness_FaultLeavesStateAsListed :
    (w (.b 0)).beginStep.status = .continuing ∧
    after (exec (.br 1) (w (.b 0)).beginStep) (fun t => t.status) =
      some (.faulted { kind := .pcAlignment, addr := 5, line := 7 }) ∧
    after (exec (.stur 1 28 0) (at2 (.b 0) [(28, 8)]).beginStep) (fun t => t.status) =
      some (.faulted { kind := .spAlignment, addr := 8, line := 7 }) ∧
    after (exec (.sturb 1 2 0) (withDc { w (.b 0) with params := { Params.ref with memMap := storeOnly } } 3 0).beginStep)
      (fun t => (t.status, t.mem)) =
      some (.faulted { kind := .segment, addr := D, line := 7 }, [(0x10000000, 5)]) ∧
    after (exec (.stxr 1 4 2)
      (withDc { w (.b 0) with params := { Params.ref with memMap := storeOnly }, xtag := some D } 3 0).beginStep)
      (fun t => (t.status, t.mem)) =
      some (.faulted { kind := .segment, addr := D, line := 7 }, [(0x10000000, 5)]) ∧
    after (exec (.sturb 1 2 0) { w (.b 0) with params := { Params.ref with memMap := [] } }.beginStep)
      (fun t => (t.status, t.mem)) = some (.faulted { kind := .segment, addr := D, line := 7 }, []) := by decide

/-- Destination 31 and another, in every flag mode. -/
theorem witness_SubsWritesDifferenceAndModeFlags :
    (∀ m : SubsFlagMode, ({ w (.b 0) with params := { Params.ref with subsFlagMode := m } }).params.subsFlagMode = m) ∧
    (31 : RegNum) = zr ∧ (1 : RegNum) ≠ zr := ⟨fun _ => rfl, by decide, by decide⟩

/-- The last valid doubleword, and one byte beyond it. -/
theorem witness_MemoryReadPrimitive :
    8 ∈ [1, 2, 4, 8] ∧ 1 ∈ [1, 2, 4, 8] ∧ top.params.memValid 0x7FFFFFFFF8 8 .load = true ∧
      top.params.memValid 0x8000000000 1 .load = false := by decide

/-- A doubleword load at the last valid address without a cache, and a byte load with one. -/
theorem witness_LoadCompletes :
    ((1 : RegNum) ≠ zr ∧ baseOk 2 top ∧ probeOk .dc (top.readReg 2 + (0 : BitVec 9).signExtend 64) 8 top ∧
      top.params.memValid (top.readReg 2 + (0 : BitVec 9).signExtend 64) 8 .load = true) ∧
    (baseOk 2 (withDc top 3 2) ∧ probeOk .dc ((withDc top 3 2).readReg 2 + (7 : BitVec 9).signExtend 64) 1 (withDc top 3 2) ∧
      (withDc top 3 2).params.memValid ((withDc top 3 2).readReg 2 + (7 : BitVec 9).signExtend 64) 1 .load = true) :=
  ⟨⟨by decide, baseOk_of (by decide), probeOk_none rfl _ _, by decide⟩,
   ⟨baseOk_of (by decide), probeOk_some rfl _ _ (by decide), by decide⟩⟩

/-- The stack pointer as a base, aligned, and another register. -/
theorem witness_StoreCompletes :
    (baseOk 28 State.reset ∧ State.reset.params.memValid (State.reset.readReg 28 + (8 : BitVec 9).signExtend 64) 8 .store = true ∧
      probeOk .dc (State.reset.readReg 28 + (8 : BitVec 9).signExtend 64) 8 State.reset) ∧
    (baseOk 2 (withDc top 3 2) ∧
      (withDc top 3 2).params.memValid ((withDc top 3 2).readReg 2 + (7 : BitVec 9).signExtend 64) 1 .store = true ∧
      probeOk .dc ((withDc top 3 2).readReg 2 + (7 : BitVec 9).signExtend 64) 1 (withDc top 3 2)) :=
  ⟨⟨fun _ => by decide, by decide, probeOk_none rfl _ _⟩,
   ⟨baseOk_of (by decide), by decide, probeOk_some rfl _ _ (by decide)⟩⟩

theorem witness_MisalignedStackPointerFaults : ((st [(28, 0x7FFFFFFFE8)]).readReg spIndex).toNat % 16 ≠ 0 ∧ (1 : RegNum) ≠ zr := by
  decide

/-- One byte beyond the last valid address, and a doubleword that ends beyond it. -/
theorem witness_InvalidLoadFaults :
    ((1 : RegNum) ≠ zr ∧ baseOk 2 top ∧ probeOk .dc (top.readReg 2 + (8 : BitVec 9).signExtend 64) 1 top ∧
      top.params.memValid (top.readReg 2 + (8 : BitVec 9).signExtend 64) 1 .load = false) ∧
    (probeOk .dc (top.readReg 2 + (1 : BitVec 9).signExtend 64) 8 top ∧
      top.params.memValid (top.readReg 2 + (1 : BitVec 9).signExtend 64) 8 .load = false) :=
  ⟨⟨by decide, baseOk_of (by decide), probeOk_none rfl _ _, by decide⟩, ⟨probeOk_none rfl _ _, by decide⟩⟩

theorem witness_InvalidStoreFaults :
    (baseOk 2 top ∧ top.params.memValid (top.readReg 2 + (8 : BitVec 9).signExtend 64) 1 .store = false) ∧
    (let s := { st [(2, 0x7FFFFFFFF9)] with xtag := some 0x7FFFFFFFF9 }
     baseOk 2 s ∧ s.xtag = some (s.readReg 2) ∧ s.params.memValid (s.readReg 2) 8 .store = false) :=
  ⟨⟨baseOk_of (by decide), by decide⟩, baseOk_of (by decide), by decide, by decide⟩

/-- A data cache of one entry over a memory whose blocks may not be read. -/
def noBlocks : State :=
  withDc { st [(1, 5), (2, D)] with params := { Params.ref with memMap := storeOnly }, xtag := some D } 3 0

theorem noBlocks_faults : probeFaultsAt .dc D 8 noBlocks D :=
  ⟨freshCache 3 0, [], 0, [], rfl, by decide, by decide, by decide, by decide, by decide⟩

theorem noBlocks_ea : noBlocks.readReg 2 + (0 : BitVec 9).signExtend 64 = D := by decide

theorem witness_LoadRefillFaults :
    (1 : RegNum) ≠ zr ∧ baseOk 2 noBlocks ∧
      probeFaultsAt .dc (noBlocks.readReg 2 + (0 : BitVec 9).signExtend 64) 8 noBlocks D :=
  ⟨by decide, baseOk_of (by decide), by rw [noBlocks_ea]; exact noBlocks_faults⟩

theorem witness_StoreRefillFaults :
    baseOk 2 noBlocks ∧
    (noBlocks.params.memValid (noBlocks.readReg 2 + (0 : BitVec 9).signExtend 64) 8 .store = true ∧
      probeFaultsAt .dc (noBlocks.readReg 2 + (0 : BitVec 9).signExtend 64) 8 noBlocks D) ∧
    noBlocks.xtag = some (noBlocks.readReg 2) ∧ noBlocks.params.memValid (noBlocks.readReg 2) 8 .store = true ∧
      probeFaultsAt .dc (noBlocks.readReg 2) 8 noBlocks D :=
  ⟨baseOk_of (by decide), ⟨by decide, by rw [noBlocks_ea]; exact noBlocks_faults⟩, by decide, by decide, noBlocks_faults⟩

/-- The state after an outcome, or the given one. -/
def next (o : Host.Outcome State Fault Refusal) (s : State) : State :=
  match o with
  | .next t => t
  | _ => s

/-- A store, and a load through another base and offset in a state whose caches are others; a succeeding STXR and
the LDXR after it. -/
theorem witness_LoadAfterStoreReturnsStored :
    (let s := (withDc (st [(1, 0x8281), (2, D), (3, D - 5)]) 3 1).beginStep
     let t := next (exec (.sturh 1 2 (-1)) s) s
     let u := { t with dc := none, regs := t.regs.set 1 0 }
     let v := next (exec (.ldurh 4 3 4) u) u
     (4 : RegNum) ≠ zr ∧ t.status = .continuing ∧ u.mem = t.mem ∧ u.params = t.params ∧
       s.effAddr 2 (-1) = D - 1 ∧ u.effAddr 3 4 = D - 1 ∧ v.status = .continuing ∧ v.readReg 4 = 0x8281) ∧
    (let s := ({ st [(1, 0x8281), (2, D)] with xtag := some D }).beginStep
     let t := next (exec (.stxr 1 31 2) s) s
     let v := next (exec (.ldxr 4 2 0) t) t
     t.status = .continuing ∧ t.stxrOk = true ∧ s.readReg 2 = D ∧ t.effAddr 2 0 = D ∧ v.status = .continuing ∧
       v.readReg 4 = 0x8281) := by decide

theorem witness_LoadExclusiveCompletes :
    (1 : RegNum) ≠ zr ∧ baseOk 2 top ∧ probeOk .dc (top.readReg 2 + (0 : BitVec 9).signExtend 64) 8 top ∧
      top.params.memValid (top.readReg 2 + (0 : BitVec 9).signExtend 64) 8 .load = true :=
  ⟨by decide, baseOk_of (by decide), probeOk_none rfl _ _, by decide⟩

theorem witness_StoreExclusiveSucceeds :
    let s := withDc { top with xtag := some 0x7FFFFFFFF8 } 3 1
    baseOk 2 s ∧ s.xtag = some (s.readReg 2) ∧ s.params.memValid (s.readReg 2) 8 .store = true ∧
      probeOk .dc (s.readReg 2) 8 s :=
  ⟨baseOk_of (by decide), by decide, by decide, probeOk_some rfl _ _ (by decide)⟩

theorem witness_StoreExclusiveFails :
    baseOk 2 top ∧ top.xtag ≠ some (top.readReg 2) ∧
    ({ top with xtag := some 0x7FFFFFFFF0 }).xtag ≠ some (top.readReg 2) :=
  ⟨baseOk_of (by decide), by decide, by decide⟩

/-- A second STXR with the same base, one with another base to register 31, and a first one over an old success
whose outcome register is its base. -/
theorem witness_SecondStoreExclusiveFails :
    let s := ({ top with xtag := some 0x7FFFFFFFF8, stxrOk := true }).beginStep
    let t := next (exec (.stxr 1 4 2) s) s
    let v := next (exec (.stxr 1 2 2) s) s
    (t.stxrOk = true ∧ t.status = .continuing ∧ after (exec (.stxr 1 4 2) t) (fun u => u.readReg 4) = some 1) ∧
    ((t.readReg spIndex).toNat % 16 = 0 ∧ after (exec (.stxr 1 31 28) t) (fun u => u.stxrOk) = some false) ∧
    (v.stxrOk = true ∧ v.status = .continuing ∧ after (exec (.stxr 1 4 2) v) (fun u => u.readReg 4) = some 1) := by decide

/-- Targets at both ends of the program. -/
theorem witness_CompareBranchResults : 0 ≤ (w (.b 0)).plen ∧ 12 ≤ (w (.b 0)).plen := by decide
theorem witness_CondBranchTruthTable : (Instr.ble, (0xF5FA : BitVec 16)).2.getLsbD (fl 1 1 1 1).row = true ∧ 12 ≤ (w (.b 0)).plen := by
  decide
theorem witness_BranchAndLinkResults : 0 ≤ (w (.b 0)).plen ∧ 12 ≤ (w (.b 0)).plen := by decide

theorem strapsOk_w (i : Instr) (rs : List (RegNum × Word)) : (at2 i rs).StrapsOk := by
  have hp : (at2 i rs).params = Params.ref := by
    show (rs.foldl (fun s p => s.writeReg p.1 p.2) State.reset).params = Params.ref
    have h : ∀ s : State, s.params = Params.ref → (rs.foldl (fun s p => s.writeReg p.1 p.2) s).params = Params.ref := by
      induction rs with
      | nil => exact fun s h => h
      | cons p rest ih => exact fun s h => ih _ (by simpa using h)
    exact h _ rfl
  have hl : (at2 i rs).plen = 12 := rfl
  exact ⟨by rw [hp]; decide, by rw [hp]; decide, by rw [hp, hl]; decide⟩

/-- The first index and the end of the program. -/
theorem witness_BranchRegisterResults :
    ((at2 (.br 5) [(5, 0x400000)]).StrapsOk ∧ 0 ≤ (at2 (.br 5) [(5, 0x400000)]).plen ∧
      (at2 (.br 5) [(5, 0x400000)]).readReg 5 = (at2 (.br 5) [(5, 0x400000)]).params.textBase + BitVec.ofNat 64 (4 * 0)) ∧
    ((at2 (.br 5) [(5, 0x400030)]).StrapsOk ∧ 12 ≤ (at2 (.br 5) [(5, 0x400030)]).plen ∧
      (at2 (.br 5) [(5, 0x400030)]).readReg 5 = (at2 (.br 5) [(5, 0x400030)]).params.textBase + BitVec.ofNat 64 (4 * 12)) :=
  ⟨⟨strapsOk_w _ _, by decide, by decide⟩, ⟨strapsOk_w _ _, by decide, by decide⟩⟩

/-- Misaligned; below the text by 4; above it by 4. -/
theorem witness_BranchRegisterFaults :
    ((at2 (.br 5) [(5, 0x400002)]).readReg 5).toNat % 4 ≠ 0 ∧
    (((at2 (.br 5) [(5, 0x3FFFFC)]).readReg 5).toNat % 4 = 0 ∧
      ((at2 (.br 5) [(5, 0x3FFFFC)]).readReg 5).toNat < (at2 (.br 5) [(5, 0x3FFFFC)]).params.textBase.toNat) ∧
    (((at2 (.br 5) [(5, 0x400034)]).readReg 5).toNat % 4 = 0 ∧
      (at2 (.br 5) [(5, 0x400034)]).params.textBase.toNat + 4 * (at2 (.br 5) [(5, 0x400034)]).plen <
        ((at2 (.br 5) [(5, 0x400034)]).readReg 5).toNat) := by decide

/-- A call from an index inside the program, its state as the state of the return. -/
theorem witness_BranchRegisterReturnsFromCall :
    (w (.bl 9)).StrapsOk ∧ (w (.bl 9)).idx ≤ (w (.bl 9)).plen ∧
    exec (.bl 9) (w (.bl 9)) = .next (((w (.bl 9)).writeReg lrIndex ((w (.bl 9)).instrAddr 2)).branch 9) :=
  ⟨strapsOk_w _ _, by decide, rfl⟩

theorem witness_IllFormedInstructionsRefused :
    Instr.target? (.cbz 1 (-1)) = some (-1) ∧ (-1 : Int) < 0 ∧ Instr.target? (.bl 13) = some 13 ∧
    ((w (.b 0)).plen : Int) < 13 := by decide

/-- The largest geometry, and a common one. -/
theorem witness_AddressFieldsRecombine : (freshCache 3 2).ib + (freshCache 3 2).bsb ≤ 62 ∧ (0 : Nat) + 62 ≤ 62 := by decide

theorem witness_BlockBaseInTagRegion :
    (freshCache 3 2).ib + (freshCache 3 2).bsb ≤ 62 ∧ 2 ^ 59 - 1 < 2 ^ (freshCache 3 2).tagBits ∧
    3 < (freshCache 3 2).numEntries := by decide

/-- A range that ends at `2^64`, and one of a single byte. -/
theorem witness_SpanListsTouchedBlocks :
    (freshCache 3 2).ib + (freshCache 3 2).bsb ≤ 62 ∧ (0xFFFFFFFFFFFFFFF8 : Word).toNat + 8 ≤ 2 ^ 64 ∧
    (0xFFFFFFFFFFFFFFFF : Word).toNat + 1 ≤ 2 ^ 64 := by decide

theorem freshCache_wf : (freshCache 3 2).Wf := ⟨by decide, by decide, by decide, by decide⟩

/-- A check that misses and goes through, and one that hits. -/
theorem witness_CacheCheckOutcome :
    (withDc (st []) 3 2).cacheAt .dc = some (freshCache 3 2) ∧ (freshCache 3 2).Wf ∧
    (∃ t, cacheProbe .dc 0x1000000D 8 (withDc (st []) 3 2) = .done false t) ∧
    (let c := { freshCache 3 0 with entries := [⟨0x2000000, true, List.replicate 8 0⟩] }
     c.Wf ∧ ∃ t, cacheProbe .dc D 8 { st [] with dc := some c } = .done true t) :=
  ⟨rfl, freshCache_wf, ⟨_, rfl⟩, ⟨⟨by decide, by decide, by decide, by decide⟩, ⟨_, rfl⟩⟩⟩

/-- One state without caches and the same with both, stepped without a fault. -/
theorem witness_CachesNeverAffectResults :
    let s := w (.ldur 1 2 0)
    let t := { s with ic := some (freshCache 3 1), dc := some (freshCache 3 2) }
    t = { s with ic := t.ic, dc := t.dc, status := t.status, port := t.port } ∧
      after (step s) (fun u => u.status) = some .continuing ∧ after (step t) (fun u => u.status) = some .continuing := by
  decide

theorem witness_DataCacheNeverHidesLoadFault :
    let s := (withDc (at2 (.ldur 1 2 0) [(2, 0x100)]) 4 2).beginStep
    s.status = .continuing ∧
      after (exec (.ldur 1 2 0) { s with dc := none }) (fun t => t.status) =
        some (.faulted { kind := .segment, addr := 0x100, line := 7 }) ∧
      after (exec (.ldur 1 2 0) s) (fun t => t.status) =
        some (.faulted { kind := .segment, addr := 0x100, line := 7 }) ∧
      after (exec (.ldxr 1 2 0) { s with dc := none }) (fun t => t.status) =
        some (.faulted { kind := .segment, addr := 0x100, line := 7 }) := by decide

end Sys2Proof.Tests
end

section
/-! PROOFS. The statements about the state (10_state.md): what a register write does, which field an instruction
may change, the reset values, the invariant of reachable states. Claims about all instructions go by cases on
`Effect` (Laws/Exec.lean), one lemma per field of the state. -/

namespace Sys2Proof.Machine

open Sys2Proof

/-! ### Registers and fields after the remaining updates of the state -/

theorem State.writeReg_regs (s : State) (i : RegNum) (v : Word) :
    (s.writeReg i v).regs = if i = zr then s.regs else s.regs.set i.toNat v i.isLt := by
  unfold State.writeReg; split <;> rfl

@[simp] theorem State.stxrFailed_regs (s : State) (rs : RegNum) : (s.stxrFailed rs).regs = (s.writeReg rs 1).regs := rfl
@[simp] theorem State.stxrDone_regs (s : State) (rs : RegNum) : (s.stxrDone rs).regs = (s.writeReg rs 0).regs := rfl

@[simp] theorem State.ldxrDone_regs (s : State) (rt : RegNum) (v a : Word) :
    (s.ldxrDone rt v a).regs = (s.writeReg rt v).regs := rfl
@[simp] theorem State.ldxrDone_idx (s : State) (rt : RegNum) (v a : Word) : (s.ldxrDone rt v a).idx = s.idx :=
  State.writeReg_idx s rt v
@[simp] theorem State.ldxrDone_flags (s : State) (rt : RegNum) (v a : Word) : (s.ldxrDone rt v a).flags = s.flags :=
  State.writeReg_flags s rt v
@[simp] theorem State.ldxrDone_xtag (s : State) (rt : RegNum) (v a : Word) : (s.ldxrDone rt v a).xtag = some a := rfl
@[simp] theorem State.ldxrDone_taken (s : State) (rt : RegNum) (v a : Word) : (s.ldxrDone rt v a).taken = s.taken :=
  State.writeReg_taken s rt v
@[simp] theorem State.ldxrDone_stxrOk (s : State) (rt : RegNum) (v a : Word) : (s.ldxrDone rt v a).stxrOk = s.stxrOk :=
  State.writeReg_stxrOk s rt v
@[simp] theorem State.ldxrDone_ic (s : State) (rt : RegNum) (v a : Word) : (s.ldxrDone rt v a).ic = s.ic :=
  State.writeReg_ic s rt v
@[simp] theorem State.ldxrDone_dc (s : State) (rt : RegNum) (v a : Word) : (s.ldxrDone rt v a).dc = s.dc :=
  State.writeReg_dc s rt v
@[simp] theorem State.ldxrDone_prog (s : State) (rt : RegNum) (v a : Word) : (s.ldxrDone rt v a).prog = s.prog :=
  State.writeReg_prog s rt v
@[simp] theorem State.ldxrDone_mem (s : State) (rt : RegNum) (v a : Word) : (s.ldxrDone rt v a).mem = s.mem :=
  State.writeReg_mem s rt v

/-- All that a data-side probe leaves as it was. -/
theorem Probed.frame {s u : State} (h : Probed s u) :
    u.regs = s.regs ∧ u.idx = s.idx ∧ u.flags = s.flags ∧ u.xtag = s.xtag ∧ u.taken = s.taken ∧
      u.stxrOk = s.stxrOk ∧ u.ic = s.ic ∧ u.prog = s.prog ∧ u.mem = s.mem := by
  have ho := h.only
  unfold portOnly at ho
  rw [ho]
  exact ⟨rfl, rfl, rfl, rfl, rfl, rfl, rfl, rfl, rfl⟩

theorem Probed.mem {s u : State} (h : Probed s u) : u.mem = s.mem := by simp [h.frame]

/-- What the instruction-cache probe leaves as it was, whether or not it faults (R99). -/
theorem iProbe_frame (k : Nat) (s : State) :
    (iProbe k s).final.regs = s.regs ∧ (iProbe k s).final.idx = s.idx ∧ (iProbe k s).final.prog = s.prog ∧
      (iProbe k s).final.mem = s.mem := by
  have h := (cacheProbe_frame .ic (s.instrAddr k) isize s).1
  unfold iProbe
  rw [h]
  exact ⟨rfl, rfl, rfl, rfl⟩

/-! ### What an instruction may change, field by field -/

/-- The register that R35 lists for the instruction. -/
def listsReg (i : Instr) (r : RegNum) : Prop :=
  (i.mnemonic = .bl ∧ r = lrIndex) ∨
  (i.mnemonic = .stxr ∧ i.args[1]? = some (r.toNat : Int)) ∨
  (i.mnemonic ∈ computing ++ loading ++ [.ldxr] ∧ i.args[0]? = some (r.toNat : Int))

/-- The instruction is a branch: it carries a target, or is BR (R205, R233). -/
def isBranch (i : Instr) : Prop := i.target? ≠ none ∨ i.mnemonic = .br

/-- The register file changes by one write at most, to the register that R35 lists (R35). -/
theorem Effect.regs {i : Instr} {s t : State} (h : Effect i s t) :
    t.regs = s.regs ∨ ∃ rd v, listsReg i rd ∧ t.regs = (s.writeReg rd v).regs := by
  cases h with
  | computes rd v f hm ha hf => exact .inr ⟨rd, v, .inr (.inr ⟨by simp [hm], ha⟩), rfl⟩
  | loads rt v u hm ha hp =>
    exact .inr ⟨rt, v, .inr (.inr ⟨by simp [hm], ha⟩), by simp [State.writeReg_regs, hp.frame]⟩
  | loadsExclusive rt rn off v u hi hp =>
    subst hi
    exact .inr ⟨rt, v, .inr (.inr ⟨by simp [Instr.mnemonic], rfl⟩), by simp [State.writeReg_regs, hp.frame]⟩
  | stxrFails rt rs rn hi hx => subst hi; exact .inr ⟨rs, 1, .inr (.inl ⟨rfl, rfl⟩), rfl⟩
  | stxrStores rt rs rn u hi hx hv hp =>
    subst hi
    exact .inr ⟨rs, 0, .inr (.inl ⟨rfl, rfl⟩), by simp [State.writeReg_regs, hp.frame]⟩
  | links target ht hi => subst hi; exact .inr ⟨lrIndex, _, .inl ⟨rfl, rfl⟩, rfl⟩
  | nothing | branches => exact .inl rfl
  | stores _ _ _ _ _ _ _ _ hp | faults _ _ hp | faultsAfterStore _ _ _ _ _ _ hp => exact .inl (by simp [hp.frame])

/-- Only the six setters change a flag (R40). -/
theorem Effect.flags {i : Instr} {s t : State} (h : Effect i s t) : t.flags = s.flags ∨ i.mnemonic ∈ setters := by
  cases h with
  | computes rd v f hm ha hf => exact hf
  | nothing | branches | links | stxrFails => exact .inl (by simp)
  | loads _ _ _ _ _ hp | loadsExclusive _ _ _ _ _ _ hp | stores _ _ _ _ _ _ _ _ hp | stxrStores _ _ _ _ _ _ _ hp
  | faults _ _ hp | faultsAfterStore _ _ _ _ _ _ hp => exact .inl (by simp [hp.frame])

/-- The exclusive latch changes only by STXR (R44). -/
theorem Effect.stxrOk {i : Instr} {s t : State} (h : Effect i s t) : t.stxrOk = s.stxrOk ∨ i.mnemonic = .stxr := by
  cases h with
  | stxrFails _ _ _ hi | stxrStores _ _ _ _ hi => subst hi; exact .inr rfl
  | computes | nothing | branches | links => exact .inl (by simp)
  | loads _ _ _ _ _ hp | loadsExclusive _ _ _ _ _ _ hp | stores _ _ _ _ _ _ _ _ hp | faults _ _ hp
  | faultsAfterStore _ _ _ _ _ _ hp => exact .inl (by simp [hp.frame])

/-- The index and the branch latch change only together, by a branch, to an index of the program or its end
(R43, R205). -/
theorem Effect.idx_taken {i : Instr} {s t : State} (h : Effect i s t) :
    (t.idx = s.idx ∧ t.taken = s.taken) ∨ (t.idx ≤ s.plen ∧ t.taken = true ∧ isBranch i) := by
  cases h with
  | branches target ht hi => exact .inr ⟨ht, rfl, hi⟩
  | links target ht hi => subst hi; exact .inr ⟨ht, rfl, .inl nofun⟩
  | computes | nothing | stxrFails => exact .inl (by simp)
  | loads _ _ _ _ _ hp | loadsExclusive _ _ _ _ _ _ hp | stores _ _ _ _ _ _ _ _ hp | stxrStores _ _ _ _ _ _ _ hp
  | faults _ _ hp | faultsAfterStore _ _ _ _ _ _ hp => exact .inl (by simp [hp.frame])

/-- The tag changes only by an LDXR, a matching STXR or an overlapping store (R42, R198). -/
theorem Effect.xtag {i : Instr} {s t : State} (h : Effect i s t) :
    t.xtag = s.xtag ∨
    (∃ rt rn off, i = .ldxr rt rn off ∧ t.xtag = some (s.effAddr rn off)) ∨
    (∃ rt rs rn, i = .stxr rt rs rn ∧ s.xtag = some (s.readReg rn) ∧ t.xtag = none) ∨
    (∃ f ∈ storeForms, ∃ rt rn off tag, i = f.instr rt rn off ∧ s.xtag = some tag ∧
      overlap (s.effAddr rn off) f.size tag = true ∧ t.xtag = none) := by
  cases h with
  | loadsExclusive rt rn off v u hi hp => exact .inr (.inl ⟨rt, rn, off, hi, rfl⟩)
  | stxrStores rt rs rn u hi hx hv hp => exact .inr (.inr (.inl ⟨rt, rs, rn, hi, hx, rfl⟩))
  | stores f hf rt rn off u hi hv hp =>
    have hu : u.xtag = s.xtag := by simp [hp.frame]
    rw [State.clearTagOn_xtag, hu]
    cases hx : s.xtag with
    | none => exact .inl rfl
    | some tag =>
      cases ho : overlap (s.effAddr rn off) f.size tag with
      | false => exact .inl (by simp [ho])
      | true => exact .inr (.inr (.inr ⟨f, hf, rt, rn, off, tag, hi, rfl, ho, by simp [ho]⟩))
  | computes | nothing | branches | links | stxrFails => exact .inl (by simp)
  | loads _ _ _ _ _ hp | faults _ _ hp | faultsAfterStore _ _ _ _ _ _ hp => exact .inl (by simp [hp.frame])

/-- No instruction changes the instruction cache or the program (R11, R73, R99). -/
theorem Effect.ic_prog {i : Instr} {s t : State} (h : Effect i s t) : t.ic = s.ic ∧ t.prog = s.prog := by
  cases h with
  | computes | nothing | branches | links | stxrFails => simp
  | loads _ _ _ _ _ hp | loadsExclusive _ _ _ _ _ _ hp | stores _ _ _ _ _ _ _ _ hp | stxrStores _ _ _ _ _ _ _ hp
  | faults _ _ hp | faultsAfterStore _ _ _ _ _ _ hp => simp [hp.frame]

/-- An instruction keeps the data cache well formed (R54 (c)). -/
theorem Effect.dc_wf {i : Instr} {s t : State} (h : Effect i s t) (hs : ∀ c, s.dc = some c → c.Wf) :
    ∀ c, t.dc = some c → c.Wf := by
  cases h with
  | computes | nothing | branches | links | stxrFails => simpa using hs
  | loads _ _ _ _ _ hp | loadsExclusive _ _ _ _ _ _ hp | stores _ _ _ _ _ _ _ _ hp | stxrStores _ _ _ _ _ _ _ hp
  | faults _ _ hp | faultsAfterStore _ _ _ _ _ _ hp => simpa using hp.wf hs

/-- Memory changes by one write to the memory port at most, at a valid address (R61). -/
theorem Effect.mem {i : Instr} {s t : State} (h : Effect i s t) :
    t.mem = s.mem ∨ ∃ a n v, s.params.memValid a n .store = true ∧ t.mem = (s.written a n v).mem := by
  cases h with
  | stores f hf rt rn off u hi hv hp => exact .inr ⟨_, _, _, hv, (u.clearTagOn_mem _ _).trans hp.mem⟩
  | stxrStores rt rs rn u hi hx hv hp => exact .inr ⟨_, _, _, hv, (u.stxrDone_mem rs).trans hp.mem⟩
  | faultsAfterStore f a n v u hv hp => exact .inr ⟨a, n, v, hv, hp.mem⟩
  | computes | nothing | branches | links | stxrFails => exact .inl (by simp)
  | loads _ _ _ _ _ hp | loadsExclusive _ _ _ _ _ _ hp | faults _ _ hp => exact .inl (by simp [hp.frame])

/-! ### Register 31 (R32) -/

/-- No instruction changes register 31. -/
theorem exec_readReg_zr {i : Instr} {s t : State} (h : exec i s = .next t) : t.readReg zr = s.readReg zr := by
  obtain hr | ⟨rd, v, -, hr⟩ := (exec_effect h).regs
  · exact State.readReg_congr hr zr
  · rw [State.readReg_congr hr zr, State.readReg_zr_writeReg]

/-- No step changes register 31. -/
theorem step_readReg_zr {s t : State} (h : step s = .next t) : t.readReg zr = s.readReg zr := by
  obtain ⟨-, rfl⟩ | ⟨-, i, -, -, -, ⟨f, u, hu, rfl⟩ | ⟨hit, u, hu, hx⟩⟩ := step_cases h
  · rfl
  · have hp := iProbe_frame s.idx s.beginStep
    rw [hu] at hp
    exact State.readReg_congr hp.1 zr
  · have hp := iProbe_frame s.idx s.beginStep
    rw [hu] at hp
    exact (exec_readReg_zr hx).trans (State.readReg_congr hp.1 zr)

/-! ### The invariant of reachable states: kept (R54) -/

/-- The invariant from its parts, for a state with the same program. -/
theorem State.Inv.of_parts {s t : State} (h : s.Inv) (hidx : t.idx ≤ s.plen) (hreg : t.readReg zr = s.readReg zr)
    (hcache : ∀ pos c, t.cacheAt pos = some c → c.Wf) (hmem : Memory.wf t.mem) (hprog : t.prog = s.prog) : t.Inv where
  index := by rwa [State.plen_congr hprog]
  reg31 := hreg.trans h.reg31
  cache := hcache
  mem := hmem
  prog := by rw [State.plen_congr hprog, hprog]; exact h.prog

/-- Completing keeps the invariant. -/
theorem State.Inv.complete {s : State} (h : s.Inv) : s.complete.Inv :=
  h.of_parts h.index rfl h.cache h.mem rfl

/-- Taking a fault keeps the invariant. -/
theorem State.Inv.takeFault {s : State} (h : s.Inv) (f : Raise) : (s.takeFault f).Inv :=
  h.of_parts h.index rfl h.cache h.mem rfl

/-- Beginning a step keeps the invariant before the end of the program: the index it moves to is at most `PLEN`. -/
theorem State.Inv.beginStep {s : State} (h : s.Inv) (hne : s.idx ≠ s.plen) : s.beginStep.Inv :=
  h.of_parts (Nat.lt_of_le_of_ne h.index hne) rfl h.cache h.mem rfl

/-- The instruction-cache probe keeps the invariant, whether or not it faults. -/
theorem State.Inv.iProbe_final {s : State} (h : s.Inv) (k : Nat) : (iProbe k s).final.Inv := by
  obtain ⟨hregs, hidx, hprog, hmem⟩ := iProbe_frame k s
  exact h.of_parts (hidx ▸ h.index) (State.readReg_congr hregs zr) (cacheProbe_wf h.cache .ic (s.instrAddr k) isize)
    (hmem ▸ h.mem) hprog

/-- Every instruction that answers a next state keeps the invariant. -/
theorem State.Inv.of_exec {i : Instr} {s t : State} (h : s.Inv) (hx : exec i s = .next t) : t.Inv := by
  have he := exec_effect hx
  obtain ⟨hic, hprog⟩ := he.ic_prog
  refine h.of_parts ?index (exec_readReg_zr hx) ?cache ?mem hprog
  case index =>
    obtain ⟨hidx, -⟩ | ⟨hle, -, -⟩ := he.idx_taken
    · exact hidx ▸ h.index
    · exact hle
  case cache =>
    intro pos c hc
    cases pos with
    | ic => exact h.cache .ic c (hic.symm.trans hc)
    | dc => exact he.dc_wf (h.cache .dc) c hc
  case mem =>
    obtain hm | ⟨a, n, v, hv, hm⟩ := he.mem
    · exact hm ▸ h.mem
    · exact hm ▸ State.written_wf v h.mem hv

/-- Every step that answers a next state keeps the invariant. -/
theorem State.Inv.of_step {s t : State} (h : s.Inv) (hs : step s = .next t) : t.Inv := by
  obtain ⟨-, rfl⟩ | ⟨-, i, hne, -, -, hrun⟩ := step_cases hs
  · exact h.complete
  · have hp := (h.beginStep hne).iProbe_final s.idx
    obtain ⟨f, u, hu, rfl⟩ | ⟨hit, u, hu, hx⟩ := hrun
    · rw [hu] at hp
      exact hp.takeFault f
    · rw [hu] at hp
      exact hp.of_exec hx

/-! ### A well-formed program is never refused (R54, R113) -/

/-- A list of checks is passed exactly when each of them is. -/
theorem firstFailing_eq_none {cs : List (WfCheck × Bool)} : firstFailing cs = none ↔ ∀ c ∈ cs, c.2 = true := by
  induction cs with
  | nil => simp [firstFailing]
  | cons c rest ih =>
    obtain ⟨check, ok⟩ := c
    cases ok <;> simp [firstFailing, ih]

/-- The target of a well-formed branch lies in `0..PLEN` (`WF_TARGET`, R113). -/
theorem Instr.targetOk_of_failing {i : Instr} {plen : Nat} {target : Int} (h : i.failing plen = none)
    (ht : i.target? = some target) : targetOk plen target = true := by
  cases i with
  | cbz rt k | cbnz rt k =>
    cases ht
    have hc : firstFailing [(.reg, isReg rt.toNat), (.target, targetOk plen target)] = none := h
    exact firstFailing_eq_none.1 hc (.target, targetOk plen target) (by simp)
  | beq k | bne k | bhs k | blo k | bhi k | bls k | bge k | blt k | bgt k | ble k | bmi k | bpl k | bvs k | bvc k
  | b k | bl k =>
    cases ht
    have hc : firstFailing [(.target, targetOk plen target)] = none := h
    exact firstFailing_eq_none.1 hc (.target, targetOk plen target) (by simp)
  | _ => cases ht

/-- The destination of a well-formed LDXR is not 31 (`WF_LDXR_RT`, R113). -/
theorem Instr.ldxr_rt_of_failing {rt rn : RegNum} {off : BitVec 9} {plen : Nat}
    (h : (Instr.ldxr rt rn off).failing plen = none) : rt ≠ zr := by
  have hc : firstFailing [(.reg, isReg rt.toNat && isReg rn.toNat), (.off9, inRange (-256) 255 off.toInt),
    (.ldxrRt, (rt.toNat : Int) != 31)] = none := h
  have hr := firstFailing_eq_none.1 hc (.ldxrRt, (rt.toNat : Int) != 31) (by simp)
  rintro rfl
  exact absurd hr (by decide)

/-- An instruction whose lines have run answers a next state, also when they raised (R246). -/
theorem Run.outcome_next (r : Run Unit) : ∃ t, r.outcome = .next t := by
  cases r with
  | done a s => exact ⟨s, rfl⟩
  | raised f s => exact ⟨s.takeFault f, rfl⟩

/-- A branch inside the program answers a next state, whether or not it is taken (R205). -/
theorem branchWhen_next (cond : Bool) {target : Int} {s : State} (h : targetOk s.plen target = true) :
    ∃ t, branchWhen cond target s = .next t := by
  unfold branchWhen
  rw [if_pos h]
  cases cond with
  | false => exact ⟨s, rfl⟩
  | true => exact ⟨s.branch target.toNat, rfl⟩

/-- A well-formed instruction answers a next state (R113, R240). -/
theorem exec_next {i : Instr} {s : State} (h : i.failing s.plen = none) : ∃ t, exec i s = .next t := by
  cases i with
  | ldur | ldursw | ldurh | ldurb | stur | sturw | sturh | sturb | stxr | br => exact Run.outcome_next _
  | ldxr rt rn off =>
    obtain ⟨t, ht⟩ := Run.outcome_next (loadExclusive rt rn off s)
    exact ⟨t, (if_neg (Instr.ldxr_rt_of_failing h)).trans ht⟩
  | cbz _ k | cbnz _ k | beq k | bne k | bhs k | blo k | bhi k | bls k | bge k | blt k | bgt k | ble k | bmi k | bpl k
  | bvs k | bvc k | b k => exact branchWhen_next _ (Instr.targetOk_of_failing h rfl)
  | bl k =>
    have hplen : (s.writeReg lrIndex (s.instrAddr s.idx)).plen = s.plen := State.plen_congr (by simp)
    exact branchWhen_next true (hplen ▸ Instr.targetOk_of_failing h rfl)
  | _ => exact ⟨_, rfl⟩ -- the computing instructions, none of which can raise or be refused

/-- A position that no reset refuses holds a well-formed instruction (R113, R126). -/
theorem Slot.instr_of_failing {slot : Slot} {plen : Nat} (h : slot.failing plen = none) :
    ∃ i, slot.form = .instr i ∧ i.failing plen = none := by
  unfold Slot.failing at h
  cases hf : slot.form with
  | instr i => rw [hf] at h; exact ⟨i, rfl, by simpa using h⟩
  | illegalWord w => rw [hf] at h; cases h
  | badRecord c => rw [hf] at h; cases h

/-- A well-formed instruction answers a next state after the probe of its own fetch, also when that faults (R245). -/
theorem runInstr_next (k : Nat) {i : Instr} {s : State} (h : i.failing s.plen = none) :
    ∃ t, runInstr k i s = .next t := by
  obtain ⟨-, -, hprog, -⟩ := iProbe_frame k s
  unfold runInstr
  cases hu : iProbe k s with
  | raised f u => exact ⟨u.takeFault f, rfl⟩
  | done hit u =>
    rw [hu, Run.final_done] at hprog
    exact exec_next (by rwa [State.plen_congr hprog])

/-- From a state with the invariant a step answers a next state. -/
theorem State.Inv.exists_step {s : State} (h : s.Inv) : ∃ t, step s = .next t := by
  by_cases hend : s.idx = s.plen
  · exact ⟨s.complete, if_pos hend⟩
  · have hlt : s.idx < s.prog.length := Nat.lt_of_le_of_ne h.index hend
    have hslot : s.prog[s.idx]? = some s.prog[s.idx] := List.getElem?_eq_getElem hlt
    obtain ⟨i, hi, hwf⟩ := Slot.instr_of_failing (h.prog _ (List.getElem_mem hlt))
    obtain ⟨t, ht⟩ := runInstr_next s.idx (s := s.beginStep) hwf
    refine ⟨t, ?_⟩
    unfold step stepOnce runSlot
    rw [if_neg hend, hslot]
    simp only [hi, ht]

/-! ### Reset: what it accepts and what it leaves (R53, R270) -/

/-- The registers after reset: 0 but for the stack pointer. -/
theorem State.fresh_readReg (params : Params) (ic dc : Option Cache) (prog : List Slot) (mem : Memory) (r : RegNum) :
    (State.fresh params ic dc prog mem).readReg r = if r = spIndex then params.stackBase else 0 := by
  have hr : (28 = r.toNat) ↔ r = spIndex := by rw [← BitVec.toNat_inj, eq_comm]; rfl
  simp [State.readReg, State.fresh, resetRegs, Vector.getElem_set, hr]

/-- The fresh cache of a legal geometry is well formed (R81 (c)). -/
theorem freshCache_wf {bsb ib : Nat} (h : ib + bsb ≤ 62) : (freshCache bsb ib).Wf where
  bits := h
  entries := by simp [freshCache, Cache.numEntries]
  blocks := by simp [freshCache, freshEntry, Cache.blockSize]
  tags := by simp [freshCache, freshEntry]

theorem isPowerOfTwo_log2 {n : Nat} (h : isPowerOfTwo n = true) : 2 ^ Nat.log2 n = n := by
  simp only [isPowerOfTwo, Bool.and_eq_true, beq_iff_eq] at h
  exact h.2

/-- The cache that a pair builds is the fresh one of a legal geometry (R80, R81). -/
theorem buildCache_built {p : CachePair} {c : Cache} (h : buildCache p = .built c) :
    ∃ bsb ib, c = freshCache bsb ib ∧ ib + bsb ≤ 62 := by
  unfold buildCache at h
  split at h
  · cases h
  dsimp only at h
  split at h
  · cases h
  rename_i hdiv
  split at h
  · cases h
  rename_i hlegal
  cases h
  simp only [not_or, Bool.not_eq_false, not_not, not_le] at hdiv hlegal
  refine ⟨_, _, rfl, ?_⟩
  have hsize : 2 ^ (Nat.log2 (p.size.toNat / p.blocksize.toNat) + Nat.log2 p.blocksize.toNat) = p.size.toNat := by
    rw [Nat.pow_add, isPowerOfTwo_log2 hdiv.2, isPowerOfTwo_log2 hlegal.1,
      Nat.div_mul_cancel (Nat.dvd_of_mod_eq_zero hdiv.1)]
  exact Nat.le_of_lt_succ ((Nat.pow_lt_pow_iff_right (by decide)).1 (hsize ▸ hlegal.2))

/-- A cache that a pair builds is well formed. -/
theorem buildCache_wf {p : CachePair} {c : Cache} (h : buildCache p = .built c) : c.Wf := by
  obtain ⟨bsb, ib, rfl, hbits⟩ := buildCache_built h
  exact freshCache_wf hbits

/-- A position of validation with nothing to object to goes on. -/
theorem resetPosition_of_builds {pos : CachePos} {cfg : Option CachePair} (rest : Option Cache → ResetOutcome)
    (h : ∀ p, cfg = some p → ∃ c, buildCache p = .built c) : ∃ c, resetPosition pos cfg rest = rest c := by
  cases cfg with
  | none => exact ⟨none, rfl⟩
  | some p =>
    obtain ⟨c, hc⟩ := h p rfl
    exact ⟨some c, by simp [resetPosition, hc]⟩

/-- Reset answers `Ready` where it has nothing to object to. -/
theorem resetWith_of_accepts {params : Params} {prog : List Slot} (mem : Memory) (h : resetAccepts params prog) :
    ∃ s, resetWith params prog mem = .ready s := by
  obtain ⟨hpairs, hprog⟩ := h
  unfold resetWith
  obtain ⟨ic, hic⟩ := resetPosition_of_builds (pos := .ic) (cfg := params.icCfg) _ (hpairs .ic)
  rw [hic]
  obtain ⟨dc, hdc⟩ := resetPosition_of_builds (pos := .dc) (cfg := params.dcCfg) _ (hpairs .dc)
  rw [hdc]
  unfold resetProgram
  rw [firstFailingSlot_eq_none.2 hprog]
  exact ⟨_, rfl⟩

/-- The cache at a position after reset is what its strap says (R45, R80). -/
theorem resetWith_ready_cacheAt {params : Params} {prog : List Slot} {mem : Memory} {s : State}
    (h : resetWith params prog mem = .ready s) (pos : CachePos) :
    (cacheStrap params pos = none ∧ s.cacheAt pos = none) ∨
      ∃ p c, cacheStrap params pos = some p ∧ buildCache p = .built c ∧ s.cacheAt pos = some c := by
  obtain ⟨ic, dc, rfl, -, hic, hdc⟩ := resetWith_ready h
  cases pos with
  | ic => exact hic
  | dc => exact hdc

/-- Reset answers `Ready` only where it has nothing to object to. -/
theorem resetWith_ready_accepts {params : Params} {prog : List Slot} {mem : Memory} {s : State}
    (h : resetWith params prog mem = .ready s) : resetAccepts params prog := by
  obtain ⟨-, -, -, hprog, -, -⟩ := resetWith_ready h
  refine ⟨fun pos p hp => ?_, hprog⟩
  obtain ⟨hn, -⟩ | ⟨q, c, hq, hb, -⟩ := resetWith_ready_cacheAt h pos
  · rw [hn] at hp; cases hp
  · rw [hq] at hp; cases hp; exact ⟨c, hb⟩

/-- A cache after reset is one that a pair built. -/
theorem resetWith_ready_built {params : Params} {prog : List Slot} {mem : Memory} {s : State}
    (h : resetWith params prog mem = .ready s) {pos : CachePos} {c : Cache} (hc : s.cacheAt pos = some c) :
    ∃ p, buildCache p = .built c := by
  obtain ⟨-, hn⟩ | ⟨p, b, -, hb, hs⟩ := resetWith_ready_cacheAt h pos
  · rw [hn] at hc; cases hc
  · rw [hs] at hc; cases hc; exact ⟨p, hb⟩

/-- The state after reset has the invariant, when its caches, memory and program are as they should be. -/
theorem State.fresh_inv {params : Params} {ic dc : Option Cache} {prog : List Slot} {mem : Memory}
    (hcache : ∀ pos c, (State.fresh params ic dc prog mem).cacheAt pos = some c → c.Wf) (hmem : Memory.wf mem)
    (hprog : ∀ slot ∈ prog, slot.failing prog.length = none) : (State.fresh params ic dc prog mem).Inv where
  index := Nat.zero_le _
  reg31 := State.fresh_readReg params ic dc prog mem zr
  cache := hcache
  mem := hmem
  prog := hprog

/-- A reset that answers `Ready` leaves a state with the invariant. -/
theorem resetWith_ready_inv {params : Params} {prog : List Slot} {mem : Memory} {s : State} (hmem : Memory.wf mem)
    (h : resetWith params prog mem = .ready s) : s.Inv := by
  obtain ⟨ic, dc, rfl, hprog, -, -⟩ := resetWith_ready h
  refine State.fresh_inv (fun pos c hc => ?_) hmem hprog
  obtain ⟨p, hp⟩ := resetWith_ready_built h hc
  exact buildCache_wf hp

/-! ### The obligations -/

/-- Settles O10: the begun step, the probe, the instruction and the fault each keep the invariant; and a well-formed
instruction is never refused. -/
theorem stepKeepsInvariant : Obligations.StepKeepsInvariant :=
  ⟨fun _ _ h hs => h.of_step hs, fun _ h => h.exists_step⟩

/-- Settles O11, the fresh state with no cache, no program and nothing listed in memory. -/
theorem resetStateHasInvariant : Obligations.ResetStateHasInvariant := by
  refine State.fresh_inv (fun pos c hc => ?_) reset_mem_wf (by simp)
  cases pos <;> cases hc

/-- Settles O12: reset answers `Ready` where it has nothing to object to, and then every cache is one that a pair
built. -/
theorem resetEstablishesInvariant : Obligations.ResetEstablishesInvariant := by
  intro params prog mem hmem
  refine ⟨fun ha => ?_, fun s h => resetWith_ready_inv hmem h⟩
  obtain ⟨s, hs⟩ := resetWith_of_accepts mem ha
  exact ⟨s, hs, resetWith_ready_inv hmem hs⟩

/-- Settles O13: the state is the fresh one, and each of its caches is the one that its strap builds. -/
theorem resetValues : Obligations.ResetValues := by
  refine ⟨fun params prog mem => ⟨fun ⟨s, h⟩ => resetWith_ready_accepts h, resetWith_of_accepts mem⟩, ?_⟩
  intro params prog mem s h
  obtain ⟨ic, dc, rfl, -, -, -⟩ := resetWith_ready h
  have hreg := State.fresh_readReg params ic dc prog mem
  refine ⟨fun r hr => (hreg r).trans (if_neg hr), hreg spIndex, rfl, rfl, rfl, rfl, rfl, rfl, rfl, rfl, rfl, rfl,
    ?none, ?some, ?fresh⟩
  case none =>
    intro pos hn
    obtain ⟨-, hc⟩ | ⟨p, c, hp, -, -⟩ := resetWith_ready_cacheAt h pos
    · exact hc
    · rw [hn] at hp; cases hp
  case some =>
    intro pos p hp
    obtain ⟨hn, -⟩ | ⟨q, c, hq, hb, hc⟩ := resetWith_ready_cacheAt h pos
    · rw [hn] at hp; cases hp
    · rw [hq] at hp; cases hp; exact ⟨c, hb, hc⟩
  case fresh =>
    intro pos c hc
    obtain ⟨p, hp⟩ := resetWith_ready_built h hc
    obtain ⟨bsb, ib, rfl, -⟩ := buildCache_built hp
    refine ⟨rfl, rfl, by simp [freshCache, Cache.numEntries], fun e he => ?_⟩
    rw [List.eq_of_mem_replicate he]
    exact ⟨rfl, rfl, rfl⟩

/-- Settles O19: every change of the register file is a register write, and such a write drops register 31. -/
theorem register31NeverWritten : Obligations.Register31NeverWritten :=
  ⟨fun s i v hi => ⟨s.readReg_writeReg_same i v hi, fun _ hj => s.readReg_writeReg_ne v hj⟩, State.writeReg_zr,
    fun _ _ _ h => exec_readReg_zr h, fun _ _ h => step_readReg_zr h⟩

/-- Settles O20, by cases on the effect of the instruction. -/
theorem onlySettersChangeFlags : Obligations.OnlySettersChangeFlags :=
  fun _ _ _ h hne => (exec_effect h).flags.resolve_left hne

/-- Settles O21: the one register write that an instruction makes goes to the listed register. -/
theorem onlyListedRegisterChanges : Obligations.OnlyListedRegisterChanges := by
  intro i s t r h hne
  obtain hr | ⟨rd, v, hl, hr⟩ := (exec_effect h).regs
  · exact absurd (State.readReg_congr hr r) hne
  · have hrd : r = rd := by
      by_contra hrd
      exact hne ((State.readReg_congr hr r).trans (s.readReg_writeReg_ne v hrd))
    exact hrd ▸ hl

/-- Settles O22, by cases on the effect of the instruction. -/
theorem tagChangesOnlyAsListed : Obligations.TagChangesOnlyAsListed :=
  fun _ _ _ h hne => (exec_effect h).xtag.resolve_left hne

/-- Settles O24, by cases on the effect of the instruction: the index and `taken` change together. -/
theorem latchesOnlyByTheirWriters : Obligations.LatchesOnlyByTheirWriters := by
  intro i s t h
  have he := exec_effect h
  refine ⟨he.stxrOk.resolve_left, ?_⟩
  obtain ⟨hidx, htaken⟩ | ⟨-, hbranch⟩ := he.idx_taken
  · exact ⟨fun hne => absurd htaken hne, fun hne => absurd hidx hne⟩
  · exact ⟨fun _ => hbranch, fun _ => hbranch⟩

/-- Settles O60: what a run of byte writes does to every byte (`Memory.read_writeBytes`). -/
theorem hostWriteTouchesMemoryOnly : Obligations.HostWriteTouchesMemoryOnly := by
  intro s a bs
  have hread (x : Nat) := Memory.read_writeBytes s.mem a bs x
  refine ⟨fun p hp => ?_, fun b hb => ?_, rfl⟩
  · have hin : a ≤ a + p ∧ a + p < a + bs.length := by omega
    exact (hread (a + p)).trans (by rw [if_pos hin, Nat.add_sub_cancel_left])
  · exact (hread b).trans (if_neg (by omega))

end Sys2Proof.Machine
end

section
/-! PROOFS. The statements about memory and the caches (20_memory.md): which cache pairs build, the address fields
and the span, what a check leaves, what loads and stores do and how they fault, and that the caches never change a
result. The last is a simulation: an instruction that does not fault does the same in the state without caches
(`State.bare`), which is one and the same for any two states that differ in their caches alone. -/

namespace Sys2Proof.Machine

open Sys2Proof

/-! ### Which cache pairs build (R80, R81) -/

theorem isPowerOfTwo_iff {n : Nat} : isPowerOfTwo n = true ↔ ∃ e : Nat, n = 2 ^ e := by
  constructor
  · exact fun h => ⟨Nat.log2 n, (isPowerOfTwo_log2 h).symm⟩
  · rintro ⟨e, rfl⟩
    simp [isPowerOfTwo]

/-- The validation of a pair of positive numbers (R80, R81). -/
theorem buildCache_of_pos {m b : Nat} (hm : 0 < m) (hb : 0 < b) :
    buildCache ⟨m, b⟩ =
      if m % b ≠ 0 ∨ isPowerOfTwo (m / b) = false then .configurationError
      else if isPowerOfTwo b = false ∨ 2 ^ 63 ≤ m then .refused
      else .built (freshCache (Nat.log2 b) (Nat.log2 (m / b))) := by
  have hpos : ¬ ((m : Int) ≤ 0 ∨ (b : Int) ≤ 0) := by omega
  unfold buildCache
  rw [if_neg hpos]
  simp only [Int.toNat_natCast]

/-- A pair of which a number is not positive (R81 (a)). -/
theorem buildCache_of_not_pos {size blocksize : Int} (h : size ≤ 0 ∨ blocksize ≤ 0) :
    buildCache ⟨size, blocksize⟩ = .configurationError := if_pos h

/-- The pairs that are a `ConfigurationError` (R80, R81 (a)). -/
theorem buildCache_eq_configurationError_iff {size blocksize : Int} :
    buildCache ⟨size, blocksize⟩ = .configurationError ↔
      size ≤ 0 ∨ blocksize ≤ 0 ∨ size % blocksize ≠ 0 ∨ ¬ ∃ e : Nat, size / blocksize = 2 ^ e := by
  by_cases hpos : size ≤ 0 ∨ blocksize ≤ 0
  · simp only [buildCache_of_not_pos hpos, true_iff]
    tauto
  · obtain ⟨hs, hb⟩ := not_or.1 hpos
    obtain ⟨m, rfl⟩ := Int.eq_ofNat_of_zero_le (by omega : 0 ≤ size)
    obtain ⟨b, rfl⟩ := Int.eq_ofNat_of_zero_le (by omega : 0 ≤ blocksize)
    have hmod : (m : Int) % b = 0 ↔ m % b = 0 := by norm_cast
    have hpow : (∃ e : Nat, (m : Int) / b = 2 ^ e) ↔ isPowerOfTwo (m / b) = true := by
      rw [isPowerOfTwo_iff]; norm_cast
    have herr : ((m : Int) ≤ 0 ∨ (b : Int) ≤ 0 ∨ (m : Int) % b ≠ 0 ∨ ¬ ∃ e : Nat, (m : Int) / b = 2 ^ e) ↔
        m % b ≠ 0 ∨ isPowerOfTwo (m / b) = false := by
      rw [hpow, ne_eq, hmod, Bool.not_eq_true]
      tauto
    rw [buildCache_of_pos (by omega) (by omega), herr]
    by_cases h : m % b ≠ 0 ∨ isPowerOfTwo (m / b) = false
    · simp only [h, if_true]
    · simp only [h, if_false, iff_false]
      split_ifs <;> simp

/-- The pairs that build, and what they build (R80, R81 (b), (c), R82). -/
theorem buildCache_eq_built_iff {size blocksize : Int} {c : Cache} :
    buildCache ⟨size, blocksize⟩ = .built c ↔
      ∃ b e : Nat, blocksize = 2 ^ b ∧ size = 2 ^ (e + b) ∧ e + b < 63 ∧ c = freshCache b e := by
  constructor
  · intro h
    by_cases hpos : size ≤ 0 ∨ blocksize ≤ 0
    · rw [buildCache_of_not_pos hpos] at h; cases h
    obtain ⟨hs, hb⟩ := not_or.1 hpos
    obtain ⟨m, rfl⟩ := Int.eq_ofNat_of_zero_le (by omega : 0 ≤ size)
    obtain ⟨b, rfl⟩ := Int.eq_ofNat_of_zero_le (by omega : 0 ≤ blocksize)
    rw [buildCache_of_pos (by omega) (by omega)] at h
    split_ifs at h with herr href
    cases h
    simp only [not_or, ne_eq, not_not, Bool.not_eq_false, not_le] at herr href
    obtain ⟨e, he⟩ := isPowerOfTwo_iff.1 herr.2
    obtain ⟨k, rfl⟩ := isPowerOfTwo_iff.1 href.1
    have hm : m = 2 ^ (e + k) := by
      rw [Nat.pow_add, ← he, Nat.div_mul_cancel (Nat.dvd_of_mod_eq_zero herr.1)]
    refine ⟨k, e, by push_cast; rfl, by rw [hm]; push_cast; rfl, ?_, by rw [he, Nat.log2_two_pow, Nat.log2_two_pow]⟩
    exact (Nat.pow_lt_pow_iff_right (by decide)).1 (hm ▸ href.2)
  · rintro ⟨b, e, rfl, rfl, hlt, rfl⟩
    have hdiv : 2 ^ (e + b) / 2 ^ b = 2 ^ e := by rw [Nat.pow_add, Nat.mul_div_cancel _ (by positivity)]
    have hmod : 2 ^ (e + b) % 2 ^ b = 0 := by rw [Nat.pow_add, Nat.mul_mod_left]
    have hfit : ¬ 2 ^ 63 ≤ 2 ^ (e + b) := Nat.not_le.2 (Nat.pow_lt_pow_right (by decide) hlt)
    have hp (k : Nat) : isPowerOfTwo (2 ^ k) = true := isPowerOfTwo_iff.2 ⟨k, rfl⟩
    have h := buildCache_of_pos (m := 2 ^ (e + b)) (b := 2 ^ b) (by positivity) (by positivity)
    rw [hdiv, hmod, hp, hp, if_neg (by simp), if_neg (by simpa using hfit), Nat.log2_two_pow, Nat.log2_two_pow] at h
    exact_mod_cast h

/-- Settles O14, from the two characterizations. -/
theorem cachePairValidation : Obligations.CachePairValidation := by
  intro size blocksize
  refine ⟨buildCache_eq_configurationError_iff, fun b e hb hs hlt => ?_, fun c h => ?_⟩
  · refine ⟨freshCache b e, buildCache_eq_built_iff.2 ⟨b, e, hb, hs, hlt, rfl⟩, rfl, rfl, ?_, ?_, rfl, ?_⟩
    · rw [hb]; simp [Cache.blockSize, freshCache]
    · rw [hs]; simp [Cache.size, freshCache]
    · rfl
  · obtain ⟨b, e, hb, hs, hlt, rfl⟩ := buildCache_eq_built_iff.1 h
    exact ⟨hb, hs, hlt⟩

/-! ### The address decomposer as arithmetic (R84 to R88) -/

theorem toNat_ofNat_shiftLeft {x k : Nat} (h : x * 2 ^ k < 2 ^ 64) : (BitVec.ofNat 64 x <<< k).toNat = x * 2 ^ k := by
  rw [BitVec.toNat_shiftLeft, BitVec.toNat_ofNat, Nat.shiftLeft_eq, Nat.mod_mul_mod, Nat.mod_eq_of_lt h]

theorem Cache.blockSize_pos (c : Cache) : 0 < c.blockSize := Nat.two_pow_pos _

theorem Cache.size_eq (c : Cache) : c.size = c.numEntries * c.blockSize := Nat.pow_add ..

theorem Cache.offset_eq (c : Cache) (a : Word) : c.offset a = a.toNat % c.blockSize := rfl

theorem Cache.index_eq (c : Cache) (a : Word) : c.index a = a.toNat / c.blockSize % c.numEntries := by
  rw [Cache.index, BitVec.toNat_ushiftRight, Nat.shiftRight_eq_div_pow]; rfl

theorem Cache.index_lt (c : Cache) (a : Word) : c.index a < c.numEntries := Nat.mod_lt _ (Nat.two_pow_pos _)

theorem Cache.tag_eq {c : Cache} (hc : c.ib + c.bsb ≤ 62) (a : Word) : c.tag a = a.toNat / c.size := by
  have he : 64 - c.tagBits = c.ib + c.bsb := by unfold Cache.tagBits; omega
  rw [Cache.tag, he, BitVec.toNat_ushiftRight, Nat.shiftRight_eq_div_pow]; rfl

/-- The regions of all tags together are the address space (R82, R85). -/
theorem Cache.tagBits_mul_size {c : Cache} (hc : c.ib + c.bsb ≤ 62) : 2 ^ c.tagBits * c.size = 2 ^ 64 := by
  rw [Cache.size, ← Nat.pow_add, Cache.tagBits]
  congr 1; omega

/-- A block base as a number (R86). -/
theorem Cache.blockBase_toNat {c : Cache} {t i : Nat} (hc : c.ib + c.bsb ≤ 62) (ht : t < 2 ^ c.tagBits)
    (hi : i < c.numEntries) : (c.blockBase t i).toNat = t * c.size + i * c.blockSize := by
  have hblock : i * c.blockSize < c.size := by
    rw [Cache.size_eq]
    exact Nat.mul_lt_mul_of_pos_right hi c.blockSize_pos
  have hregion : t * c.size + c.size ≤ 2 ^ 64 := by
    rw [← Cache.tagBits_mul_size hc, ← Nat.succ_mul]
    exact Nat.mul_le_mul_right _ ht
  have htag : (BitVec.ofNat 64 t <<< (c.ib + c.bsb)).toNat = t * c.size :=
    toNat_ofNat_shiftLeft (show t * c.size < 2 ^ 64 by omega)
  have hidx : (BitVec.ofNat 64 i <<< c.bsb).toNat = i * c.blockSize :=
    toNat_ofNat_shiftLeft (show i * c.blockSize < 2 ^ 64 by omega)
  rw [Cache.blockBase, BitVec.toNat_or, htag, hidx, Nat.mul_comm t]
  exact (Nat.two_pow_add_eq_or_of_lt hblock t).symm

/-- A block base is a multiple of the block size (R86). -/
theorem Cache.blockBase_toNat_eq_mul {c : Cache} {t i : Nat} (hc : c.ib + c.bsb ≤ 62) (ht : t < 2 ^ c.tagBits)
    (hi : i < c.numEntries) : (c.blockBase t i).toNat = c.blockSize * (t * c.numEntries + i) := by
  rw [Cache.blockBase_toNat hc ht hi, Cache.size_eq]; ring

/-- The three fields of an address as numbers (R85). -/
theorem Cache.fields_sum {c : Cache} (hc : c.ib + c.bsb ≤ 62) (a : Word) :
    c.blockSize * (c.tag a * c.numEntries + c.index a) + c.offset a = a.toNat := by
  have htag : c.tag a = a.toNat / c.blockSize / c.numEntries := by
    rw [Cache.tag_eq hc, Cache.size_eq, Nat.div_div_eq_div_mul, Nat.mul_comm]
  rw [htag, Cache.index_eq, Cache.offset_eq, Nat.div_add_mod', Nat.div_add_mod]

/-- Settles O54: tag, index and offset take up disjoint bits, so putting them together adds them up. -/
theorem addressFieldsRecombine : Obligations.AddressFieldsRecombine := by
  intro c a hc
  refine ⟨c.index_lt a, c.tag_lt hc a, ?_⟩
  have hoff : c.offset a < c.blockSize := Nat.mod_lt _ c.blockSize_pos
  have hoff64 : (BitVec.ofNat 64 (c.offset a)).toNat = c.offset a :=
    Nat.mod_eq_of_lt ((Nat.mod_le _ _).trans_lt a.isLt)
  apply BitVec.eq_of_toNat_eq
  calc a.toNat = c.blockSize * (c.tag a * c.numEntries + c.index a) + c.offset a := (Cache.fields_sum hc a).symm
    _ = c.blockSize * (c.tag a * c.numEntries + c.index a) ||| c.offset a := Nat.two_pow_add_eq_or_of_lt hoff _
    _ = (c.blockBase (c.tag a) (c.index a)).toNat ||| (BitVec.ofNat 64 (c.offset a)).toNat := by
      rw [Cache.blockBase_toNat_eq_mul hc (c.tag_lt hc a) (c.index_lt a), hoff64]
    _ = _ := (BitVec.toNat_or ..).symm

/-- Settles O55, from the block base as a number. -/
theorem blockBaseInTagRegion : Obligations.BlockBaseInTagRegion := by
  intro c t i hc ht hi
  have hbase := Cache.blockBase_toNat hc ht hi
  have hblock : i * c.blockSize < c.size := by
    rw [Cache.size_eq]
    exact Nat.mul_lt_mul_of_pos_right hi c.blockSize_pos
  refine ⟨rfl, hbase, ?_, ?_, ?_⟩
  · rw [Cache.blockBase_toNat_eq_mul hc ht hi, Nat.mul_mod_right]
  · rw [hbase]; exact Nat.le_add_right _ _
  · rw [hbase, Nat.succ_mul]; exact Nat.add_lt_add_left hblock _

/-! ### The span of an access (R87, R88) -/

/-- The next block boundary as a number, modulo 2^64 (R87). -/
theorem Cache.nextBoundary_toNat (c : Cache) (a : Word) :
    (c.nextBoundary a).toNat = (a.toNat / c.blockSize + 1) * c.blockSize % 2 ^ 64 := by
  rw [Cache.nextBoundary, BitVec.toNat_shiftLeft, Nat.shiftLeft_eq, BitVec.toNat_add, Nat.mod_mul_mod,
    BitVec.toNat_ushiftRight, Nat.shiftRight_eq_div_pow]
  rfl

/-- The next boundary lies within the address space or at its end, since the block size divides 2^64. -/
theorem Cache.boundary_le {c : Cache} (hc : c.ib + c.bsb ≤ 62) (a : Word) :
    (a.toNat / c.blockSize + 1) * c.blockSize ≤ 2 ^ 64 := by
  have hspace : 2 ^ 64 = 2 ^ (64 - c.bsb) * c.blockSize := by
    rw [Cache.blockSize, ← Nat.pow_add]
    congr 1; omega
  have hlt : a.toNat / c.blockSize < 2 ^ (64 - c.bsb) :=
    Nat.div_lt_of_lt_mul (by rw [Nat.mul_comm, ← hspace]; exact a.isLt)
  rw [hspace]
  exact Nat.mul_le_mul_right _ hlt

/-- A pass of the span loop consumes the bytes up to the next boundary (R87). -/
theorem Cache.used_eq {c : Cache} (hc : c.ib + c.bsb ≤ 62) (a : Word) :
    (c.nextBoundary a - a).toNat = c.blockSize - a.toNat % c.blockSize := by
  have hB : c.blockSize ≤ 2 ^ 62 := Nat.pow_le_pow_right (by decide) (by omega)
  have hmod := Nat.mod_lt a.toNat c.blockSize_pos
  have ha := Nat.div_add_mod' a.toNat c.blockSize
  have hle := Cache.boundary_le hc a
  rw [BitVec.toNat_sub, Cache.nextBoundary_toNat]
  rw [Nat.succ_mul] at hle ⊢
  generalize a.toNat / c.blockSize * c.blockSize = p at *
  generalize a.toNat % c.blockSize = r at *
  have := a.isLt
  omega

/-- The number of blocks that a range touches, and their numbers, as the span loop lists them (R87, R88). -/
theorem Cache.spanLoop_eq {c : Cache} (hc : c.ib + c.bsb ≤ 62) {fuel : Nat} {a : Word} {n : Nat} (hn : 1 ≤ n)
    (hfuel : n ≤ fuel) (hwrap : a.toNat + n ≤ 2 ^ 64) :
    c.spanLoop fuel a n =
      (List.range' (a.toNat / c.blockSize) ((a.toNat + n - 1) / c.blockSize - a.toNat / c.blockSize + 1)).map
        (· % c.numEntries) := by
  induction fuel generalizing a n with
  | zero => omega
  | succ fuel ih =>
    have hmod := Nat.mod_lt a.toNat c.blockSize_pos
    have ha := Nat.div_add_mod' a.toNat c.blockSize
    have hnext : (a.toNat / c.blockSize + 1) * c.blockSize = a.toNat + (c.blockSize - a.toNat % c.blockSize) := by
      rw [Nat.succ_mul]; omega
    rw [Cache.spanLoop, Cache.used_eq hc, Cache.index_eq, List.range'_succ, List.map_cons]
    congr 1
    split
    · -- the range ends in the block of `a`
      rename_i hlast
      have hsame : (a.toNat + n - 1) / c.blockSize = a.toNat / c.blockSize :=
        Nat.div_eq_of_lt_le (by omega) (by omega)
      simp [hsame]
    · -- the range goes on at the next boundary, in the next block
      rename_i hmore
      have hb : (c.nextBoundary a).toNat = (a.toNat / c.blockSize + 1) * c.blockSize := by
        rw [Cache.nextBoundary_toNat]
        exact Nat.mod_eq_of_lt (by omega)
      have hreach : a.toNat / c.blockSize + 1 ≤ (a.toNat + n - 1) / c.blockSize :=
        (Nat.le_div_iff_mul_le c.blockSize_pos).2 (by omega)
      have hrest : (c.nextBoundary a).toNat + (n - (c.blockSize - a.toNat % c.blockSize)) = a.toNat + n := by omega
      rw [ih (by omega) (by omega) (by omega), hrest, hb, Nat.mul_div_cancel _ c.blockSize_pos]
      congr 2
      omega

/-- Settles O56, from the list that the span loop makes. -/
theorem spanListsTouchedBlocks : Obligations.SpanListsTouchedBlocks := by
  intro c a n hc hn hwrap
  have hspan : c.span a n = _ := Cache.spanLoop_eq hc hn (Nat.le_succ n) hwrap
  refine ⟨by rw [hspan]; simp, fun j hj => ?_⟩
  rw [hspan] at hj ⊢
  rw [List.length_map, List.length_range'] at hj
  simp [hj]

/-! ### The outcome of a cache check (R89 to R95) -/

/-- An entry passes the hit test: it is there, valid, and has the tag (R91). -/
theorem Cache.entryHits_iff {c : Cache} {t i : Nat} :
    c.entryHits t i = true ↔ ∃ e, c.entries[i]? = some e ∧ e.valid = true ∧ e.tag = t := by
  unfold Cache.entryHits
  cases c.entries[i]? with
  | none => simp
  | some e => simp

/-- An access hits when every entry of its span does (R90). -/
theorem Cache.spanHits_iff {c : Cache} {t : Nat} {sp : List Nat} :
    c.spanHits t sp = true ↔ ∀ i ∈ sp, ∃ e, c.entries[i]? = some e ∧ e.valid = true ∧ e.tag = t := by
  simp only [Cache.spanHits, List.all_eq_true, Cache.entryHits_iff]

/-- The elements of a span are entries of the cache (R84, R87). -/
theorem Cache.mem_spanLoop_lt {c : Cache} {fuel : Nat} {a : Word} {n i : Nat} (h : i ∈ c.spanLoop fuel a n) :
    i < c.numEntries := by
  induction fuel generalizing a n with
  | zero => cases h
  | succ fuel ih =>
    obtain rfl | h := List.mem_cons.1 h
    · exact c.index_lt a
    · split at h
      · cases h
      · exact ih h

/-- After a check that went through every entry of the span is valid with the tag of the access, and on a miss
holds its own block (R90, R92). -/
theorem checkedOnce.spanned {a : Word} {n : Nat} {c c' : Cache} {m : State} (h : checkedOnce a n c c' m) (hc : c.Wf)
    {i : Nat} (hi : i ∈ c.span a n) :
    ∃ e, c'.entries[i]? = some e ∧ e.valid = true ∧ e.tag = c.tag a ∧
      (c.spanHits (c.tag a) (c.span a n) = false → e = c.refilledEntry m (c.tag a) i) := by
  obtain ⟨⟨-, -, -, -, hsame⟩, hfill⟩ := h
  cases hh : c.spanHits (c.tag a) (c.span a n) with
  | true =>
    obtain ⟨e, he, hv, ht⟩ := Cache.spanHits_iff.1 hh i hi
    exact ⟨e, by rw [hsame hh, he], hv, ht, nofun⟩
  | false =>
    obtain ⟨-, hin, -⟩ := hfill hh
    have hlt : i < c.entries.length := by rw [hc.entries]; exact Cache.mem_spanLoop_lt hi
    exact ⟨_, hin i hi hlt, rfl, rfl, fun _ => rfl⟩

/-- A check that went through leaves the entries outside the span as they were (R90, R92). -/
theorem checkedOnce.outside {a : Word} {n : Nat} {c c' : Cache} {m : State} (h : checkedOnce a n c c' m) {i : Nat}
    (hi : i ∉ c.span a n) : c'.entries[i]? = c.entries[i]? := by
  obtain ⟨⟨-, -, -, -, hsame⟩, hfill⟩ := h
  cases hh : c.spanHits (c.tag a) (c.span a n) with
  | true => rw [hsame hh]
  | false => exact (hfill hh).2.2 i hi

/-- Settles O57: a check that went through leaves its cache checked once, and memory as it was. -/
theorem cacheCheckOutcome : Obligations.CacheCheckOutcome := by
  intro pos a n s t c hit hs hc h
  obtain ⟨hframe, -, -, hcheck⟩ := cacheProbe_done h
  obtain ⟨c', ht, honce, rfl⟩ := hcheck c hs
  have hbyte (x : Nat) : t.byteAt x = s.byteAt x := State.byteAt_congr (by rw [hframe]) x
  refine ⟨c', ht, honce.1, Cache.spanHits_iff, fun i hi => ?_, fun i => honce.outside⟩
  obtain ⟨e, he, hv, htag, hblock⟩ := honce.spanned hc hi
  refine ⟨e, he, hv, htag, fun hm => ?_⟩
  rw [hblock hm]
  simp only [Cache.refilledEntry, hbyte]

/-! ### The memory port (R60) -/

/-- Settles O33: the bits of the value read are those of the bytes, and the port alone records the transaction. -/
theorem memoryReadPrimitive : Obligations.MemoryReadPrimitive := by
  intro a n s _
  rw [memRead_eq]
  refine ⟨fun hv => ⟨s.issue [.read a n], by rw [if_neg (by simp [hv])], rfl⟩, fun hv =>
    ⟨s.loaded a n, s.issue [.read a n], if_pos hv, fun j hj => ?_, rfl⟩⟩
  rw [Bool.false_and]
  exact memRead_value_getLsbD s a.toNat n j hj

/-- The effective address as the claims write it (R114, R175). -/
theorem State.effAddr_eq (s : State) (rn : RegNum) (off : BitVec 9) :
    s.effAddr rn off = s.readReg rn + off.signExtend 64 := rfl

/-! ### Loads and stores by form (R180 to R187) -/

/-- Each load instruction is the load of its size with its extension (R66). -/
theorem exec_loadForm {f : LoadForm} (hf : f ∈ loadForms) :
    ∃ e : Extension, (∀ rt rn off s, exec (f.instr rt rn off) s = (load rt rn off f.size e s).outcome) ∧
      ∀ s a, loadsValue s a.toNat f.size f.signed (e.apply (s.loaded a f.size)) := by
  simp only [loadForms, List.mem_cons, List.not_mem_nil, or_false] at hf
  obtain rfl | rfl | rfl | rfl := hf
  · exact ⟨.identity, fun _ _ _ _ => rfl, fun s a => loaded_extension s a 8 false _ (by simp)⟩
  · exact ⟨.sext32, fun _ _ _ _ => rfl, fun s a => loaded_extension s a 4 true _ (by simp)⟩
  · exact ⟨.zext16, fun _ _ _ _ => rfl, fun s a => loaded_extension s a 2 false _ (by simp)⟩
  · exact ⟨.zext8, fun _ _ _ _ => rfl, fun s a => loaded_extension s a 1 false _ (by simp)⟩

/-- Each store instruction is the store of its size (R66). -/
theorem exec_storeForm {f : StoreForm} (hf : f ∈ storeForms) (rt rn : RegNum) (off : BitVec 9) (s : State) :
    exec (f.instr rt rn off) s = (store rt rn off f.size s).outcome := by
  simp only [storeForms, List.mem_cons, List.not_mem_nil, or_false] at hf
  obtain rfl | rfl | rfl | rfl := hf <;> rfl

/-- A store whose base passes the stack-pointer check is its write and check and then the tag rule (R179). -/
theorem exec_storeForm_eq {f : StoreForm} (hf : f ∈ storeForms) {rn : RegNum} {s : State} (hb : baseOk rn s)
    (rt : RegNum) (off : BitVec 9) :
    exec (f.instr rt rn off) s =
      ((dProbeW (s.effAddr rn off) f.size (s.readReg rt) s).andThen fun _ t =>
        .done () (t.clearTagOn (s.effAddr rn off) f.size)).outcome := by
  rw [exec_storeForm hf, store_eq hb]

/-- An STXR that matches is its write and check and then the outcome (R197). -/
theorem exec_stxr_eq {rn : RegNum} {s : State} (hb : baseOk rn s) (hx : s.xtag = some (s.readReg rn))
    (rt rs : RegNum) :
    exec (.stxr rt rs rn) s =
      ((dProbeW (s.readReg rn) 8 (s.readReg rt) s).andThen fun _ t => .done () (t.stxrDone rs)).outcome := by
  show (storeExclusive rt rs rn s).outcome = _
  rw [storeExclusive_eq hb, if_pos hx]

/-- The write and check of a store to a valid address is the check of the state just written (R97). -/
theorem dProbeW_of_valid {a : Word} {n : Nat} {s : State} (h : s.params.memValid a n .store = true) (v : Word) :
    dProbeW a n v s = dProbe a n (s.written a n v) := by
  unfold dProbeW cacheProbeW
  rw [memWrite_eq, if_pos h]; rfl

/-- To an address that is not valid it raises at the write, which stores nothing (R61). -/
theorem dProbeW_of_invalid {a : Word} {n : Nat} {s : State} (h : s.params.memValid a n .store = false) (v : Word) :
    dProbeW a n v s = .raised { kind := .segment, addr := a } (s.issue [.write a n (lowBytes n v)]) := by
  unfold dProbeW cacheProbeW
  rw [memWrite_eq, if_neg (by simp [h])]; rfl

/-- A load to a register other than 31 is its lines and then the register write (R178). -/
theorem load_eq {rt : RegNum} (hrt : rt ≠ zr) (rn : RegNum) (off : BitVec 9) (n : Nat) (e : Extension) (s : State) :
    load rt rn off n e s =
      (loadValue rn (s.effAddr rn off) n s).andThen fun v t => .done () (t.writeReg rt (e.apply v)) :=
  if_neg hrt

/-- LDXR to a register other than 31 (R196). -/
theorem exec_ldxr {rt : RegNum} (hrt : rt ≠ zr) (rn : RegNum) (off : BitVec 9) (s : State) :
    exec (.ldxr rt rn off) s =
      ((loadValue rn (s.effAddr rn off) 8 s).andThen fun v t => .done () (t.ldxrDone rt v (s.effAddr rn off))).outcome :=
  if_neg hrt

/-- Where the lines of a load or LDXR raise, the instruction ends in that fault (R178, R196). -/
theorem exec_of_loadValue_raised {i : Instr} {rt rn : RegNum} {off : BitVec 9} {n : Nat} {s u : State} {f : Raise}
    (hrt : rt ≠ zr) (hi : i = .ldxr rt rn off ∧ n = 8 ∨ ∃ g ∈ loadForms, i = g.instr rt rn off ∧ n = g.size)
    (h : loadValue rn (s.effAddr rn off) n s = .raised f u) : exec i s = .next (u.takeFault f) := by
  obtain ⟨rfl, rfl⟩ | ⟨g, hg, rfl, rfl⟩ := hi
  · rw [exec_ldxr hrt, h]; rfl
  · obtain ⟨e, hexec, -⟩ := exec_loadForm hg
    rw [hexec, load_eq hrt, h]; rfl

/-! ### What a data transfer leaves, in the terms of the claims -/

/-- Everything but the data cache and the port, field by field. -/
theorem portOnly.fields {s t : State} (h : portOnly s t) :
    t.regs = s.regs ∧ t.idx = s.idx ∧ t.flags = s.flags ∧ t.xtag = s.xtag ∧ t.taken = s.taken ∧
      t.stxrOk = s.stxrOk ∧ t.ic = s.ic ∧ t.prog = s.prog ∧ t.mem = s.mem ∧ t.params = s.params ∧
      t.status = s.status := by
  unfold portOnly at h
  rw [h]
  exact ⟨rfl, rfl, rfl, rfl, rfl, rfl, rfl, rfl, rfl, rfl, rfl⟩

theorem portOnly.mem_eq {s t : State} (h : portOnly s t) : t.mem = s.mem := by simp [h.fields]

theorem portOnly.params_eq {s t : State} (h : portOnly s t) : t.params = s.params := by simp [h.fields]

theorem memSame_of_mem_eq {s t : State} (h : t.mem = s.mem) : memSame s t := fun b => State.byteAt_congr h b

/-- Which bytes were stored depends on memory before and after, and on the byte order. -/
theorem storesValue.of_eq {a n : Nat} {v : Word} {s t t' : State} (h : storesValue a n v s t) (ht : t'.mem = t.mem) :
    storesValue a n v s t' := by
  unfold storesValue memSameOutside State.byteAt at *
  rwa [ht]

/-- The record of a fault depends on the index and the program (R241). -/
theorem State.record_congr {s t : State} (hidx : t.idx = s.idx) (hprog : t.prog = s.prog) (k : FaultKind) (a : Word) :
    t.record k a = s.record k a := by
  unfold State.record State.fetchedLine
  rw [hidx, hprog]

/-- A fault taken where nothing but the data cache and the port has changed. -/
theorem portOnly.takeFault {s u : State} (h : portOnly s u) (f : Raise) :
    (u.takeFault f).status = s.record f.kind f.addr ∧ faultFrame s (u.takeFault f) := by
  obtain ⟨hregs, hidx, hflags, hxtag, htaken, hstxr, hic, hprog, -, hparams, -⟩ := h.fields
  exact ⟨State.record_congr hidx hprog _ _, fun r _ => State.readReg_congr hregs r, hxtag, hstxr, hidx, htaken, hflags,
    hic, hprog, hparams⟩

/-- A fault taken after a store's bytes were written, where nothing else but the data cache and the port has
changed. -/
theorem portOnly.takeFault_written {s u : State} {a : Word} {n : Nat} {v : Word} (h : portOnly (s.written a n v) u)
    (f : Raise) :
    (u.takeFault f).status = s.record f.kind f.addr ∧ faultFrame s (u.takeFault f) ∧
      storesValue a.toNat n v s (u.takeFault f) := by
  obtain ⟨hst, hfr⟩ := h.takeFault f
  exact ⟨hst, hfr, (s.written_stores a n v).of_eq h.mem_eq⟩

/-! ### Loads and stores that complete -/

/-- Settles O35: the lines of the load get to their end with nothing but the data cache and the port changed; then
the one register write. -/
theorem loadCompletes : Obligations.LoadCompletes := by
  unfold Obligations.LoadCompletes
  simp only [← State.effAddr_eq]
  intro f hf rt rn off s hrt hb hp hv
  obtain ⟨e, hexec, hvalue⟩ := exec_loadForm hf
  obtain ⟨u, hu⟩ := loadValue_of_ok hb hp hv
  obtain ⟨-, -, -, -, honly, hcheck, hport⟩ := loadValue_done hu
  obtain ⟨hregs, hidx, hflags, hxtag, htaken, hstxr, hic, hprog, hmem, hparams, hstatus⟩ := honly.fields
  refine ⟨u.writeReg rt (e.apply (s.loaded (s.effAddr rn off) f.size)), ?exec, ?value, ?regs, ?mem, ?xtag, ?stxrOk,
    ?status, ?frame, ?check, ?port⟩
  case exec => rw [hexec, load_eq hrt, hu]; rfl
  case value => rw [State.readReg_writeReg_same _ _ _ hrt]; exact hvalue s _
  case regs =>
    intro r hr
    rw [State.readReg_writeReg_ne _ _ (by simpa using hr)]
    exact State.readReg_congr hregs r
  case mem => exact memSame_of_mem_eq (by simp [hmem])
  case frame => simp [dataFrame, fixedSame, hidx, htaken, hflags, hic, hprog, hparams]
  case check => exact hcheck.of_eq rfl (by simp) (by simp)
  case port => intro hd; simp [hport hd]
  all_goals simp [hxtag, hstxr, hstatus]

/-- Settles O36: the bytes are written, the check of the data cache changes nothing else but the port, and the tag
is cleared on overlap. -/
theorem storeCompletes : Obligations.StoreCompletes := by
  unfold Obligations.StoreCompletes
  simp only [← State.effAddr_eq]
  intro f hf rt rn off s hb hv hp
  obtain ⟨hit, u, hu⟩ := dProbe_of_ok (probeOk_written (a := s.effAddr rn off) (n := f.size) (v := s.readReg rt) hp)
  obtain ⟨honly, hcheck, hnone⟩ := dProbe_done hu
  obtain ⟨hregs, hidx, hflags, hxtag, htaken, hstxr, hic, hprog, hmem, hparams, hstatus⟩ := honly.fields
  refine ⟨u.clearTagOn (s.effAddr rn off) f.size, ?exec, ?bytes, ?regs, ?stxrOk, ?status, ?frame, ?tag, ?check, ?port⟩
  case exec => rw [exec_storeForm_eq hf hb, dProbeW_of_valid hv, hu]; rfl
  case bytes => exact (s.written_stores _ _ _).of_eq (by simp [hmem])
  case regs => exact fun r _ => State.readReg_congr (by simp [hregs]) r
  case frame => simp [dataFrame, fixedSame, hidx, htaken, hflags, hic, hprog, hparams]
  case tag => rw [State.clearTagOn_xtag, hxtag]; rfl
  case check => exact hcheck.of_eq rfl (by simp) (by simp)
  case port => intro hd; simp [hnone hd]
  all_goals simp [hstxr, hstatus]

/-! ### Loads and stores that fault -/

/-- Settles O38: the lines of the load raise at the read, after the check. -/
theorem invalidLoadFaults : Obligations.InvalidLoadFaults := by
  intro s rt rn off i n hrt hb hi hp hv
  obtain ⟨u, hu, hcheck⟩ := loadValue_of_invalid hb hp hv
  obtain ⟨honly, -⟩ := loadValue_raised hu
  obtain ⟨hst, hfr⟩ := honly.takeFault { kind := .segment, addr := s.effAddr rn off }
  exact ⟨_, exec_of_loadValue_raised hrt hi hu, hst, hfr, memSame_of_mem_eq honly.mem_eq, hcheck.of_eq rfl rfl rfl⟩

/-- Settles O40: the lines of the load raise in the refill. -/
theorem loadRefillFaults : Obligations.LoadRefillFaults := by
  intro s rt rn off i n base hrt hb hi hp
  obtain ⟨u, hu, hstop⟩ := loadValue_of_faults hb hp
  obtain ⟨honly, -⟩ := loadValue_raised hu
  obtain ⟨hst, hfr⟩ := honly.takeFault { kind := .segment, addr := base }
  exact ⟨_, exec_of_loadValue_raised hrt hi hu, hst, hfr, memSame_of_mem_eq honly.mem_eq, hstop.of_eq rfl rfl rfl rfl⟩

/-- Settles O39: the write raises before anything is stored, so only the port has changed when the fault is
taken. -/
theorem invalidStoreFaults : Obligations.InvalidStoreFaults := by
  intro s rt rs rn off hb
  refine ⟨fun f hf hv => ?store, fun hx hv => ?stxr⟩
  case store =>
    have hw := dProbeW_of_invalid hv (s.readReg rt)
    rw [exec_storeForm_eq hf hb, State.effAddr_eq, hw]
    exact ⟨_, rfl, rfl, rfl⟩
  case stxr =>
    have hw := dProbeW_of_invalid hv (s.readReg rt)
    rw [exec_stxr_eq hb hx, hw]
    exact ⟨_, rfl, rfl, rfl⟩

/-- A store's write and check that raises in the refill, with what the fault then leaves (R179, R197). -/
theorem dProbeW_of_faults {a : Word} {n : Nat} {s : State} {base : Word} (hv : s.params.memValid a n .store = true)
    (hp : probeFaultsAt .dc a n s base) (v : Word) :
    ∃ u, dProbeW a n v s = .raised { kind := .segment, addr := base } u ∧
      (u.takeFault { kind := .segment, addr := base }).status = s.record .segment base ∧
      faultFrame s (u.takeFault { kind := .segment, addr := base }) ∧
      storesValue a.toNat n v s (u.takeFault { kind := .segment, addr := base }) ∧
      refillStopped .dc a n s (u.takeFault { kind := .segment, addr := base }) := by
  obtain ⟨u, hu⟩ := dProbe_of_faults (s := s.written a n v) hp
  obtain ⟨honly, -, -, hstop⟩ := dProbe_raised hu
  obtain ⟨hst, hfr, hbytes⟩ := honly.takeFault_written { kind := .segment, addr := base }
  exact ⟨u, (dProbeW_of_valid hv v).trans hu, hst, hfr, hbytes, hstop.of_eq rfl rfl rfl rfl⟩

/-- Settles O41: the bytes are written and the refill after them raises. -/
theorem storeRefillFaults : Obligations.StoreRefillFaults := by
  intro s rt rs rn off base hb
  refine ⟨fun f hf hv hp => ?store, fun hx hv hp => ?stxr⟩
  case store =>
    obtain ⟨u, hu, hleft⟩ := dProbeW_of_faults hv hp (s.readReg rt)
    exact ⟨_, by rw [exec_storeForm_eq hf hb, State.effAddr_eq, hu]; rfl, hleft⟩
  case stxr =>
    obtain ⟨u, hu, hleft⟩ := dProbeW_of_faults hv hp (s.readReg rt)
    exact ⟨_, by rw [exec_stxr_eq hb hx, hu]; rfl, hleft⟩

/-! ### A load after a store (R102 (c)) -/

/-- An instruction's lines that ended without a fault got to their end. -/
theorem Run.eq_done_of_continuing {r : Run Unit} {t : State} (h : r.outcome = .next t) (hc : t.status = .continuing) :
    r = .done () t := by
  obtain h | ⟨f, u, -, rfl⟩ := r.outcome_cases h
  · exact h
  · cases hc

/-- A store that did not fault has written its bytes. -/
theorem store_written {rt rn : RegNum} {off : BitVec 9} {n : Nat} {s t : State}
    (h : (store rt rn off n s).outcome = .next t) (hc : t.status = .continuing) :
    t.mem = (s.written (s.effAddr rn off) n (s.readReg rt)).mem ∧ t.params = s.params := by
  obtain ⟨-, -, u, hit, hu, rfl⟩ := store_done (Run.eq_done_of_continuing h hc)
  have honly := (dProbe_done hu).1
  simp [honly.mem_eq, honly.params_eq]

/-- An STXR that succeeded without a fault has written its doubleword. -/
theorem stxr_written {rt rs rn : RegNum} {s t : State} (h : (storeExclusive rt rs rn s).outcome = .next t)
    (hc : t.status = .continuing) (hok : t.stxrOk = true) :
    t.mem = (s.written (s.readReg rn) 8 (s.readReg rt)).mem ∧ t.params = s.params := by
  obtain ⟨-, ⟨-, rfl⟩ | ⟨-, -, u, hit, hu, rfl⟩⟩ := storeExclusive_done (Run.eq_done_of_continuing h hc)
  · cases hok
  · have honly := (dProbe_done hu).1
    simp [honly.mem_eq, honly.params_eq]

/-- A load that did not fault has put the extended value into its register. -/
theorem load_readReg {rt rn : RegNum} {off : BitVec 9} {n : Nat} {e : Extension} {s t : State} (hrt : rt ≠ zr)
    (h : (load rt rn off n e s).outcome = .next t) (hc : t.status = .continuing) :
    t.readReg rt = e.apply (s.loaded (s.effAddr rn off) n) := by
  have hd := Run.eq_done_of_continuing h hc
  rw [load_eq hrt] at hd
  obtain ⟨v, u, hu, ht⟩ := Run.andThen_eq_done hd
  obtain ⟨-, -, -, rfl, -⟩ := loadValue_done hu
  cases ht
  exact u.readReg_writeReg_same rt _ hrt

/-- An LDXR that did not fault has put the doubleword into its register. -/
theorem ldxr_readReg {rt rn : RegNum} {off : BitVec 9} {s t : State} (hrt : rt ≠ zr)
    (h : exec (.ldxr rt rn off) s = .next t) (hc : t.status = .continuing) :
    t.readReg rt = s.loaded (s.effAddr rn off) 8 := by
  rw [exec_ldxr hrt] at h
  obtain ⟨v, u, hu, ht⟩ := Run.andThen_eq_done (Run.eq_done_of_continuing h hc)
  obtain ⟨-, -, -, rfl, -⟩ := loadValue_done hu
  cases ht
  exact u.readReg_writeReg_same rt _ hrt

/-- What is read where a value was stored, in any state with the memory and the straps that the store left, is the
low bytes of the value. -/
theorem loaded_of_written {a : Word} {n : Nat} {v : Word} {s t u : State}
    (ht : t.mem = (s.written a n v).mem ∧ t.params = s.params) (hu : memSame t u)
    (hp : u.params = t.params) : u.loaded a n = lowBytes n v := by
  obtain ⟨hmem, hparams⟩ := ht
  have hbytes : Memory.readBytes u.mem a.toNat n = Memory.readBytes t.mem a.toNat n :=
    List.map_congr_left fun i _ => hu (a.toNat + i)
  have hback := Memory.readBytes_writeBytes s.mem a.toNat (bytesOfValue s.params.byteOrder n v)
  rw [bytesOfValue_length] at hback
  rw [State.loaded, hbytes, hp, hparams, hmem, ← valueOfBytes_bytesOfValue s.params.byteOrder n v]
  exact congrArg _ hback

/-- What a load that did not fault puts into its register where a value was stored before. -/
theorem load_readReg_of_written {rd rn : RegNum} {off : BitVec 9} {n : Nat} {e : Extension} {x : Word}
    {s t u v : State} (hrd : rd ≠ zr)
    (hw : t.mem = (s.written (u.effAddr rn off) n x).mem ∧ t.params = s.params) (hu : memSame t u)
    (hp : u.params = t.params) (h : (load rd rn off n e u).outcome = .next v) (hc : v.status = .continuing) :
    v.readReg rd = e.apply (lowBytes n x) := by
  rw [load_readReg hrd h hc, loaded_of_written hw hu hp]

/-- The low bits of the low bytes of a value are its low bits. -/
theorem lowBytes_setWidth {n w : Nat} (hn : w ≤ 8 * n) (hw : w ≤ 64) (v : Word) :
    (lowBytes n v).setWidth w = v.setWidth w := by
  apply BitVec.eq_of_getLsbD_eq
  intro j hj
  have h1 : j < 8 * n := by omega
  have h2 : j < 64 := by omega
  simp [lowBytes, h1, h2]

/-- Settles O42: the load reads the low bytes that the store wrote, and its extension depends on them alone. -/
theorem loadAfterStoreReturnsStored : Obligations.LoadAfterStoreReturnsStored := by
  intro s t u v a rt rs rn rd rn' off off' hrd hct hmem hparams ha hcv
  subst ha
  refine ⟨fun hstore hload => ?dword, fun hstore ha hload => ?word, fun hstore ha hload => ?half,
    fun hstore ha hload => ?byte⟩
  case dword =>
    have hw : t.mem = (s.written (u.effAddr rn' off') 8 (s.readReg rt)).mem ∧ t.params = s.params := by
      obtain ⟨hstore, ha⟩ | ⟨hstore, hok, ha⟩ := hstore
      · exact ha ▸ store_written hstore hct
      · exact ha ▸ stxr_written hstore hct hok
    have hv : v.readReg rd = u.loaded (u.effAddr rn' off') 8 := by
      obtain hload | hload := hload
      · exact load_readReg hrd hload hcv
      · exact ldxr_readReg hrd hload hcv
    have h8 := lowBytes_setWidth (n := 8) (w := 64) (by decide) (by decide) (s.readReg rt)
    rw [hv, loaded_of_written hw hmem hparams]
    simpa using h8
  case word =>
    have hv := load_readReg_of_written hrd (ha ▸ store_written hstore hct) hmem hparams hload hcv
    rw [hv, Extension.apply, lowBytes_setWidth (by decide) (by decide)]
  case half =>
    have hv := load_readReg_of_written hrd (ha ▸ store_written hstore hct) hmem hparams hload hcv
    rw [hv, Extension.apply, lowBytes_setWidth (by decide) (by decide)]
  case byte =>
    have hv := load_readReg_of_written hrd (ha ▸ store_written hstore hct) hmem hparams hload hcv
    rw [hv, Extension.apply, lowBytes_setWidth (by decide) (by decide)]

/-! ### The machine without its caches (R100) -/

/-- The state without what R100 says has no effect: no cache, and neither status nor port. -/
def State.bare (s : State) : State := { s with ic := none, dc := none, status := .continuing, port := [] }

@[simp] theorem State.bare_bare (s : State) : s.bare.bare = s.bare := rfl
@[simp] theorem State.bare_readReg (s : State) (r : RegNum) : s.bare.readReg r = s.readReg r := rfl
@[simp] theorem State.bare_params (s : State) : s.bare.params = s.params := rfl
@[simp] theorem State.bare_xtag (s : State) : s.bare.xtag = s.xtag := rfl
@[simp] theorem State.bare_effAddr (s : State) (rn : RegNum) (off : BitVec 9) :
    s.bare.effAddr rn off = s.effAddr rn off := rfl
@[simp] theorem State.setFlags_bare (s : State) (f : Flags) : (s.setFlags f).bare = s.bare.setFlags f := rfl

@[simp] theorem State.writeReg_bare (s : State) (rd : RegNum) (v : Word) :
    (s.writeReg rd v).bare = s.bare.writeReg rd v := by
  unfold State.writeReg; split <;> rfl

theorem State.clearTagOn_bare (s : State) (ea : Word) (n : Nat) :
    (s.clearTagOn ea n).bare = (s.bare.clearTagOn ea n).bare := by
  unfold State.clearTagOn
  cases hx : s.xtag with
  | none => simp [hx]
  | some tag => simp only [State.bare_xtag, hx]; split <;> rfl

theorem State.written_bare (s : State) (a : Word) (n : Nat) (v : Word) :
    (s.written a n v).bare = (s.bare.written a n v).bare := rfl

/-- Two states are equal without their caches exactly when they differ at most in the caches, the status and
the port. -/
theorem State.bare_eq_iff {s t : State} :
    t.bare = s.bare ↔ t = { s with ic := t.ic, dc := t.dc, status := t.status, port := t.port } := by
  constructor
  · intro h
    cases s; cases t
    simp only [State.bare, State.mk.injEq] at h ⊢
    simpa using h
  · intro h
    rw [h]; rfl

theorem portOnly.bare_eq {s t : State} (h : portOnly s t) : t.bare = s.bare := by
  unfold portOnly at h
  rw [h]; rfl

/-- Where no cache is configured a check goes through. -/
theorem probeOk_of_none {pos : CachePos} {s : State} (h : s.cacheAt pos = none) (a : Word) (n : Nat) :
    probeOk pos a n s := by
  simp [probeOk, h]

/-! ### What gets to its end does so without the caches too, and leaves the same -/

/-- The lines of an instruction that got to their end in one state get to it in the other, and leave states that
are equal without their caches. -/
def Run.simulatedBy {α : Type} (r r' : Run α) : Prop :=
  ∀ a t, r = .done a t → ∃ b, r' = .done a b ∧ b.bare = t.bare

theorem Run.simulatedBy.outcome {r r' : Run Unit} (hr : r.simulatedBy r') {t : State} (h : r.outcome = .next t)
    (hf : ∀ q, t.status ≠ .faulted q) : ∃ b, r'.outcome = .next b ∧ b.bare = t.bare := by
  obtain h | ⟨f, u, -, rfl⟩ := r.outcome_cases h
  · obtain ⟨b, hb, he⟩ := hr () t h
    exact ⟨b, by rw [hb]; rfl, he⟩
  · exact absurd rfl (hf _)

theorem loadValue_bare (rn : RegNum) (a : Word) (n : Nat) (s : State) :
    (loadValue rn a n s).simulatedBy (loadValue rn a n s.bare) := by
  intro v t h
  obtain ⟨hb, -, hv, rfl, ht, -, -⟩ := loadValue_done h
  obtain ⟨b, hl⟩ := loadValue_of_ok (s := s.bare) hb (probeOk_of_none rfl a n) hv
  obtain ⟨-, -, -, -, hbare, -, -⟩ := loadValue_done hl
  exact ⟨b, hl, hbare.bare_eq.trans ht.bare_eq.symm⟩

theorem load_bare (rt rn : RegNum) (off : BitVec 9) (n : Nat) (e : Extension) (s : State) :
    (load rt rn off n e s).simulatedBy (load rt rn off n e s.bare) := by
  intro x t h
  unfold load at h ⊢
  split at h
  · rename_i hz
    cases h
    exact ⟨s.bare, if_pos hz, rfl⟩
  · rename_i hz
    obtain ⟨v, u, hu, ht⟩ := Run.andThen_eq_done h
    cases ht
    obtain ⟨b, hb, he⟩ := loadValue_bare rn (s.effAddr rn off) n s v u hu
    exact ⟨b.writeReg rt (e.apply v), by simp [hz, hb], by simp [he]⟩

theorem loadExclusive_bare (rt rn : RegNum) (off : BitVec 9) (s : State) :
    (loadExclusive rt rn off s).simulatedBy (loadExclusive rt rn off s.bare) := by
  intro x t h
  obtain ⟨v, u, hu, ht⟩ := Run.andThen_eq_done h
  cases ht
  obtain ⟨b, hb, he⟩ := loadValue_bare rn (s.effAddr rn off) 8 s v u hu
  refine ⟨{ b.writeReg rt v with xtag := some (s.effAddr rn off) }, by simp [loadExclusive, hb], ?_⟩
  have hw : (b.writeReg rt v).bare = (u.writeReg rt v).bare := by simp [he]
  exact congrArg (fun w : State => { w with xtag := some (s.effAddr rn off) }) hw

theorem dProbeW_bare (a : Word) (n : Nat) (v : Word) {s t : State} {hit : Bool} (h : dProbeW a n v s = .done hit t) :
    ∃ b, dProbeW a n v s.bare = .done false b ∧ b.bare = t.bare := by
  obtain ⟨hv, hp⟩ := dProbeW_done h
  refine ⟨s.bare.written a n v, ?_, ?_⟩
  · unfold dProbeW cacheProbeW
    rw [memWrite_eq, State.bare_params, if_pos hv]
    exact cacheProbe_none (pos := .dc) (s := s.bare.written a n v) rfl a n
  · rw [← State.written_bare]
    exact (dProbe_done hp).1.bare_eq.symm

theorem store_bare (rt rn : RegNum) (off : BitVec 9) (n : Nat) (s : State) :
    (store rt rn off n s).simulatedBy (store rt rn off n s.bare) := by
  intro x t h
  obtain ⟨hb, -, -⟩ := store_done h
  rw [store_eq hb] at h
  obtain ⟨hit, u, hu, ht⟩ := Run.andThen_eq_done h
  cases ht
  obtain ⟨b, hd, he⟩ := dProbeW_bare _ _ _ hu
  refine ⟨b.clearTagOn (s.effAddr rn off) n, ?_, ?_⟩
  · rw [store_eq (s := s.bare) hb, State.bare_effAddr, State.bare_readReg, hd]; rfl
  · rw [State.clearTagOn_bare, he, ← State.clearTagOn_bare]

theorem storeExclusive_bare (rt rs rn : RegNum) (s : State) :
    (storeExclusive rt rs rn s).simulatedBy (storeExclusive rt rs rn s.bare) := by
  intro x t h
  obtain ⟨hb, -⟩ := storeExclusive_done h
  rw [storeExclusive_eq hb] at h
  rw [storeExclusive_eq (s := s.bare) hb, State.bare_xtag, State.bare_readReg]
  split at h
  · rename_i hx
    obtain ⟨hit, u, hu, ht⟩ := Run.andThen_eq_done h
    cases ht
    obtain ⟨b, hd, he⟩ := dProbeW_bare _ _ _ hu
    refine ⟨b.stxrDone rs, by rw [if_pos hx, State.bare_readReg, hd]; rfl, ?_⟩
    have hw : (b.writeReg rs 0).bare = (u.writeReg rs 0).bare := by simp [he]
    exact congrArg (fun w : State => { w with xtag := none, stxrOk := true }) hw
  · rename_i hx
    cases h
    refine ⟨s.bare.stxrFailed rs, if_neg hx, ?_⟩
    have hw : (s.bare.writeReg rs 1).bare = (s.writeReg rs 1).bare := by simp
    exact congrArg (fun w : State => { w with stxrOk := false }) hw

theorem branchRegister_bare (rn : RegNum) (s : State) :
    (branchRegister rn s).simulatedBy (branchRegister rn s.bare) := by
  intro x t h
  unfold branchRegister at h ⊢
  dsimp only at h ⊢
  split at h
  · cases h
  · rename_i hal
    split at h
    · rename_i hin
      cases h
      exact ⟨_, (if_neg hal).trans (if_pos hin), rfl⟩
    · cases h

theorem branchWhen_bare {cond : Bool} {target : Int} {s t : State} (h : branchWhen cond target s = .next t) :
    ∃ b, branchWhen cond target s.bare = .next b ∧ b.bare = t.bare := by
  obtain ⟨h0, h1, hc⟩ := branchWhen_cases h
  have hok : targetOk s.bare.plen target = true := by
    simp only [targetOk, inRange, Bool.and_eq_true, decide_eq_true_eq]
    exact ⟨h0, h1⟩
  unfold branchWhen
  rw [if_pos hok]
  obtain ⟨rfl, rfl⟩ | ⟨rfl, rfl⟩ := hc
  · exact ⟨_, rfl, rfl⟩
  · exact ⟨_, rfl, rfl⟩

/-- An instruction that does not fault does the same without the caches (R100). -/
theorem exec_bare {i : Instr} {s t : State} (h : exec i s = .next t) (hf : ∀ q, t.status ≠ .faulted q) :
    ∃ b, exec i s.bare = .next b ∧ b.bare = t.bare := by
  cases i with
  | ldur | ldursw | ldurh | ldurb => exact (load_bare _ _ _ _ _ s).outcome h hf
  | stur | sturw | sturh | sturb => exact (store_bare _ _ _ _ s).outcome h hf
  | ldxr rt rn off =>
    by_cases hz : rt = zr
    · cases (if_pos hz).symm.trans h
    · obtain ⟨b, hb, he⟩ := (loadExclusive_bare rt rn off s).outcome ((if_neg hz).symm.trans h) hf
      exact ⟨b, (if_neg hz).trans hb, he⟩
  | stxr => exact (storeExclusive_bare _ _ _ s).outcome h hf
  | br => exact (branchRegister_bare _ s).outcome h hf
  | bl target =>
    obtain ⟨b, hb, he⟩ := branchWhen_bare h
    rw [State.writeReg_bare] at hb
    exact ⟨b, hb, he⟩
  | cbz | cbnz | beq | bne | bhs | blo | bhi | bls | bge | blt | bgt | ble | bmi | bpl | bvs | bvc | b =>
    exact branchWhen_bare h
  | _ =>
    -- the instructions that compute a register, and maybe the flags
    cases h
    exact ⟨_, rfl, by simp [addSetting, subSetting, andSetting]⟩

/-- An instruction-cache probe that gets to its end changes nothing but the caches and the port. -/
theorem iProbe_bare {k : Nat} {s u : State} {hit : Bool} (h : iProbe k s = .done hit u) : u.bare = s.bare := by
  rw [(cacheProbe_done h).1]; rfl

/-- The step at a position that holds an instruction (R273). -/
theorem step_of_instr {s : State} {slot : Slot} {i : Instr} (hs : s.prog[s.idx]? = some slot)
    (hi : slot.form = .instr i) : step s = runInstr s.idx i s.beginStep := by
  have hlt : s.idx < s.plen := (List.getElem?_eq_some_iff.1 hs).1
  unfold step stepOnce runSlot
  rw [if_neg hlt.ne, hs]
  simp only [hi]

/-- A step that does not fault does the same without the caches (R100). -/
theorem step_bare {s t : State} (h : step s = .next t) (hf : ∀ q, t.status ≠ .faulted q) :
    ∃ b, step s.bare = .next b ∧ b.bare = t.bare := by
  obtain ⟨hend, rfl⟩ | ⟨slot, i, -, hs, hi, ⟨f, u, -, rfl⟩ | ⟨hit, u, hu, hx⟩⟩ := step_cases h
  · exact ⟨s.bare.complete, if_pos hend, rfl⟩
  · exact absurd rfl (hf _)
  · obtain ⟨b, hb, he⟩ := exec_bare hx hf
    rw [iProbe_bare hu] at hb
    have hprobe : iProbe s.idx s.bare.beginStep = .done false s.bare.beginStep :=
      cacheProbe_none (pos := .ic) rfl _ _
    refine ⟨b, ?_, he⟩
    rw [step_of_instr (s := s.bare) hs hi]
    unfold runInstr
    rw [show s.bare.idx = s.idx from rfl, hprobe]
    exact hb

/-- Settles O58: each of the two steps does what the step without caches does from the state that they share. -/
theorem cachesNeverAffectResults : Obligations.CachesNeverAffectResults := by
  intro s t s' t' heq hs ht hfs hft
  obtain ⟨b, hb, hbs⟩ := step_bare hs hfs
  obtain ⟨b', hb', hbt⟩ := step_bare ht hft
  rw [State.bare_eq_iff.2 heq, hb] at hb'
  cases hb'
  exact State.bare_eq_iff.1 (hbt.symm.trans hbs)

/-! ### The program and the straps (R11, R73) -/

/-- No instruction changes the straps. -/
theorem Effect.params {i : Instr} {s t : State} (h : Effect i s t) : t.params = s.params := by
  cases h with
  | computes | nothing | branches | links | stxrFails => simp
  | loads _ _ _ _ _ hp | stores _ _ _ _ _ _ _ _ hp | stxrStores _ _ _ _ _ _ _ hp
  | faults _ _ hp | faultsAfterStore _ _ _ _ _ _ hp => simp [hp.only.fields]
  | loadsExclusive rt _ _ v u _ hp => simp [State.ldxrDone, hp.only.fields]

/-- Settles O17: neither completing, nor the probe, nor the instruction writes the program or the straps. -/
theorem stepKeepsProgramAndStraps : Obligations.StepKeepsProgramAndStraps := by
  intro s t h
  obtain ⟨-, rfl⟩ | ⟨-, i, -, -, -, hrun⟩ := step_cases h
  · exact ⟨rfl, rfl⟩
  · have hframe := (cacheProbe_frame .ic (s.beginStep.instrAddr s.idx) isize s.beginStep).1
    have hprobe : (iProbe s.idx s.beginStep).final.prog = s.prog ∧
        (iProbe s.idx s.beginStep).final.params = s.params := by
      unfold iProbe; rw [hframe]; exact ⟨rfl, rfl⟩
    obtain ⟨f, u, hu, rfl⟩ | ⟨hit, u, hu, hx⟩ := hrun
    · rw [hu] at hprobe
      exact hprobe
    · rw [hu] at hprobe
      have he := exec_effect hx
      exact ⟨he.ic_prog.2.trans hprobe.1, he.params.trans hprobe.2⟩

/-! ### A fault of the instruction-cache probe (R245) -/

/-- Settles O8: the probe of the begun step raises, and the fault is taken with nothing but the instruction cache
and the port changed. -/
theorem instructionProbeFaultSkipsInstruction : Obligations.InstructionProbeFaultSkipsInstruction := by
  intro s i line base hs hp
  have hraise : iProbe s.idx s.beginStep =
      .raised { kind := .segment, addr := base } (iProbe s.idx s.beginStep).final :=
    (cacheProbe_raised_iff .ic (s.instrAddr s.idx) isize s.beginStep { kind := .segment, addr := base }).2 ⟨rfl, hp⟩
  obtain ⟨hframe, hdc, -, -, hstop⟩ := cacheProbe_raised hraise
  generalize (iProbe s.idx s.beginStep).final = u at *
  have hstep : step s = .next (u.takeFault { kind := .segment, addr := base }) := by
    rw [step_of_instr hs rfl, runInstr, hraise]
  have hline : u.fetchedLine = line := by
    rw [hframe]
    simp [State.fetchedLine, hs]
  have hstatus : (u.takeFault { kind := .segment, addr := base }).status =
      .faulted { kind := .segment, addr := base, line := line } := by
    rw [State.takeFault_status, State.record, hline]
  obtain ⟨hidx, htaken, hregs, hflags, hxtag, hstxr, hmem, hfixed⟩ :
      u.idx = s.idx + 1 ∧ u.taken = false ∧ u.regs = s.regs ∧ u.flags = s.flags ∧ u.xtag = s.xtag ∧
        u.stxrOk = s.stxrOk ∧ u.mem = s.mem ∧ fixedSame s u := by
    rw [hframe]
    exact ⟨rfl, rfl, rfl, rfl, rfl, rfl, rfl, rfl, rfl⟩
  exact ⟨_, hstep, hstatus, hidx, htaken, hregs, hflags, hxtag, hstxr, hdc .dc (by decide), hmem, hfixed,
    hstop.of_eq rfl rfl rfl rfl⟩

end Sys2Proof.Machine
end

section
/-! PROOFS. The statements about the word form and the records (30_encoding.md). The opcode strings and the mask
table are tied together row by row, so decoding an encoded word comes down to the fields it holds, and encoding
a decoded word to putting its fields back into its fixed bits. -/

namespace Sys2Proof

/-! ### No opcode string leads another, so at most one row fits a word (R123) -/

/-- The instruction that an opcode with condition number `n` stands for. -/
def Opcode.mnemonic (op : Opcode) (n : BitVec 5) : Option Mnemonic :=
  match op with
  | .one m => some m
  | .condBranch => condMnemonic n

theorem wordMnemonic_eq (w : InstrWord) :
    wordMnemonic w = (findOpcode (fieldTop w)).bind fun op => op.mnemonic (fieldRd w) := by
  unfold wordMnemonic
  cases findOpcode (fieldTop w) with
  | none => rfl
  | some op => cases op <;> rfl

/-- An opcode string is at most eleven bits long, and its value has no bit beyond them. -/
theorem opcodeRows_bounds : ∀ r ∈ opcodeRows, r.len ≤ 11 ∧ r.bits < 2 ^ r.len := by decide

theorem OpcodeRow.fits_iff {r : OpcodeRow} {top : BitVec 11} :
    r.fits top = true ↔ top.toNat >>> (11 - r.len) = r.bits := by
  simp [OpcodeRow.fits]

/-- A string that leads another is that string. -/
theorem opcodeRows_eq_of_leads : ∀ r ∈ opcodeRows, ∀ q ∈ opcodeRows, r.len ≤ q.len →
    q.bits >>> (q.len - r.len) = r.bits → r = q := by decide

/-- Of two rows that fit the same bits, the shorter string leads the longer. -/
theorem OpcodeRow.leads_of_fits {r q : OpcodeRow} {top : BitVec 11} (hle : r.len ≤ q.len) (hq : q.len ≤ 11)
    (hr : r.fits top = true) (hqf : q.fits top = true) : q.bits >>> (q.len - r.len) = r.bits := by
  rw [← OpcodeRow.fits_iff.1 hr, ← OpcodeRow.fits_iff.1 hqf, ← Nat.shiftRight_add]
  congr 1; omega

theorem opcodeRow_unique {r q : OpcodeRow} (hr : r ∈ opcodeRows) (hq : q ∈ opcodeRows) {top : BitVec 11}
    (hrf : r.fits top = true) (hqf : q.fits top = true) : r = q := by
  obtain h | h := Nat.le_total r.len q.len
  · exact opcodeRows_eq_of_leads r hr q hq h (OpcodeRow.leads_of_fits h (opcodeRows_bounds q hq).1 hrf hqf)
  · exact (opcodeRows_eq_of_leads q hq r hr h (OpcodeRow.leads_of_fits h (opcodeRows_bounds r hr).1 hqf hrf)).symm

/-- The opcode found is that of the one row that fits. -/
theorem findOpcode_eq_some {top : BitVec 11} {op : Opcode} :
    findOpcode top = some op ↔ ∃ r ∈ opcodeRows, r.fits top = true ∧ r.op = op := by
  unfold findOpcode
  rw [Option.map_eq_some_iff]
  constructor
  · rintro ⟨r, hr, hop⟩
    exact ⟨r, List.mem_of_find?_eq_some hr, List.find?_some (p := fun r : OpcodeRow => r.fits top) hr, hop⟩
  · rintro ⟨r, hr, hf, hop⟩
    obtain ⟨q, hq⟩ := Option.isSome_iff_exists.1
      (List.find?_isSome (p := fun r : OpcodeRow => r.fits top) |>.2 ⟨r, hr, hf⟩)
    have hqf := List.find?_some (p := fun r : OpcodeRow => r.fits top) hq
    exact ⟨q, hq, opcodeRow_unique hr (List.mem_of_find?_eq_some hq) hf hqf ▸ hop⟩

/-! ### A field under its mask (R116 to R121) -/

/-- The bits of a word under the mask of a field are the field at its place. -/
theorem and_field (n lo : Nat) (w : InstrWord) :
    w &&& place (BitVec.allOnes n) lo = place (w.extractLsb' lo n) lo := by
  apply BitVec.eq_of_getLsbD_eq
  intro i hi
  rw [BitVec.getLsbD_and, place_getLsbD _ _ _ hi, place_getLsbD _ _ _ hi, BitVec.getLsbD_allOnes,
    BitVec.getLsbD_extractLsb']
  by_cases hlo : lo ≤ i
  · simp [hlo, Nat.add_sub_cancel' hlo, Bool.and_comm]
  · simp [hlo]

theorem extractLsb'_place_same {n lo : Nat} (x : BitVec n) (h : lo + n ≤ 32) : (place x lo).extractLsb' lo n = x := by
  apply BitVec.eq_of_getLsbD_eq
  intro i hi
  simp [hi, place_getLsbD x lo (lo + i) (by omega)]

theorem extractLsb'_place_of_disjoint {n n' lo lo' : Nat} (x : BitVec n') (h : lo + n ≤ 32)
    (hd : lo' + n' ≤ lo ∨ lo + n ≤ lo') : (place x lo').extractLsb' lo n = 0 := by
  apply BitVec.eq_of_getLsbD_eq
  intro i hi
  have hx : lo' ≤ lo + i → x.getLsbD (lo + i - lo') = false := fun _ => BitVec.getLsbD_of_ge _ _ (by omega)
  simpa [BitVec.getLsbD_extractLsb', hi, place_getLsbD x lo' (lo + i) (by omega)] using hx

/-- A word shows a value under the mask of a field exactly when the field holds it. -/
theorem and_place_eq_iff {n lo : Nat} (h : lo + n ≤ 32) {w : InstrWord} {x : BitVec n} :
    w &&& place (BitVec.allOnes n) lo = place x lo ↔ w.extractLsb' lo n = x := by
  rw [and_field]
  constructor
  · intro he
    rw [← extractLsb'_place_same (w.extractLsb' lo n) h, he, extractLsb'_place_same x h]
  · rintro rfl; rfl

/-- Two disjoint fields show their values under the joint mask exactly when each does. -/
theorem and_or_places_eq_iff {n lo n' lo' : Nat} (h : lo + n ≤ lo') (h' : lo' + n' ≤ 32) {w : InstrWord}
    {x : BitVec n} {x' : BitVec n'} :
    w &&& (place (BitVec.allOnes n') lo' ||| place (BitVec.allOnes n) lo) = place x' lo' ||| place x lo ↔
      w.extractLsb' lo' n' = x' ∧ w.extractLsb' lo n = x := by
  rw [BitVec.and_or_distrib_left, and_field, and_field]
  constructor
  · intro he
    have hfield : ∀ (y : BitVec n) (y' : BitVec n'), (place y' lo' ||| place y lo).extractLsb' lo n = y ∧
        (place y' lo' ||| place y lo).extractLsb' lo' n' = y' := fun y y' => by
      simp only [BitVec.extractLsb'_or, extractLsb'_place_same _ h', extractLsb'_place_same y (by omega : lo + n ≤ 32),
        extractLsb'_place_of_disjoint y' (by omega : lo + n ≤ 32) (.inr h),
        extractLsb'_place_of_disjoint y h' (.inl h)]
      simp
    obtain ⟨hlow, hhigh⟩ := hfield x x'
    rw [← he] at hlow hhigh
    exact ⟨(hfield _ _).2.symm.trans hhigh, (hfield _ _).1.symm.trans hlow⟩
  · rintro ⟨rfl, rfl⟩; rfl

/-! ### The mask table is the opcode table (R123, R124) -/

/-- The mask of a row of R123: its leading `len` bits. -/
def OpcodeRow.mask (r : OpcodeRow) : InstrWord := place (BitVec.allOnes r.len) (32 - r.len)

/-- The `match` of a row of R123: its bits at the top of the word. -/
def OpcodeRow.matchBits (r : OpcodeRow) : InstrWord := place (BitVec.ofNat r.len r.bits) (32 - r.len)

/-- The rows of the mask table that an opcode string stands for: one, or one for each condition number that names
a branch, with the low five bits in the mask. -/
def OpcodeRow.maskRows (r : OpcodeRow) : List MaskRow :=
  match r.op with
  | .one m => [⟨m, r.mask, r.matchBits⟩]
  | .condBranch => (List.range 32).filterMap fun n =>
      (condMnemonic (BitVec.ofNat 5 n)).map fun m =>
        ⟨m, r.mask ||| place (BitVec.allOnes 5) 0, r.matchBits ||| place (BitVec.ofNat 5 n) 0⟩

/-- The mask table is the opcode table. -/
theorem mem_maskRows_iff {x : MaskRow} : x ∈ maskRows ↔ ∃ r ∈ opcodeRows, x ∈ r.maskRows := by
  have hsub : ∀ x ∈ maskRows, ∃ r ∈ opcodeRows, x ∈ r.maskRows := by decide
  have hsup : ∀ r ∈ opcodeRows, ∀ x ∈ r.maskRows, x ∈ maskRows := by decide
  exact ⟨hsub x, fun ⟨r, hr, hx⟩ => hsup r hr x hx⟩

theorem OpcodeRow.fits_fieldTop_iff {r : OpcodeRow} (hr : r ∈ opcodeRows) {w : InstrWord} :
    r.fits (fieldTop w) = true ↔ w &&& r.mask = r.matchBits := by
  obtain ⟨hlen, hbits⟩ := opcodeRows_bounds r hr
  have htop : (fieldTop w).toNat >>> (11 - r.len) = w.toNat >>> (32 - r.len) := by
    rw [fieldTop, BitVec.extractLsb'_toNat, Nat.mod_eq_of_lt (by rw [Nat.shiftRight_eq_div_pow]; omega),
      ← Nat.shiftRight_add]
    congr 1; omega
  have hlt : w.toNat >>> (32 - r.len) < 2 ^ r.len := by
    rw [Nat.shiftRight_eq_div_pow, Nat.div_lt_iff_lt_mul (Nat.two_pow_pos _), ← Nat.pow_add]
    exact lt_of_lt_of_eq w.isLt (by congr 1; omega)
  rw [OpcodeRow.fits_iff, htop, OpcodeRow.mask, OpcodeRow.matchBits, and_place_eq_iff (by omega), ← BitVec.toNat_inj,
    BitVec.extractLsb'_toNat, Nat.mod_eq_of_lt hlt, BitVec.toNat_ofNat, Nat.mod_eq_of_lt hbits]

/-- A word fits a mask row of an opcode string exactly when the string leads it and, for the condition-code
branches, its low five bits are the condition number. -/
theorem OpcodeRow.exists_maskRow_fits_iff {r : OpcodeRow} (hr : r ∈ opcodeRows) {w : InstrWord} {m : Mnemonic} :
    (∃ x ∈ r.maskRows, x.mn = m ∧ x.fits w = true) ↔
      r.fits (fieldTop w) = true ∧ r.op.mnemonic (fieldRd w) = some m := by
  rw [OpcodeRow.fits_fieldTop_iff hr]
  have hlen := (opcodeRows_bounds r hr).1
  cases hop : r.op with
  | one m' => simp [OpcodeRow.maskRows, hop, Opcode.mnemonic, MaskRow.fits, and_comm]
  | condBranch =>
    have hfits (n : Nat) :
        w &&& (r.mask ||| place (BitVec.allOnes 5) 0) = r.matchBits ||| place (BitVec.ofNat 5 n) 0 ↔
          w &&& r.mask = r.matchBits ∧ fieldRd w = BitVec.ofNat 5 n := by
      unfold OpcodeRow.mask OpcodeRow.matchBits
      rw [and_or_places_eq_iff (by omega) (by omega), and_place_eq_iff (by omega)]
      rfl
    constructor
    · intro ⟨x, hx, hm, hf⟩
      simp only [OpcodeRow.maskRows, hop, List.mem_filterMap, Option.map_eq_some_iff] at hx
      obtain ⟨n, -, m', hn, rfl⟩ := hx
      obtain ⟨htop, hrd⟩ := (hfits n).1 (by simpa [MaskRow.fits] using hf)
      exact ⟨htop, by rw [Opcode.mnemonic, hrd, hn, ← hm]⟩
    · rintro ⟨htop, hcond⟩
      refine ⟨⟨m, _, _⟩, ?_, rfl, beq_iff_eq.2 ((hfits (fieldRd w).toNat).2 ⟨htop, by simp⟩)⟩
      simp only [OpcodeRow.maskRows, hop, List.mem_filterMap, Option.map_eq_some_iff]
      exact ⟨(fieldRd w).toNat, List.mem_range.2 (fieldRd w).isLt, m, by simpa [Opcode.mnemonic] using hcond, rfl⟩

/-- The decoder agrees with the mask table (R123). -/
theorem wordMnemonic_eq_some {w : InstrWord} {m : Mnemonic} :
    wordMnemonic w = some m ↔ ∃ x ∈ maskRows, x.mn = m ∧ x.fits w = true := by
  calc wordMnemonic w = some m
    _ ↔ ∃ r ∈ opcodeRows, r.fits (fieldTop w) = true ∧ r.op.mnemonic (fieldRd w) = some m := by
        simp only [wordMnemonic_eq, Option.bind_eq_some_iff, findOpcode_eq_some]
        exact ⟨fun ⟨_, ⟨r, hr, hf, hop⟩, hm⟩ => ⟨r, hr, hf, hop ▸ hm⟩,
          fun ⟨r, hr, hf, hm⟩ => ⟨_, ⟨r, hr, hf, rfl⟩, hm⟩⟩
    _ ↔ ∃ r ∈ opcodeRows, ∃ x ∈ r.maskRows, x.mn = m ∧ x.fits w = true :=
        exists_congr fun r => and_congr_right fun hr => (OpcodeRow.exists_maskRow_fits_iff hr).symm
    _ ↔ ∃ x ∈ maskRows, x.mn = m ∧ x.fits w = true := by
        simp only [mem_maskRows_iff]
        exact ⟨fun ⟨r, hr, x, hx, hf⟩ => ⟨x, ⟨r, hr, hx⟩, hf⟩,
          fun ⟨x, ⟨r, hr, hx⟩, hf⟩ => ⟨r, hr, x, hx, hf⟩⟩

/-- Settles O3: row by row of the opcode table; of two strings that fit the same bits one leads the other, so they
are the same. -/
theorem decoderAgreesWithMaskTable : Obligations.DecoderAgreesWithMaskTable :=
  ⟨fun _ _ => wordMnemonic_eq_some, by decide, fun _ hr _ hq _ => opcodeRow_unique hr hq⟩

/-! ### Decoding by a mnemonic's own row (R123, R125) -/

/-- The row of a mnemonic in the mask table. -/
def maskRow (m : Mnemonic) : MaskRow := (maskRows.find? fun x => x.mn == m).getD ⟨m, 0, 0⟩

theorem maskRow_mn : ∀ x ∈ maskRows, maskRow x.mn = x := by decide

theorem maskRow_mem (m : Mnemonic) : maskRow m ∈ maskRows ∧ (maskRow m).mn = m := by
  cases m <;> decide

/-- A word spells a mnemonic exactly when it fits that mnemonic's own row (R123). -/
theorem wordMnemonic_eq_some_iff_fits {w : InstrWord} {m : Mnemonic} :
    wordMnemonic w = some m ↔ (maskRow m).fits w = true := by
  rw [wordMnemonic_eq_some]
  constructor
  · rintro ⟨x, hx, rfl, hf⟩; rwa [maskRow_mn x hx]
  · exact fun hf => ⟨_, (maskRow_mem m).1, (maskRow_mem m).2, hf⟩

theorem decode_eq_ok {k : Nat} {w : InstrWord} {i : Instr} :
    decode k w = .ok i ↔ ∃ m, wordMnemonic w = some m ∧ withFields m k w = i := by
  unfold decode
  cases wordMnemonic w <;> simp

/-! ### The fields of an encoded word (R116 to R122, R125) -/

/-- A field inside a run of zero bits is zero. -/
theorem extractLsb'_eq_zero_of_low {m : InstrWord} {b : Nat} (h : m.extractLsb' 0 b = 0) {lo n : Nat}
    (hb : lo + n ≤ b) : m.extractLsb' lo n = 0 := by
  apply BitVec.eq_of_getLsbD_eq
  intro i hi
  have hbit := congrArg (fun x => x.getLsbD (lo + i)) h
  simpa [BitVec.getLsbD_extractLsb', hi, (by omega : lo + i < b)] using hbit

theorem encodeR_fields {m : InstrWord} (h : m.extractLsb' 0 21 = 0) (rm : RegNum) (sh : BitVec 6) (rn rd : RegNum) :
    fieldRm (encodeR m rm sh rn rd) = rm ∧ fieldShamt (encodeR m rm sh rn rd) = sh ∧
      fieldRn (encodeR m rm sh rn rd) = rn ∧ fieldRd (encodeR m rm sh rn rd) = rd := by
  simp (disch := omega) [fieldRm, fieldShamt, fieldRn, fieldRd, encodeR, BitVec.extractLsb'_or, extractLsb'_place_same,
    extractLsb'_place_of_disjoint, extractLsb'_eq_zero_of_low h]

theorem encodeI_fields {m : InstrWord} (h : m.extractLsb' 0 22 = 0) (imm : BitVec 12) (rn rd : RegNum) :
    fieldImm12 (encodeI m imm rn rd) = imm ∧ fieldRn (encodeI m imm rn rd) = rn ∧
      fieldRd (encodeI m imm rn rd) = rd := by
  simp (disch := omega) [fieldImm12, fieldRn, fieldRd, encodeI, BitVec.extractLsb'_or, extractLsb'_place_same,
    extractLsb'_place_of_disjoint, extractLsb'_eq_zero_of_low h]

theorem encodeD_fields {m : InstrWord} (h : m.extractLsb' 0 21 = 0) (off : BitVec 9) (rn rt : RegNum) :
    fieldAddr9 (encodeD m off rn rt) = off ∧ fieldRn (encodeD m off rn rt) = rn ∧
      fieldRd (encodeD m off rn rt) = rt := by
  simp (disch := omega) [fieldAddr9, fieldRn, fieldRd, encodeD, BitVec.extractLsb'_or, extractLsb'_place_same,
    extractLsb'_place_of_disjoint, extractLsb'_eq_zero_of_low h]

theorem encodeX_fields {m : InstrWord} (h : m.extractLsb' 0 21 = 0) (rs rn rt : RegNum) :
    fieldRm (encodeX m rs rn rt) = rs ∧ fieldRn (encodeX m rs rn rt) = rn ∧ fieldRd (encodeX m rs rn rt) = rt := by
  simp (disch := omega) [fieldRm, fieldRn, fieldRd, encodeX, BitVec.extractLsb'_or, extractLsb'_place_same,
    extractLsb'_place_of_disjoint, extractLsb'_eq_zero_of_low h]

theorem encodeIM_fields {m : InstrWord} (h : m.extractLsb' 0 23 = 0) (hw : BitVec 2) (imm16 : BitVec 16) (rd : RegNum) :
    fieldHw (encodeIM m hw imm16 rd) = hw ∧ fieldImm16 (encodeIM m hw imm16 rd) = imm16 ∧
      fieldRd (encodeIM m hw imm16 rd) = rd := by
  simp (disch := omega) [fieldHw, fieldImm16, fieldRd, encodeIM, BitVec.extractLsb'_or, extractLsb'_place_same,
    extractLsb'_place_of_disjoint, extractLsb'_eq_zero_of_low h]

theorem encodeCB_fields {m : InstrWord} (h : m.extractLsb' 0 24 = 0) {k : Nat} {target : Int}
    (ht : fitsSigned 18 (target - k) = true) (rt : RegNum) :
    target19 k (encodeCB m k target rt) = target ∧ fieldRd (encodeCB m k target rt) = rt := by
  simp (disch := omega) [target19, fieldAddr19, fieldRd, encodeCB, BitVec.extractLsb'_or, extractLsb'_place_same,
    extractLsb'_place_of_disjoint, extractLsb'_eq_zero_of_low h, toInt_ofInt_of_fits 18 _ ht]

theorem encodeCond_target {m : InstrWord} (h : m.extractLsb' 5 19 = 0) {k : Nat} {target : Int}
    (ht : fitsSigned 18 (target - k) = true) : target19 k (encodeCond m k target) = target := by
  simp (disch := omega) [target19, fieldAddr19, encodeCond, BitVec.extractLsb'_or, extractLsb'_place_same, h,
    toInt_ofInt_of_fits 18 _ ht]

theorem encodeB_target {m : InstrWord} (h : m.extractLsb' 0 26 = 0) {k : Nat} {target : Int}
    (ht : fitsSigned 25 (target - k) = true) : target26 k (encodeB m k target) = target := by
  simp (disch := omega) [target26, fieldAddr26, encodeB, BitVec.extractLsb'_or, extractLsb'_place_same, h,
    toInt_ofInt_of_fits 25 _ ht]

/-- The word of an instruction fits the instruction's row. -/
theorem maskRow_fits_encode (k : Nat) (i : Instr) : (maskRow i.mnemonic).fits (encode k i) = true := by
  cases i with
  | add | adds | sub | subs | and | ands | orr | eor | lsl | lsr | br => exact encodeR_fits (by decide)
  | addi | addis | subi | subis | andi | andis | orri | eori => exact encodeI_fits (by decide)
  | ldur | ldursw | ldurh | ldurb | stur | sturw | sturh | sturb | ldxr => exact encodeD_fits (by decide)
  | stxr => exact encodeX_fits (by decide)
  | movz | movk => exact encodeIM_fits (by decide)
  | cbz | cbnz => exact encodeCB_fits (by decide)
  | b | bl => exact encodeB_fits (by decide)
  | _ => exact encodeCond_fits (by decide)

/-- The fields of the word of an instruction are its operands. -/
theorem withFields_encode {k : Nat} {i : Instr} (h : i.encodable k = true) :
    withFields i.mnemonic k (encode k i) = i := by
  cases i with
  | add | adds | sub | subs | and | ands | orr | eor | lsl | lsr | br =>
    simp [withFields, encode, Instr.mnemonic, encodeR_fields]
  | addi | addis | subi | subis | andi | andis | orri | eori => simp [withFields, encode, Instr.mnemonic, encodeI_fields]
  | ldur | ldursw | ldurh | ldurb | stur | sturw | sturh | sturb | ldxr =>
    simp [withFields, encode, Instr.mnemonic, encodeD_fields]
  | stxr => simp [withFields, encode, Instr.mnemonic, encodeX_fields]
  | movz | movk => simp [withFields, encode, Instr.mnemonic, encodeIM_fields]
  | cbz _ t | cbnz _ t =>
    have ht : fitsSigned 18 (t - k) = true := h
    simp [withFields, encode, Instr.mnemonic, encodeCB_fields, ht]
  | b t | bl t =>
    have ht : fitsSigned 25 (t - k) = true := h
    simp [withFields, encode, Instr.mnemonic, encodeB_target, ht]
  | beq t | bne t | bhs t | blo t | bhi t | bls t | bge t | blt t | bgt t | ble t | bmi t | bpl t | bvs t | bvc t =>
    have ht : fitsSigned 18 (t - k) = true := h
    simp [withFields, encode, Instr.mnemonic, encodeCond_target, ht]

/-- Settles O1: the word shows the instruction's row, so it spells its mnemonic; and its fields hold the operands. -/
theorem decodeEncodeRoundTrip : Obligations.DecodeEncodeRoundTrip := fun k i h =>
  decode_eq_ok.2 ⟨i.mnemonic, wordMnemonic_eq_some_iff_fits.2 (maskRow_fits_encode k i), withFields_encode h⟩

/-! ### A canonical word is its fixed bits and its fields (R125) -/

/-- What a word shows under two masks it shows under both together. -/
theorem and_or_eq_or {w p q a b : InstrWord} (ha : w &&& p = a) (hb : w &&& q = b) : w &&& (p ||| q) = a ||| b := by
  rw [BitVec.and_or_distrib_left, ha, hb]

/-- What a word shows under the mask of all bits is the word. -/
theorem eq_of_and_full {w p a : InstrWord} (hp : p = BitVec.allOnes 32) (h : w &&& p = a) : a = w := by
  rw [← h, hp, BitVec.and_allOnes]

theorem and_zero_place (n lo : Nat) (w : InstrWord) : w &&& 0 = place (0 : BitVec n) lo := by simp [place]

theorem ofInt_target19 (k : Nat) (w : InstrWord) : BitVec.ofInt 19 (target19 k w - k) = fieldAddr19 w := by
  simp [target19]

theorem ofInt_target26 (k : Nat) (w : InstrWord) : BitVec.ofInt 26 (target26 k w - k) = fieldAddr26 w := by
  simp [target26]

theorem encodeR_of_fields {w m : InstrWord} (h : w &&& 0xFFE0FC00 = m) :
    encodeR m (fieldRm w) 0 (fieldRn w) (fieldRd w) = w :=
  eq_of_and_full (by decide) (and_or_eq_or (and_or_eq_or (and_or_eq_or (and_or_eq_or h (and_field 5 16 w))
    (and_zero_place 6 10 w)) (and_field 5 5 w)) (and_field 5 0 w))

theorem encodeR_of_shiftFields {w m : InstrWord} (h : w &&& 0xFFFF0000 = m) :
    encodeR m 0 (fieldShamt w) (fieldRn w) (fieldRd w) = w :=
  eq_of_and_full (by decide) (and_or_eq_or (and_or_eq_or (and_or_eq_or (and_or_eq_or h (and_zero_place 5 16 w))
    (and_field 6 10 w)) (and_field 5 5 w)) (and_field 5 0 w))

theorem encodeR_of_branchField {w m : InstrWord} (h : w &&& 0xFFFFFC1F = m ||| place (31 : RegNum) 16) :
    encodeR m 31 0 (fieldRn w) 0 = w :=
  eq_of_and_full (by decide) (and_or_eq_or (and_or_eq_or (and_or_eq_or h (and_zero_place 6 10 w)) (and_field 5 5 w))
    (and_zero_place 5 0 w))

theorem encodeI_of_fields {w m : InstrWord} (h : w &&& 0xFFC00000 = m) :
    encodeI m (fieldImm12 w) (fieldRn w) (fieldRd w) = w :=
  eq_of_and_full (by decide) (and_or_eq_or (and_or_eq_or (and_or_eq_or h (and_field 12 10 w)) (and_field 5 5 w))
    (and_field 5 0 w))

theorem encodeD_of_fields {w m : InstrWord} (h : w &&& 0xFFE00C00 = m) :
    encodeD m (fieldAddr9 w) (fieldRn w) (fieldRd w) = w :=
  eq_of_and_full (by decide) (and_or_eq_or (and_or_eq_or (and_or_eq_or h (and_field 9 12 w)) (and_field 5 5 w))
    (and_field 5 0 w))

theorem encodeX_of_fields {w m : InstrWord} (h : w &&& 0xFFE0FC00 = m) :
    encodeX m (fieldRm w) (fieldRn w) (fieldRd w) = w :=
  eq_of_and_full (by decide) (and_or_eq_or (and_or_eq_or (and_or_eq_or h (and_field 5 16 w)) (and_field 5 5 w))
    (and_field 5 0 w))

theorem encodeIM_of_fields {w m : InstrWord} (h : w &&& 0xFF800000 = m) :
    encodeIM m (fieldHw w) (fieldImm16 w) (fieldRd w) = w :=
  eq_of_and_full (by decide) (and_or_eq_or (and_or_eq_or (and_or_eq_or h (and_field 2 21 w)) (and_field 16 5 w))
    (and_field 5 0 w))

theorem encodeCB_of_fields {w m : InstrWord} (h : w &&& 0xFF000000 = m) (k : Nat) :
    encodeCB m k (target19 k w) (fieldRd w) = w := by
  rw [encodeCB, ofInt_target19]
  exact eq_of_and_full (by decide) (and_or_eq_or (and_or_eq_or h (and_field 19 5 w)) (and_field 5 0 w))

theorem encodeCond_of_target {w m : InstrWord} (h : w &&& 0xFF00001F = m) (k : Nat) :
    encodeCond m k (target19 k w) = w := by
  rw [encodeCond, ofInt_target19]
  exact eq_of_and_full (by decide) (and_or_eq_or h (and_field 19 5 w))

theorem encodeB_of_target {w m : InstrWord} (h : w &&& 0xFC000000 = m) (k : Nat) :
    encodeB m k (target26 k w) = w := by
  rw [encodeB, ofInt_target26]
  exact eq_of_and_full (by decide) (and_or_eq_or h (and_field 26 0 w))

/-- A word that shows a row and the canonical values of the ignored bits is the encoding of its fields. -/
theorem encode_withFields (k : Nat) {w : InstrWord} {m : Mnemonic}
    (h : w &&& ((maskRow m).mask ||| (ignoredBits m).1) = (maskRow m).bits ||| (ignoredBits m).2) :
    encode k (withFields m k w) = w := by
  cases m with
  | add | adds | sub | subs | and | ands | orr | eor => exact encodeR_of_fields h
  | lsl | lsr => exact encodeR_of_shiftFields h
  | br => exact encodeR_of_branchField h
  | addi | addis | subi | subis | andi | andis | orri | eori => exact encodeI_of_fields h
  | ldur | ldursw | ldurh | ldurb | stur | sturw | sturh | sturb | ldxr => exact encodeD_of_fields h
  | stxr => exact encodeX_of_fields h
  | movz | movk => exact encodeIM_of_fields h
  | cbz | cbnz => exact encodeCB_of_fields h k
  | b | bl => exact encodeB_of_target h k
  | _ => exact encodeCond_of_target h k

/-- What a word decodes to can be spelled at its index: a displacement read from a field fits it (R122). -/
theorem withFields_encodable (m : Mnemonic) (k : Nat) (w : InstrWord) : (withFields m k w).encodable k = true := by
  have h19 : fitsSigned 18 (target19 k w - k) = true := by simpa [target19] using fits_toInt 18 (fieldAddr19 w)
  have h26 : fitsSigned 25 (target26 k w - k) = true := by simpa [target26] using fits_toInt 25 (fieldAddr26 w)
  cases m with
  | b | bl => exact h26
  | cbz | cbnz | beq | bne | bhs | blo | bhi | bls | bge | blt | bgt | ble | bmi | bpl | bvs | bvc => exact h19
  | _ => rfl

/-- Settles O2: the row and the canonical ignored bits fix every bit that is in no field. -/
theorem encodeDecodeCanonicalWord : Obligations.EncodeDecodeCanonicalWord := by
  intro k w i hdec hcan
  obtain ⟨m, hm, rfl⟩ := decode_eq_ok.1 hdec
  have hrow : w &&& (maskRow m).mask = (maskRow m).bits := by
    simpa [MaskRow.fits] using wordMnemonic_eq_some_iff_fits.1 hm
  have hign : w &&& (ignoredBits m).1 = (ignoredBits m).2 := by simpa [canonicalWord, hm] using hcan
  exact ⟨encode_withFields k (and_or_eq_or hrow hign), withFields_encodable m k w⟩

end Sys2Proof
end

section
/-! PROOFS. The statements about records and refusals (30_encoding.md R112, R113, R126): a record passes the checks
exactly when its arguments are those of typed operands, so of the checks an instruction can fail only `WF_TARGET` and
`WF_LDXR_RT`; a word that fits no row, and a program that holds one, are refused. -/

namespace Sys2Proof.Machine

open Sys2Proof

/-! ### The range checks say that a number is the value of a field (R112, R113, R114) -/

theorem inRange_unsigned_iff {n : Nat} {hi x : Int} (hhi : hi + 1 = 2 ^ n) :
    inRange 0 hi x = true ↔ ∃ b : BitVec n, (b.toNat : Int) = x := by
  simp only [inRange, Bool.and_eq_true, decide_eq_true_eq]
  constructor
  · rintro ⟨hlo, hx⟩
    have hlt : x.toNat < 2 ^ n := by zify; omega
    exact ⟨BitVec.ofNat n x.toNat, by rw [BitVec.toNat_ofNat, Nat.mod_eq_of_lt hlt, Int.toNat_of_nonneg hlo]⟩
  · rintro ⟨b, rfl⟩
    have hlt : (b.toNat : Int) < 2 ^ n := mod_cast b.isLt
    omega

theorem isReg_iff {x : Int} : isReg x = true ↔ ∃ r : RegNum, (r.toNat : Int) = x := inRange_unsigned_iff (by decide)

theorem inRange_imm12_iff {x : Int} : inRange 0 4095 x = true ↔ ∃ imm : BitVec 12, (imm.toNat : Int) = x :=
  inRange_unsigned_iff (by decide)

theorem inRange_shamt_iff {x : Int} : inRange 0 63 x = true ↔ ∃ shamt : BitVec 6, (shamt.toNat : Int) = x :=
  inRange_unsigned_iff (by decide)

theorem inRange_imm16_iff {x : Int} : inRange 0 65535 x = true ↔ ∃ imm : BitVec 16, (imm.toNat : Int) = x :=
  inRange_unsigned_iff (by decide)

theorem inRange_off9_iff {x : Int} : inRange (-256) 255 x = true ↔ ∃ off : BitVec 9, off.toInt = x := by
  have hfits : inRange (-256) 255 x = fitsSigned 8 x := by
    rw [Bool.eq_iff_iff]
    simp only [inRange, fitsSigned, Bool.and_eq_true, decide_eq_true_eq]
    omega
  rw [hfits]
  exact ⟨fun h => ⟨BitVec.ofInt 9 x, toInt_ofInt_of_fits 8 x h⟩, fun ⟨off, h⟩ => h ▸ fits_toInt 8 off⟩

theorem movsh_iff {x : Int} :
    (x == 0 || x == 16 || x == 32 || x == 48) = true ↔ ∃ hw : BitVec 2, 16 * (hw.toNat : Int) = x := by
  simp only [Bool.or_eq_true, beq_iff_eq]
  constructor
  · rintro (((rfl | rfl) | rfl) | rfl)
    exacts [⟨0, rfl⟩, ⟨1, rfl⟩, ⟨2, rfl⟩, ⟨3, rfl⟩]
  · rintro ⟨hw, rfl⟩
    have := hw.isLt
    omega

/-! ### The arguments that pass the checks are those of typed operands -/

/-- The argument lists of R112, by shape, with each number the value of its field. -/
inductive TypedArgs : Shape → List Int → Prop where
  | regReg (rd rn rm : RegNum) : TypedArgs .regReg [(rd.toNat : Int), (rn.toNat : Int), (rm.toNat : Int)]
  | regImm (rd rn : RegNum) (imm : BitVec 12) : TypedArgs .regImm [(rd.toNat : Int), (rn.toNat : Int), (imm.toNat : Int)]
  | shift (rd rn : RegNum) (shamt : BitVec 6) : TypedArgs .shift [(rd.toNat : Int), (rn.toNat : Int), (shamt.toNat : Int)]
  | transfer (rt rn : RegNum) (off : BitVec 9) : TypedArgs .transfer [(rt.toNat : Int), (rn.toNat : Int), off.toInt]
  | loadExclusive (rt rn : RegNum) (off : BitVec 9) :
      TypedArgs .loadExclusive [(rt.toNat : Int), (rn.toNat : Int), off.toInt]
  | storeExclusive (rt rs rn : RegNum) : TypedArgs .storeExclusive [(rt.toNat : Int), (rs.toNat : Int), (rn.toNat : Int)]
  | wideMove (rd : RegNum) (imm16 : BitVec 16) (hw : BitVec 2) :
      TypedArgs .wideMove [(rd.toNat : Int), (imm16.toNat : Int), 16 * (hw.toNat : Int)]
  | compareBranch (rt : RegNum) (target : Int) : TypedArgs .compareBranch [(rt.toNat : Int), target]
  | branch (target : Int) : TypedArgs .branch [target]
  | branchRegister (rn : RegNum) : TypedArgs .branchRegister [(rn.toNat : Int)]

theorem Record.typedArgs_of_failing {plen : Nat} {r : Record} (h : r.failing plen = none) :
    TypedArgs r.mn.shape r.args := by
  unfold Record.failing at h
  split at h
  all_goals
    simp only [firstFailing_eq_none, List.forall_mem_cons, Bool.and_eq_true, isReg_iff, inRange_imm12_iff,
      inRange_shamt_iff, inRange_imm16_iff, inRange_off9_iff, movsh_iff, reduceCtorEq] at h
  all_goals rename_i hshape hargs; rw [hshape, hargs]
  case h_1 => obtain ⟨⟨⟨⟨rd, rfl⟩, rn, rfl⟩, rm, rfl⟩, -⟩ := h; exact .regReg rd rn rm
  case h_2 => obtain ⟨⟨⟨rd, rfl⟩, rn, rfl⟩, ⟨imm, rfl⟩, -⟩ := h; exact .regImm rd rn imm
  case h_3 => obtain ⟨⟨⟨rd, rfl⟩, rn, rfl⟩, ⟨shamt, rfl⟩, -⟩ := h; exact .shift rd rn shamt
  case h_4 => obtain ⟨⟨⟨rt, rfl⟩, rn, rfl⟩, ⟨off, rfl⟩, -⟩ := h; exact .transfer rt rn off
  case h_5 => obtain ⟨⟨⟨rt, rfl⟩, rn, rfl⟩, ⟨off, rfl⟩, -⟩ := h; exact .loadExclusive rt rn off
  case h_6 => obtain ⟨⟨⟨⟨rt, rfl⟩, rs, rfl⟩, rn, rfl⟩, -⟩ := h; exact .storeExclusive rt rs rn
  case h_7 => obtain ⟨⟨rd, rfl⟩, ⟨imm16, rfl⟩, ⟨hw, rfl⟩, -⟩ := h; exact .wideMove rd imm16 hw
  case h_8 => obtain ⟨⟨rt, rfl⟩, -⟩ := h; exact .compareBranch rt _
  case h_9 => exact .branch _
  case h_10 => obtain ⟨⟨rn, rfl⟩, -⟩ := h; exact .branchRegister rn

/-! ### Reading a record (R112) -/

@[simp] theorem regArg_toNat (r : RegNum) : regArg (r.toNat : Int) = r := by simp [regArg]

@[simp] theorem ofInt_movsh (hw : BitVec 2) : BitVec.ofInt 2 (16 * (hw.toNat : Int) / 16) = hw := by
  rw [Int.mul_ediv_cancel_left _ (by decide)]; simp

/-- The mnemonic and the arguments of an instruction's record read back as the instruction (R112). -/
theorem instr?_record (i : Instr) (line : Nat) : (i.record line).instr? = some i := by
  cases i <;> simp [Instr.record, Instr.mnemonic, Instr.args, Record.instr?]

/-- A record whose arguments are those of typed operands is the record of the instruction read from it. -/
theorem record_of_instr? {m : Mnemonic} {args : List Int} {line : Nat} {i : Instr} (ht : TypedArgs m.shape args)
    (h : Record.instr? ⟨m, args, line⟩ = some i) : i.record line = ⟨m, args, line⟩ := by
  -- the mnemonic fixes the shape, the shape the arguments, and these the instruction that is read
  cases m <;> cases ht
  all_goals cases h; simp [Instr.record, Instr.mnemonic, Instr.args]

/-- Settles O5: the checks pass exactly the arguments of typed operands, and each mnemonic reads its own back. -/
theorem recordReadingRoundTrip : Obligations.RecordReadingRoundTrip := by
  refine ⟨fun plen line i hwf => ?_, fun plen r i h => ?_⟩
  · have hf : (i.record line).failing plen = none := Option.isNone_iff_eq_none.1 hwf
    rw [decodeRecord, hf, instr?_record]
  · unfold decodeRecord at h
    split at h
    · cases h
    · rename_i hf
      split at h
      · rename_i hj
        cases h
        have hrec : i.record r.line = r := record_of_instr? (Record.typedArgs_of_failing hf) hj
        have hwf : (i.record r.line).failing plen = none := hrec ▸ hf
        exact ⟨hrec, Option.isNone_iff_eq_none.2 hwf⟩
      · cases h

/-! ### What an instruction is refused for (R113, D14, D28) -/

@[simp] theorem isReg_toNat (r : RegNum) : isReg (r.toNat : Int) = true := isReg_iff.2 ⟨r, rfl⟩
@[simp] theorem inRange_imm12 (imm : BitVec 12) : inRange 0 4095 (imm.toNat : Int) = true :=
  inRange_imm12_iff.2 ⟨imm, rfl⟩
@[simp] theorem inRange_shamt (shamt : BitVec 6) : inRange 0 63 (shamt.toNat : Int) = true :=
  inRange_shamt_iff.2 ⟨shamt, rfl⟩
@[simp] theorem inRange_imm16 (imm16 : BitVec 16) : inRange 0 65535 (imm16.toNat : Int) = true :=
  inRange_imm16_iff.2 ⟨imm16, rfl⟩
@[simp] theorem inRange_off9 (off : BitVec 9) : inRange (-256) 255 off.toInt = true := inRange_off9_iff.2 ⟨off, rfl⟩

/-- The checks that the operands of an instruction can fail: `WF_TARGET` and `WF_LDXR_RT`. -/
inductive RefusedFor (plen : Nat) : Instr → WfCheck → Prop where
  | target {i : Instr} {target : Int} (ht : i.target? = some target) (hout : targetOk plen target = false) :
      RefusedFor plen i .target
  | ldxrRt (rn : RegNum) (off : BitVec 9) : RefusedFor plen (.ldxr 31 rn off) .ldxrRt

/-- The check that a list of checks reports is one of it that does not hold. -/
theorem mem_of_firstFailing {cs : List (WfCheck × Bool)} {c : WfCheck} (h : firstFailing cs = some c) :
    (c, false) ∈ cs := by
  induction cs with
  | nil => cases h
  | cons x rest ih =>
    obtain ⟨check, ok⟩ := x
    cases ok with
    | false => cases h; exact .head _
    | true => exact .tail _ (ih h)

theorem refusedFor_of_failing {i : Instr} {plen : Nat} {c : WfCheck} (h : i.failing plen = some c) :
    RefusedFor plen i c := by
  cases i with
  | cbz _ k | cbnz _ k | beq k | bne k | bhs k | blo k | bhi k | bls k | bge k | blt k | bgt k | ble k | bmi k | bpl k
  | bvs k | bvc k | b k | bl k =>
    obtain ⟨rfl, hout⟩ : c = .target ∧ targetOk plen k = false := by simpa using mem_of_firstFailing h
    exact .target rfl hout
  | ldxr rt rn off =>
    obtain ⟨rfl, hrt⟩ : c = .ldxrRt ∧ (rt.toNat : Int) = 31 := by simpa using mem_of_firstFailing h
    obtain rfl : rt = 31 := BitVec.eq_of_toNat_eq (mod_cast hrt)
    exact .ldxrRt rn off
  | movz _ _ hw | movk _ _ hw =>
    have hmem := mem_of_firstFailing h
    have hsh := movsh_iff.2 ⟨hw, rfl⟩
    simp [-beq_iff_eq, -Bool.or_eq_true, hsh] at hmem
  | _ => exact absurd (mem_of_firstFailing h) (by simp)

/-- A branch to a target outside the program is refused, taken or not. -/
theorem branchWhen_refused (cond : Bool) {target : Int} {s : State} (h : targetOk s.plen target = false) :
    branchWhen cond target s = .refused (.illFormed .target) := by simp [branchWhen, h]

theorem exec_refused {i : Instr} {s : State} {c : WfCheck} (h : RefusedFor s.plen i c) :
    exec i s = .refused (.illFormed c) := by
  cases h with
  | ldxrRt rn off => rfl
  | @target _ k ht hout =>
    cases i with
    | cbz | cbnz | beq | bne | bhs | blo | bhi | bls | bge | blt | bgt | ble | bmi | bpl | bvs | bvc | b =>
      cases ht; exact branchWhen_refused _ hout
    | bl =>
      cases ht
      have hplen : (s.writeReg lrIndex (s.instrAddr s.idx)).plen = s.plen := State.plen_congr (by simp)
      exact branchWhen_refused true (hplen ▸ hout)
    | _ => cases ht

/-- Settles O18: the checks that can fail are those that the execution makes. -/
theorem execRefusesExactlyIllFormed : Obligations.ExecRefusesExactlyIllFormed := fun _ _ =>
  ⟨fun hwf => exec_next (Option.isNone_iff_eq_none.1 hwf), fun _ hc => exec_refused (refusedFor_of_failing hc)⟩

/-- Settles O53: a target outside `0..PLEN` and the destination 31 are what an instruction is refused for. -/
theorem illFormedInstructionsRefused : Obligations.IllFormedInstructionsRefused := by
  refine ⟨fun i target s ht hout => exec_refused (.target ht ?_), fun rn off s => exec_refused (.ldxrRt rn off)⟩
  simp only [targetOk, inRange, Bool.and_eq_false_iff, decide_eq_false_iff_not]
  omega

/-! ### Words that fit no row (R126) -/

theorem wordMnemonic_eq_none {w : InstrWord} (h : ∀ r ∈ maskRows, r.fits w = false) : wordMnemonic w = none := by
  rw [Option.eq_none_iff_forall_ne_some]
  intro m hm
  obtain ⟨r, hr, -, hf⟩ := wordMnemonic_eq_some.1 hm
  rw [h r hr] at hf
  cases hf

theorem decode_illegal {w : InstrWord} (h : wordMnemonic w = none) (k : Nat) : decode k w = .error (.illegal w) := by
  rw [decode, h]

/-- Condition numbers 14 to 31 name no branch (R124). -/
theorem condMnemonic_eq_none : ∀ n : BitVec 5, 14 ≤ n.toNat → condMnemonic n = none := by decide

/-- The condition-code branches are the words that `01010100` leads. -/
theorem findOpcode_condBranch {w : InstrWord} (h : w.extractLsb' 24 8 = 0x54#8) :
    findOpcode (fieldTop w) = some .condBranch := by
  have hr : (⟨8, 0x54, .condBranch⟩ : OpcodeRow) ∈ opcodeRows := by decide
  exact findOpcode_eq_some.2 ⟨_, hr, (OpcodeRow.fits_fieldTop_iff hr).2 ((and_place_eq_iff (by decide)).2 h), rfl⟩

theorem slotOfWord_illegal {w : InstrWord} (h : ∀ r ∈ maskRows, r.fits w = false) (k line : Nat) :
    slotOfWord k w line = { form := .illegalWord w, line := line } := by
  rw [slotOfWord, decode_illegal (wordMnemonic_eq_none h)]

/-- Where no cache pair is to be validated, reset refuses a program for its first failing position. -/
theorem resetWith_refusedProgram {params : Params} {prog : List Slot} {k : Nat} {r : Refusal} (hic : params.icCfg = none)
    (hdc : params.dcCfg = none) (h : firstFailingSlot prog.length 0 prog = some (k, r)) (mem : Memory) :
    resetWith params prog mem = .refusedProgram k r := by
  rw [resetWith, hic, hdc]
  simp only [resetPosition, resetProgram, h]

/-- A step at a word that spells no instruction is refused by its name. -/
theorem step_illegalWord {s : State} {w : InstrWord} {line : Nat}
    (h : s.prog[s.idx]? = some { form := .illegalWord w, line := line }) : step s = .refused (.illegalWord w) := by
  have hlt : s.idx < s.plen := (List.getElem?_eq_some_iff.1 h).1
  rw [step, stepOnce, if_neg hlt.ne, h]
  rfl

/-- Settles O4: no row fits, so the word has no mnemonic; and the reset looks at every position, in order. -/
theorem illegalWordsRefused : Obligations.IllegalWordsRefused := by
  refine ⟨fun k w h => decode_illegal (wordMnemonic_eq_none h) k, fun k w htop hn => decode_illegal ?_ k,
    fun k line plen w h => ?_, ?_, ?_, fun s w line h hs => ?_⟩
  · rw [wordMnemonic_eq, findOpcode_condBranch htop]
    exact condMnemonic_eq_none (fieldRd w) hn
  · rw [slotOfWord_illegal h]; rfl
  · rintro params prog mem ⟨slot, hslot, hbad⟩ s hready
    exact hbad ((resetWith_ready_accepts hready).2 slot hslot)
  · intro params pre post slot mem r hic hdc hpre hslot
    exact resetWith_refusedProgram hic hdc (by rw [firstFailingSlot_append hpre hslot, Nat.zero_add]) mem
  · exact step_illegalWord (slotOfWord_illegal h s.idx line ▸ hs)

/-- Settles O6: the words, evaluated. -/
theorem sampleWordsDecode : Obligations.SampleWordsDecode := by
  unfold Obligations.SampleWordsDecode
  decide

end Sys2Proof.Machine
end

section
/-! PROOFS. The statements about arithmetic and logic (40_arithmetic_logic.md): the flag formulas of R144 and R145 as
formulas over three top bits, what these say about a sum and a difference, and the results of the instructions. -/

namespace Sys2Proof.Machine

open Sys2Proof

/-! ### The flag formula on the top bits (R144) -/

/-- Masking with `SIGN` leaves the top bit. -/
theorem and_signBit_bne_zero (x : Word) : (x &&& signBit != 0) = x.msb := by
  have hs : signBit = BitVec.twoPow 64 63 := by decide
  rw [hs, BitVec.and_twoPow, BitVec.msb_eq_getLsbD_last]
  cases x.getLsbD 63 <;> decide

@[simp] theorem flagsAdd_n (r a b : Word) : (flagsAdd r a b).n = decide (r.toInt < 0) :=
  BitVec.msb_eq_toInt (x := r)

@[simp] theorem flagsAdd_z (r a b : Word) : (flagsAdd r a b).z = decide (r = 0) := beq_eq_decide r 0

/-- C is the majority of the top bits of the operands and of the complement of the result. -/
theorem flagsAdd_c (r a b : Word) : (flagsAdd r a b).c = ((a.msb && b.msb) || ((a.msb || b.msb) && !r.msb)) := by
  simp only [flagsAdd, BitVec.msb_not]
  cases r.msb <;> cases a.msb <;> cases b.msb <;> decide

/-- V says that the operands have one sign and the result the other. -/
theorem flagsAdd_v (r a b : Word) : (flagsAdd r a b).v = (a.msb == b.msb && a.msb != r.msb) := by
  simp only [flagsAdd, and_signBit_bne_zero, BitVec.msb_and, BitVec.msb_xor, BitVec.msb_not]
  cases r.msb <;> cases a.msb <;> cases b.msb <;> decide

/-! ### What the formula says of `a + b + k`, with a carry `k` into bit 0 -/

section CarryIn

variable {r a b : Word} {k : Nat}

/-- C is the carry out of bit 63. -/
theorem flagsAdd_c_carry (hk : k ≤ 1) (hr : r.toNat = (a.toNat + b.toNat + k) % 2 ^ 64) :
    (flagsAdd r a b).c = decide (2 ^ 64 ≤ a.toNat + b.toNat + k) := by
  rw [flagsAdd_c, Bool.eq_iff_iff]
  simp only [BitVec.msb_eq_decide, Bool.or_eq_true, Bool.and_eq_true, Bool.not_eq_true', decide_eq_true_eq,
    decide_eq_false_iff_not]
  omega

/-- V is the signed overflow. -/
theorem flagsAdd_v_overflow (hk : k ≤ 1) (hr : r.toNat = (a.toNat + b.toNat + k) % 2 ^ 64) :
    (flagsAdd r a b).v = decide (r.toInt ≠ a.toInt + b.toInt + k) := by
  rw [flagsAdd_v, Bool.eq_iff_iff]
  simp only [BitVec.msb_eq_decide, BitVec.toInt_eq_toNat_cond, Bool.and_eq_true, beq_iff_eq, bne_iff_ne, decide_eq_decide,
    decide_eq_true_eq, ne_eq]
  omega

end CarryIn

/-- `FlagsLogic` (R162). -/
theorem flagsLogic_eq (r : Word) : flagsLogic r = { n := r.msb, z := decide (r = 0), c := false, v := false } := by
  rw [flagsLogic, beq_eq_decide]

/-! ### The flags of a sum (R144) -/

theorem flagsAdd_sum_c (a b : Word) : (flagsAdd (a + b) a b).c = decide (2 ^ 64 ≤ a.toNat + b.toNat) :=
  flagsAdd_c_carry (k := 0) (by decide) (BitVec.toNat_add a b)

theorem flagsAdd_sum_v (a b : Word) : (flagsAdd (a + b) a b).v = decide ((a + b).toInt ≠ a.toInt + b.toInt) := by
  simpa using flagsAdd_v_overflow (k := 0) (by decide) (BitVec.toNat_add a b)

/-! ### The flags of a difference, mode by mode (R145) -/

@[simp] theorem flagsSub_n (mode : SubsFlagMode) (r a b : Word) : (flagsSub mode r a b).n = decide (r.toInt < 0) :=
  flagsAdd_n r a _

@[simp] theorem flagsSub_z (mode : SubsFlagMode) (r a b : Word) : (flagsSub mode r a b).z = decide (r = 0) :=
  flagsAdd_z r a _

/-- The difference is the sum with the complement and a carry into bit 0. -/
theorem toNat_sub_eq_add_not (a b : Word) : (a - b).toNat = (a.toNat + (~~~b).toNat + 1) % 2 ^ 64 := by
  rw [BitVec.toNat_sub, BitVec.toNat_not]
  omega

theorem toInt_not_eq (b : Word) : (~~~b).toInt = -b.toInt - 1 := by
  rw [BitVec.toInt_eq_toNat_cond, BitVec.toInt_eq_toNat_cond, BitVec.toNat_not]
  omega

/-- In `inverted` C is "no borrow". -/
theorem flagsSub_inverted_c (a b : Word) : (flagsSub .inverted (a - b) a b).c = decide (b.toNat ≤ a.toNat) := by
  refine (flagsAdd_c_carry (by decide) (toNat_sub_eq_add_not a b)).trans ?_
  rw [decide_eq_decide, BitVec.toNat_not]
  omega

/-- In `inverted` V is the signed overflow of the subtraction. -/
theorem flagsSub_inverted_v (a b : Word) :
    (flagsSub .inverted (a - b) a b).v = decide ((a - b).toInt ≠ a.toInt - b.toInt) := by
  refine (flagsAdd_v_overflow (by decide) (toNat_sub_eq_add_not a b)).trans ?_
  rw [decide_eq_decide, toInt_not_eq]
  omega

/-- In `negated` the formula sees the sum of `a` and `-b`. -/
theorem flagsSub_negated (a b : Word) : flagsSub .negated (a - b) a b = flagsAdd (a + -b) a (-b) := by
  rw [flagsSub, subFlagOperand, zero_sub, sub_eq_add_neg]

/-- In `negated` C is "no borrow", but false when 0 is subtracted: `-b` is `2^64 - b` for every other `b`. -/
theorem flagsSub_negated_c (a b : Word) :
    (flagsSub .negated (a - b) a b).c = (decide (b ≠ 0) && decide (b.toNat ≤ a.toNat)) := by
  rw [flagsSub_negated, flagsAdd_sum_c, ← Bool.decide_and, decide_eq_decide, BitVec.toNat_neg, BitVec.toNat_ne,
    show (0 : Word).toNat = 0 from rfl]
  omega

/-- Subtracting `SIGN` flips the top bit. -/
theorem msb_sub_signBit (a : Word) : (a - signBit).msb = !a.msb := by
  have hs : signBit.toNat = 2 ^ 63 := by decide
  rw [Bool.eq_iff_iff, BitVec.msb_eq_decide, BitVec.msb_eq_decide, BitVec.toNat_sub, hs]
  simp only [decide_eq_true_eq, Bool.not_eq_true', decide_eq_false_iff_not]
  omega

/-- In `negated` V is the signed overflow of the subtraction, but the sign of `a` when `SIGN`, its own negation, is
subtracted. -/
theorem flagsSub_negated_v (a b : Word) :
    (flagsSub .negated (a - b) a b).v =
      if b = signBit then a.msb else decide ((a - b).toInt ≠ a.toInt - b.toInt) := by
  split
  next h =>
    subst h
    have hs : (subFlagOperand .negated signBit).msb = true := by decide
    rw [flagsSub, flagsAdd_v, msb_sub_signBit, hs]
    cases a.msb <;> rfl
  next h =>
    have hneg : (-b).toInt = -b.toInt := BitVec.toInt_neg_of_ne_intMin h
    rw [flagsSub_negated, flagsAdd_sum_v, hneg, ← sub_eq_add_neg, ← sub_eq_add_neg]

/-! ### What an instruction that answers its state with a register and flags written leaves -/

/-- The immediate is zero-extended (R143). -/
theorem immValue_eq_ofNat (imm : BitVec 12) : immValue imm = BitVec.ofNat 64 imm.toNat :=
  (BitVec.ofNat_toNat 64 imm).symm

/-- The flags are none of what `writesReg` speaks of. -/
theorem writesReg.setFlags {rd : RegNum} {v : Word} {s t : State} (h : writesReg rd v s t) (f : Flags) :
    writesReg rd v s (t.setFlags f) := h

section Outcome

variable {i : Instr} {s : State} {rd : RegNum} {v : Word}

theorem exec_writesReg (h : exec i s = .next (s.writeReg rd v)) :
    ∃ t, exec i s = .next t ∧ writesReg rd v s t ∧ t.flags = s.flags :=
  ⟨_, h, s.writeReg_spec rd v, s.writeReg_flags rd v⟩

theorem exec_writesReg_setFlags {f : Flags} (h : exec i s = .next ((s.writeReg rd v).setFlags f)) :
    ∃ t, exec i s = .next t ∧ writesReg rd v s t ∧ t.flags = f :=
  ⟨_, h, (s.writeReg_spec rd v).setFlags f, State.setFlags_flags _ f⟩

end Outcome

/-! ### The obligations -/

/-- Settles O28: both forms add two operands, and C and V are the carry and the overflow of that sum. -/
theorem addsWritesSumCarryOverflow : Obligations.AddsWritesSumCarryOverflow := by
  intro rd rn rm imm s
  rw [← immValue_eq_ofNat]
  intro p hp
  have hexec : exec p.1 s = .next (addSetting rd (s.readReg rn) p.2 s) := by
    simp only [List.mem_cons, List.not_mem_nil, or_false] at hp
    obtain rfl | rfl := hp <;> rfl
  obtain ⟨t, ht, hw, hf⟩ := exec_writesReg_setFlags hexec
  refine ⟨t, ht, hw, ?_⟩
  rw [hf]
  exact ⟨flagsAdd_n .., flagsAdd_z .., flagsAdd_sum_c .., flagsAdd_sum_v ..⟩

/-- Settles O29: both forms subtract two operands, and the mode selects what C and V say of the difference. -/
theorem subsWritesDifferenceAndModeFlags : Obligations.SubsWritesDifferenceAndModeFlags := by
  intro rd rn rm imm s
  rw [← immValue_eq_ofNat]
  intro p hp
  have hexec : exec p.1 s = .next (subSetting rd (s.readReg rn) p.2 s) := by
    simp only [List.mem_cons, List.not_mem_nil, or_false] at hp
    obtain rfl | rfl := hp <;> rfl
  obtain ⟨t, ht, hw, hf⟩ := exec_writesReg_setFlags hexec
  refine ⟨t, ht, hw, ?_⟩
  rw [hf]
  refine ⟨flagsSub_n .., flagsSub_z .., fun hm => ?inverted, fun hm => ?negated, fun hm => ?literal⟩ <;> rw [hm]
  case inverted => exact ⟨flagsSub_inverted_c .., flagsSub_inverted_v ..⟩
  case negated => exact ⟨flagsSub_negated_c .., flagsSub_negated_v ..⟩
  case literal => exact ⟨flagsAdd_c .., flagsAdd_v ..⟩

/-- Settles O26: each of the five writes its result to `rd`, and that is all. -/
theorem registerAluResults : Obligations.RegisterAluResults := by
  intro rd rn rm s p hp
  have hexec : exec p.1 s = .next (s.writeReg rd p.2) := by
    simp only [List.mem_cons, List.not_mem_nil, or_false] at hp
    obtain rfl | rfl | rfl | rfl | rfl := hp <;> rfl
  exact exec_writesReg hexec

/-- Settles O27: as the register forms, with the zero-extended immediate as the second operand. -/
theorem immediateAluResults : Obligations.ImmediateAluResults := by
  intro rd rn imm s
  rw [← immValue_eq_ofNat]
  intro p hp
  have hexec : exec p.1 s = .next (s.writeReg rd p.2) := by
    simp only [List.mem_cons, List.not_mem_nil, or_false] at hp
    obtain rfl | rfl | rfl | rfl | rfl := hp <;> rfl
  exact exec_writesReg hexec

/-- Settles O30: both forms AND two operands, and the flags are `FlagsLogic` of the result. -/
theorem andsWritesResultAndClears : Obligations.AndsWritesResultAndClears := by
  intro rd rn rm imm s
  rw [← immValue_eq_ofNat]
  intro p hp
  have hexec : exec p.1 s = .next (andSetting rd (s.readReg rn) p.2 s) := by
    simp only [List.mem_cons, List.not_mem_nil, or_false] at hp
    obtain rfl | rfl := hp <;> rfl
  obtain ⟨t, ht, hw, hf⟩ := exec_writesReg_setFlags hexec
  exact ⟨t, ht, hw, hf.trans (flagsLogic_eq _)⟩

end Sys2Proof.Machine
end

section
/-! PROOFS. The shift instructions (41_shift.md): the shifted value as arithmetic on the number, and what the two
instructions leave. -/

namespace Sys2Proof.Machine

open Sys2Proof

/-- The 6-bit field carries no amount that `mod 64` changes (R170). -/
@[simp] theorem shiftAmount_eq (shamt : BitVec 6) : shiftAmount shamt = shamt.toNat := Nat.mod_eq_of_lt shamt.isLt

/-- R171: the bits shifted out are what the product loses modulo 2^64. -/
theorem shiftLeft_shiftAmount (a : Word) (shamt : BitVec 6) :
    a <<< shiftAmount shamt = BitVec.ofNat 64 (a.toNat * 2 ^ shamt.toNat) := by
  apply BitVec.eq_of_toNat_eq
  rw [shiftAmount_eq, BitVec.toNat_shiftLeft, Nat.shiftLeft_eq, BitVec.toNat_ofNat]

/-- R172: zero fill makes the shift a division of the unsigned number; the quotient still fits the word. -/
theorem ushiftRight_shiftAmount (a : Word) (shamt : BitVec 6) :
    a >>> shiftAmount shamt = BitVec.ofNat 64 (a.toNat / 2 ^ shamt.toNat) := by
  have hfits : a.toNat / 2 ^ shamt.toNat < 2 ^ 64 := (Nat.div_le_self ..).trans_lt a.isLt
  apply BitVec.eq_of_toNat_eq
  rw [shiftAmount_eq, BitVec.toNat_ushiftRight, Nat.shiftRight_eq_div_pow, BitVec.toNat_ofNat, Nat.mod_eq_of_lt hfits]

theorem exec_lsl (rd rn : RegNum) (shamt : BitVec 6) (s : State) :
    exec (.lsl rd rn shamt) s = .next (s.writeReg rd (BitVec.ofNat 64 ((s.readReg rn).toNat * 2 ^ shamt.toNat))) := by
  rw [← shiftLeft_shiftAmount]; rfl

theorem exec_lsr (rd rn : RegNum) (shamt : BitVec 6) (s : State) :
    exec (.lsr rd rn shamt) s = .next (s.writeReg rd (BitVec.ofNat 64 ((s.readReg rn).toNat / 2 ^ shamt.toNat))) := by
  rw [← ushiftRight_shiftAmount]; rfl

/-- Settles O31: each shift writes its product or quotient to `rd`, and that is all. -/
theorem shiftResults : Obligations.ShiftResults := fun rd rn shamt s =>
  ⟨exec_writesReg (exec_lsl rd rn shamt s), exec_writesReg (exec_lsr rd rn shamt s)⟩

end Sys2Proof.Machine
end

section
/-! PROOFS. The statements about data transfer (42_data_transfer.md) that no memory access reaches: a load to register
31, and every memory instruction whose base is a misaligned stack pointer. -/

namespace Sys2Proof.Machine

open Sys2Proof

/-- A load to register 31 returns before its first line (R177). -/
theorem load_zr (rn : RegNum) (off : BitVec 9) (n : Nat) (e : Extension) (s : State) : load zr rn off n e s = .done () s :=
  if_pos rfl

/-- Taking a fault sets the status to the fault's record (R246). -/
theorem State.takeFault_eq (s : State) (f : Raise) : s.takeFault f = { s with status := s.record f.kind f.addr } := rfl

/-- The stack pointer as a base passes the check exactly when it is a multiple of 16 (R176). -/
theorem baseOk_spIndex {s : State} : baseOk spIndex s ↔ (s.readReg spIndex).toNat % 16 = 0 := forall_prop_of_true rfl

/-- The lines of a load whose base fails the stack-pointer check (R176). -/
theorem loadValue_fails {rn : RegNum} {a : Word} {n : Nat} {s : State} (hb : ¬ baseOk rn s) :
    loadValue rn a n s = .raised { kind := .spAlignment, addr := s.readReg spIndex } s := by
  unfold loadValue
  rw [(spCheck_fails hb).2, Run.andThen_raised]

/-- Settles O34. -/
theorem loadToRegister31DoesNothing : Obligations.LoadToRegister31DoesNothing := by
  intro f hf rn off s
  obtain ⟨e, hexec, -⟩ := exec_loadForm hf
  calc exec (f.instr 31 rn off) s
      = (load zr rn off f.size e s).outcome := hexec zr rn off s
    _ = .next s := by rw [load_zr, Run.outcome_done]

/-- Settles O37: each instruction's lines begin with the check of the base, and what they raise is the instruction's
fault. -/
theorem misalignedStackPointerFaults : Obligations.MisalignedStackPointerFaults := by
  intro s rt rs off hsp
  have hb : ¬ baseOk spIndex s := mt baseOk_spIndex.1 hsp
  rw [← State.takeFault_eq s { kind := .spAlignment, addr := s.readReg spIndex }]
  refine ⟨fun f hf hrt => ?load, fun f hf => ?store, fun hrt => ?ldxr, ?stxr⟩
  case load => exact exec_of_loadValue_raised hrt (.inr ⟨f, hf, rfl, rfl⟩) (loadValue_fails hb)
  case store => rw [exec_storeForm hf, (store_fails hb).2, Run.outcome_raised]
  case ldxr => exact exec_of_loadValue_raised hrt (.inl ⟨rfl, rfl⟩) (loadValue_fails hb)
  case stxr => exact congrArg Run.outcome (storeExclusive_fails hb).2

end Sys2Proof.Machine
end

section
/-! PROOFS. The statements about the exclusives (43_exclusive.md): the overlap test as a shared byte, LDXR, and the two
outcomes of STXR. -/

namespace Sys2Proof.Machine

open Sys2Proof

/-! ### The overlap test (R195) -/

/-- Where an offset from `a` meets an offset from `b` at least as large, `a` lies that much above `b`, modulo 2^64. -/
theorem sub_toNat_of_add_eq {a b : Word} {i j : Nat} (hij : i ≤ j) (hj : j < 2 ^ 64)
    (h : a + BitVec.ofNat 64 i = b + BitVec.ofNat 64 j) : (a - b).toNat = j - i := by
  have hsub : a - b = BitVec.ofNat 64 (j - i) :=
    calc a - b = a + BitVec.ofNat 64 i - BitVec.ofNat 64 i - b := by rw [BitVec.add_sub_cancel]
      _ = BitVec.ofNat 64 j - BitVec.ofNat 64 i := by rw [h]; ring
      _ = BitVec.ofNat 64 (j - i) := BitVec.ofNat_sub_ofNat_of_le j i (by omega) hij
  rw [hsub, BitVec.toNat_ofNat, Nat.mod_eq_of_lt (by omega)]

/-- `b` and its difference from `a` give `a` back, as an offset from each. -/
theorem add_ofNat_sub_toNat (a b : Word) : a + BitVec.ofNat 64 0 = b + BitVec.ofNat 64 (a - b).toNat := by
  rw [BitVec.ofNat_toNat, BitVec.setWidth_eq, BitVec.add_zero]
  ring

/-- Settles O23: the lower of the two ranges, modulo 2^64, holds the first byte of the other, and of any shared byte
the smaller offset tells which range that is. -/
theorem overlapSharesAByte : Obligations.OverlapSharesAByte := by
  intro ea t n hn hn8
  rw [overlap_eq]
  constructor
  · rintro (h | h)
    · exact ⟨0, (ea - t).toNat, hn, h, add_ofNat_sub_toNat ea t⟩
    · exact ⟨(t - ea).toNat, 0, h, by decide, (add_ofNat_sub_toNat t ea).symm⟩
  · rintro ⟨i, j, hi, hj, h⟩
    obtain hij | hji := Nat.le_total i j
    · left; rw [sub_toNat_of_add_eq hij (by omega) h]; omega
    · right; rw [sub_toNat_of_add_eq hji (by omega) h.symm]; omega

/-! ### What an exclusive leaves, in the terms of the claims -/

@[simp] theorem State.ldxrDone_params (s : State) (rt : RegNum) (v a : Word) : (s.ldxrDone rt v a).params = s.params :=
  State.writeReg_params s rt v
@[simp] theorem State.ldxrDone_status (s : State) (rt : RegNum) (v a : Word) : (s.ldxrDone rt v a).status = s.status :=
  State.writeReg_status s rt v
@[simp] theorem State.ldxrDone_port (s : State) (rt : RegNum) (v a : Word) : (s.ldxrDone rt v a).port = s.port :=
  State.writeReg_port s rt v

/-- What the registers hold in a state whose register file is that of one register write (R32). -/
theorem readReg_of_writeReg_regs {s t : State} {rd : RegNum} {v : Word} (h : t.regs = (s.writeReg rd v).regs) :
    (rd ≠ zr → t.readReg rd = v) ∧ (rd = zr → t.readReg rd = s.readReg rd) ∧ regsSameBut [rd] s t := by
  obtain ⟨hsame, hzr, hother, -⟩ := s.writeReg_spec rd v
  unfold regsSameBut
  simp only [State.readReg_congr h]
  exact ⟨hsame, hzr, hother⟩

/-- The data cache and the port are none of what `dataFrame` speaks of. -/
theorem portOnly.dataFrame {s t : State} (h : portOnly s t) : dataFrame s t := by
  obtain ⟨-, hidx, hflags, -, htaken, -, hic, hprog, -, hparams, -⟩ := h.fields
  exact ⟨hidx, htaken, hflags, hic, hprog, hparams⟩

/-- The low eight bytes of a word are the word (R61). -/
theorem lowBytes_eight (v : Word) : lowBytes 8 v = v := by
  have h := lowBytes_setWidth (n := 8) (w := 64) (by decide) (by decide) v
  simpa using h

/-- An STXR that does not match writes its outcome and nothing else (R197). -/
theorem exec_stxr_fails {rn : RegNum} {s : State} (hb : baseOk rn s) (hx : s.xtag ≠ some (s.readReg rn))
    (rt rs : RegNum) : exec (.stxr rt rs rn) s = .next (s.stxrFailed rs) := by
  show (storeExclusive rt rs rn s).outcome = _
  rw [storeExclusive_eq hb, if_neg hx, Run.outcome_done]

/-! ### LDXR (R196) -/

/-- Settles O43: the lines of the load get to their end with nothing but the data cache and the port changed; then the
register and the tag are written. -/
theorem loadExclusiveCompletes : Obligations.LoadExclusiveCompletes := by
  unfold Obligations.LoadExclusiveCompletes
  simp only [← State.effAddr_eq]
  intro rt rn off s hrt hb hp hv
  obtain ⟨u, hu⟩ := loadValue_of_ok hb hp hv
  obtain ⟨-, -, -, -, honly, hcheck, hport⟩ := loadValue_done hu
  obtain ⟨hregs, -, -, -, -, hstxr, -, -, hmem, -, hstatus⟩ := honly.fields
  obtain ⟨hread, -, hsame⟩ := readReg_of_writeReg_regs (s := s) (rd := rt) (v := s.loaded (s.effAddr rn off) 8)
    (t := u.ldxrDone rt (s.loaded (s.effAddr rn off) 8) (s.effAddr rn off)) (by simp [State.writeReg_regs, hregs])
  refine ⟨u.ldxrDone rt (s.loaded (s.effAddr rn off) 8) (s.effAddr rn off), ?exec, ?value, rfl, hsame, ?mem, ?stxrOk,
    ?status, ?frame, ?check, ?port⟩
  case exec => rw [exec_ldxr hrt, hu]; rfl
  case value =>
    rw [hread hrt]
    exact loaded_extension s (s.effAddr rn off) 8 false .identity (by simp)
  case mem => exact memSame_of_mem_eq (by simp [hmem])
  case stxrOk => simp [hstxr]
  case status => simp [hstatus]
  case frame => simpa [dataFrame, fixedSame] using honly.dataFrame
  case check => exact hcheck.of_eq rfl (by simp) (by simp)
  case port => intro hd; simp [hport hd]

/-! ### STXR (R197, R199) -/

/-- Settles O44: the doubleword is written, the check of the data cache changes nothing else but the port, and the
outcome, the tag and the latch are written last. -/
theorem storeExclusiveSucceeds : Obligations.StoreExclusiveSucceeds := by
  intro rt rs rn s hb hx hv hp
  obtain ⟨hit, u, hu⟩ := dProbe_of_ok (probeOk_written (a := s.readReg rn) (n := 8) (v := s.readReg rt) hp)
  obtain ⟨honly, hcheck, hnone⟩ := dProbe_done hu
  obtain ⟨hregs, -, -, -, -, -, -, -, hmem, -, hstatus⟩ := honly.fields
  obtain ⟨hread, hzr, hsame⟩ := readReg_of_writeReg_regs (s := s) (rd := rs) (v := 0) (t := u.stxrDone rs)
    (by simp [State.writeReg_regs, hregs])
  refine ⟨u.stxrDone rs, ?exec, ?bytes, hread, hzr, hsame, rfl, rfl, ?status, ?frame, ?check, ?port⟩
  case exec => rw [exec_stxr_eq hb hx, dProbeW_of_valid hv, hu]; rfl
  case bytes => exact (s.written_stores _ _ _).of_eq (by simp [hmem])
  case status => simp [hstatus]
  case frame => simpa [dataFrame, fixedSame] using honly.dataFrame
  case check => exact hcheck.of_eq rfl (by simp) (by simp)
  case port => intro hd; simp [hnone hd, lowBytes_eight]

/-- Settles O45: one register and the latch are written. -/
theorem storeExclusiveFails : Obligations.StoreExclusiveFails := by
  intro rt rs rn s hb hx
  obtain ⟨hread, hzr, hsame⟩ := readReg_of_writeReg_regs (s := s) (State.stxrFailed_regs s rs)
  exact ⟨s.stxrFailed rs, exec_stxr_fails hb hx rt rs, hread, hzr, hsame, memSame_of_mem_eq (s.stxrFailed_mem rs),
    s.stxrFailed_xtag rs, rfl, s.stxrFailed_status rs, s.stxrFailed_dc rs, s.stxrFailed_port rs,
    by simp [dataFrame, fixedSame]⟩

/-- After a success the tag is clear, and the base still passes the stack-pointer check: the one write to it that
can have happened is the outcome 0. -/
theorem stxr_succeeded {rt rs rn : RegNum} {s t : State} (h : exec (.stxr rt rs rn) s = .next t)
    (hok : t.stxrOk = true) (hc : t.status = .continuing) : t.xtag = none ∧ baseOk rn t := by
  obtain ⟨hb, ⟨-, rfl⟩ | ⟨-, -, u, hit, hu, rfl⟩⟩ := storeExclusive_done (Run.eq_done_of_continuing h hc)
  · cases hok
  · obtain ⟨hregs, -⟩ := (dProbe_done hu).1.fields
    obtain ⟨hread, -, hsame⟩ := readReg_of_writeReg_regs (s := s) (rd := rs) (v := 0) (t := u.stxrDone rs)
      (by simp [State.writeReg_regs, hregs])
    refine ⟨rfl, fun hrn => ?_⟩
    by_cases hrs : spIndex = rs
    · rw [hrs, hread (by subst hrs; decide)]; rfl
    · rw [hsame spIndex (by simpa using hrs)]; exact hb hrn

/-- Settles O46: no address matches the cleared tag, so the second STXR is one without the matching tag (O45). -/
theorem secondStoreExclusiveFails : Obligations.SecondStoreExclusiveFails := by
  intro rt rs rn rt' rs' rn' s t u hfirst hok hc hbase hsecond
  obtain ⟨htag, hb⟩ := stxr_succeeded hfirst hok hc
  have hb' : baseOk rn' t := by
    obtain rfl | h := hbase
    · exact hb
    · exact h
  obtain ⟨u', hu', hread, hzr, hsame, hmem, hxtag, hlatch, hstatus, -⟩ :=
    storeExclusiveFails rt' rs' rn' t hb' (by simp [htag])
  cases hu'.symm.trans hsecond
  refine ⟨hread, ?regs, hlatch, hxtag.trans htag, hmem, hstatus.trans hc⟩
  case regs =>
    split
    next h31 =>
      intro r _
      by_cases hr : r = rs'
      · rw [hr]; exact hzr h31
      · exact hsame r (by simpa using hr)
    next => exact hsame

end Sys2Proof.Machine
end

section
/-! PROOFS. The statements about the wide-immediate moves (44_move.md): what the immediate at its place and the mask of
its field hold in each quarter of the word, and what the two moves leave. -/

namespace Sys2Proof.Machine

open Sys2Proof

theorem wideValue_getLsbD (imm16 : BitVec 16) (hw : BitVec 2) {i : Nat} (hi : i < 64) :
    (wideValue imm16 hw).getLsbD i = (!decide (i < 16 * hw.toNat) && imm16.getLsbD (i - 16 * hw.toNat)) := by
  simp [wideValue, wideShift, hi]

/-- The immediate at its place is the immediate in the quarter that `hw` names and 0 in the others (R201): no bit of a
16-bit value, moved by whole quarters, reaches another quarter. -/
theorem wideValue_quarter (imm16 : BitVec 16) (hw q : BitVec 2) :
    (wideValue imm16 hw).extractLsb' (16 * q.toNat) 16 = if q = hw then imm16 else 0 := by
  have hq := q.isLt
  apply BitVec.eq_of_getLsbD_eq
  intro i hi
  rw [BitVec.getLsbD_extractLsb', wideValue_getLsbD imm16 hw (by omega), decide_eq_true hi, Bool.true_and]
  split
  next h => simp [h]
  next h =>
    rw [BitVec.ofNat_eq_ofNat, BitVec.getLsbD_zero]
    obtain hbelow | habove := Nat.lt_or_gt_of_ne (mt BitVec.eq_of_toNat_eq h)
    · rw [decide_eq_true (by omega), Bool.not_true, Bool.false_and]
    · rw [BitVec.getLsbD_of_ge _ _ (by omega), Bool.and_false]

/-- The mask of a field is the immediate of all ones at its place (R200). -/
theorem wideField_eq_wideValue (hw : BitVec 2) : wideField hw = wideValue (BitVec.allOnes 16) hw := rfl

/-- A quarter of a complement: the library's lemma leaves out a slice that ends at the top bit. -/
theorem not_quarter (v : Word) (q : BitVec 2) :
    (~~~v).extractLsb' (16 * q.toNat) 16 = ~~~(v.extractLsb' (16 * q.toNat) 16) := by
  have hq := q.isLt
  apply BitVec.eq_of_getLsbD_eq
  intro i hi
  have hin : 16 * q.toNat + i < 64 := by omega
  simp [hi, hin]

/-- Under the complement of the mask, the quarter that `hw` names is 0 and the others are kept (R202). -/
theorem and_not_wideField_quarter (v : Word) (hw q : BitVec 2) :
    (v &&& ~~~wideField hw).extractLsb' (16 * q.toNat) 16 =
      if q = hw then 0 else v.extractLsb' (16 * q.toNat) 16 := by
  rw [BitVec.extractLsb'_and, not_quarter, wideField_eq_wideValue, wideValue_quarter]
  split
  next => rw [BitVec.not_allOnes, BitVec.and_zero]; rfl
  next => exact BitVec.and_allOnes

/-- Settles O32: each move writes one value to `rd`, and that is all; the value of MOVK is the kept quarters beside the
one of MOVZ. -/
theorem wideMoveResults : Obligations.WideMoveResults := by
  intro rd imm16 hw s
  refine ⟨?movz, ?movk⟩
  case movz =>
    obtain ⟨t, ht, hwrites, hflags⟩ := exec_writesReg (i := .movz rd imm16 hw) (s := s) rfl
    exact ⟨t, _, ht, hwrites, hflags, wideValue_quarter imm16 hw⟩
  case movk =>
    obtain ⟨t, ht, hwrites, hflags⟩ := exec_writesReg (i := .movk rd imm16 hw) (s := s) rfl
    refine ⟨t, _, ht, hwrites, hflags, fun q => ?_⟩
    rw [BitVec.extractLsb'_or, and_not_wideField_quarter, wideValue_quarter]
    split
    next => exact BitVec.zero_or
    next => exact BitVec.or_zero

end Sys2Proof.Machine
end

section
/-! PROOFS. The statements about compare-and-branch (45_compare_branch.md): what the branch mechanism of R205 leaves, for
every condition, and the test of all 64 bits by which CBZ and CBNZ branch. -/

namespace Sys2Proof.Machine

open Sys2Proof

/-! ### What a branch leaves, in the terms of the claims (R205) -/

theorem branchFrame_refl (s : State) : branchFrame [] s s :=
  ⟨fun _ _ => rfl, rfl, rfl, rfl, rfl, rfl, rfl, rfl, fun _ => rfl, rfl, rfl⟩

theorem branchFrame_branch (s : State) (k : Nat) : branchFrame [] s (s.branch k) :=
  ⟨fun _ _ => rfl, rfl, rfl, rfl, rfl, rfl, rfl, rfl, fun _ => rfl, rfl, rfl⟩

/-- An index of the program, or the one after its last, is a target (`WF_TARGET`, R113). -/
theorem targetOk_natCast {plen k : Nat} (h : k ≤ plen) : targetOk plen k = true := by
  simp only [targetOk, inRange, Bool.and_eq_true, decide_eq_true_eq]
  omega

/-- A branch inside the program goes to its target and sets the latch if its condition holds, and else leaves the state
as it was. -/
theorem branchWhen_results (cond : Bool) {target : Nat} {s : State} (h : target ≤ s.plen) :
    ∃ t, branchWhen cond target s = .next t ∧ t.idx = (if cond then target else s.idx) ∧
      t.taken = (if cond then true else s.taken) ∧ branchFrame [] s t := by
  obtain ⟨t, ht⟩ := branchWhen_next cond (targetOk_natCast h)
  refine ⟨t, ht, ?_⟩
  obtain ⟨-, -, ⟨rfl, rfl⟩ | ⟨rfl, rfl⟩⟩ := branchWhen_cases ht
  · exact ⟨rfl, rfl, branchFrame_branch s target⟩
  · exact ⟨rfl, rfl, branchFrame_refl _⟩

/-! ### The test of CBZ and CBNZ (R206, R207) -/

/-- The comparison with the zero word is that of the number: all 64 bits are tested. -/
theorem beq_zero_eq_decide_toNat (v : Word) : (v == 0) = decide (v.toNat = 0) :=
  decide_eq_decide.2 BitVec.toNat_inj.symm

theorem bne_zero_eq_decide_toNat (v : Word) : (v != 0) = decide (v.toNat ≠ 0) := by
  rw [bne, beq_zero_eq_decide_toNat, decide_not]

/-- Settles O47: both are the branch mechanism, on the test and on its negation. -/
theorem compareBranchResults : Obligations.CompareBranchResults := by
  intro rt target s h p hp
  obtain rfl | rfl : p = _ ∨ p = _ := by simpa only [List.mem_cons, List.not_mem_nil, or_false] using hp
  case inl =>
    dsimp only
    rw [← beq_zero_eq_decide_toNat]
    exact branchWhen_results (s.readReg rt == 0) h
  case inr =>
    dsimp only
    rw [← bne_zero_eq_decide_toNat]
    exact branchWhen_results (s.readReg rt != 0) h

end Sys2Proof.Machine
end

section
/-! PROOFS. The statement about the condition-code branches (46_cond_branch.md): the column of R226 is read off the table
of R210, one flag state per bit, for every condition; the fourteen columns are then compared. -/

namespace Sys2Proof.Machine

open Sys2Proof

/-- The flag state that a row of R226 stands for: the row's label `NZCV` as a binary number. -/
def flagsOfRow (row : Fin 16) : Flags :=
  ⟨row.val.testBit 3, row.val.testBit 2, row.val.testBit 1, row.val.testBit 0⟩

theorem row_lt_sixteen (f : Flags) : f.row < 16 := by
  obtain ⟨n, z, c, v⟩ := f
  have hn := n.toNat_le
  have hz := z.toNat_le
  have hc := c.toNat_le
  have hv := v.toNat_le
  simp only [Flags.row]
  omega

theorem flagsOfRow_row (f : Flags) : flagsOfRow ⟨f.row, row_lt_sixteen f⟩ = f := by
  obtain ⟨n, z, c, v⟩ := f
  revert n z c v
  decide

/-- The column of a condition (R226): what the table of R210 says of it, flag state by flag state. -/
def Cond.column (cond : Cond) : BitVec 16 := BitVec.ofFnLE fun row => cond.holds (flagsOfRow row)

theorem Cond.column_getLsbD_row (cond : Cond) (f : Flags) : cond.column.getLsbD f.row = cond.holds f := by
  rw [column, BitVec.getLsbD_ofFnLE, dif_pos (row_lt_sixteen f), flagsOfRow_row]

/-- The branch on a condition (R212 to R225). -/
def Cond.instr (cond : Cond) (target : Int) : Instr :=
  match cond with
  | .eq => .beq target
  | .ne => .bne target
  | .hs => .bhs target
  | .lo => .blo target
  | .hi => .bhi target
  | .ls => .bls target
  | .ge => .bge target
  | .lt => .blt target
  | .gt => .bgt target
  | .le => .ble target
  | .mi => .bmi target
  | .pl => .bpl target
  | .vs => .bvs target
  | .vc => .bvc target

/-- Each of the fourteen is the branch mechanism on its own condition (R211). -/
theorem exec_condInstr (cond : Cond) (target : Int) (s : State) :
    exec (cond.instr target) s = branchWhen (cond.holds s.flags) target s := by
  cases cond <;> rfl

/-- The conditions in the order of the table of R210. -/
def Cond.inTableOrder : List Cond :=
  [.eq, .ne, .hs, .lo, .hi, .ls, .ge, .lt, .gt, .le, .mi, .pl, .vs, .vc]

/-- The columns that R226 gives are those of R210, all 224 entries. -/
theorem condForms_columns : condForms.map Prod.snd = Cond.inTableOrder.map Cond.column := by decide

theorem condForms_instrs : condForms.map Prod.fst = Cond.inTableOrder.map Cond.instr := rfl

/-- A line of the claim's table is a condition's branch with that condition's column. -/
theorem cond_of_mem_condForms {p : (Int → Instr) × BitVec 16} (hp : p ∈ condForms) :
    ∃ cond : Cond, p = (cond.instr, cond.column) := by
  have hforms : condForms = Cond.inTableOrder.map fun cond => (cond.instr, cond.column) := by
    rw [← List.zip_map', ← condForms_instrs, ← condForms_columns, ← List.unzip_fst, ← List.unzip_snd, List.zip_unzip]
  rw [hforms] at hp
  obtain ⟨cond, -, rfl⟩ := List.mem_map.1 hp
  exact ⟨cond, rfl⟩

/-- Settles O48: the flag state's bit of the column is the condition there, and the branch is the mechanism on it. -/
theorem condBranchTruthTable : Obligations.CondBranchTruthTable := by
  intro p hp target s htarget
  obtain ⟨cond, rfl⟩ := cond_of_mem_condForms hp
  dsimp only
  rw [cond.column_getLsbD_row, exec_condInstr]
  exact branchWhen_results (cond.holds s.flags) htarget

end Sys2Proof.Machine
end

section
/-! PROOFS. The statements about B, BL and BR (47_uncond_branch.md): the address of an index as a number, what a link
leaves, and the three outcomes of BR, which share out every register value between them. -/

namespace Sys2Proof.Machine

open Sys2Proof

/-! ### The address of an index (R11, R38) -/

theorem State.instrAddr_eq_ofNat (s : State) (i : Nat) :
    s.instrAddr i = BitVec.ofNat 64 (s.params.textBase.toNat + 4 * i) := by
  rw [BitVec.ofNat_add, BitVec.ofNat_toNat, BitVec.setWidth_eq]
  rfl

/-- Under the constraint of R38 no address of the program wraps. -/
theorem State.instrAddr_toNat {s : State} (hs : s.StrapsOk) {i : Nat} (hi : i ≤ s.plen) :
    (s.instrAddr i).toNat = s.params.textBase.toNat + 4 * i := by
  have hfits := hs.fits
  rw [instrAddr_eq_ofNat, BitVec.toNat_ofNat, Nat.mod_eq_of_lt (by omega)]

/-- An address depends on the straps alone. -/
theorem State.instrAddr_congr {s t : State} (h : t.params = s.params) (i : Nat) : t.instrAddr i = s.instrAddr i := by
  unfold State.instrAddr
  rw [h]

/-- The constraints of R8 and R38 speak of the straps and the program alone. -/
theorem State.StrapsOk.congr {s t : State} (h : s.StrapsOk) (hprog : t.prog = s.prog) (hparams : t.params = s.params) :
    t.StrapsOk :=
  ⟨hparams ▸ h.text, hparams ▸ h.stack, by rw [State.plen_congr hprog, hparams]; exact h.fits⟩

/-! ### B and BL (R231, R232) -/

/-- A branch out of a state with one register written leaves, of the state before the write, all but that register. -/
theorem branchFrame_of_writeReg {s t : State} {r : RegNum} {v : Word} (h : branchFrame [] (s.writeReg r v) t) :
    branchFrame [r] s t := by
  obtain ⟨-, -, hregs, hmem, -⟩ := s.writeReg_spec r v
  obtain ⟨hregs', hflags, hxtag, hstxr, hic, hdc, hstatus, hport, hmem', hprog, hparams⟩ := h
  simp only [State.writeReg_flags, State.writeReg_xtag, State.writeReg_stxrOk, State.writeReg_ic, State.writeReg_dc,
    State.writeReg_status, State.writeReg_port, State.writeReg_prog, State.writeReg_params]
    at hflags hxtag hstxr hic hdc hstatus hport hprog hparams
  exact ⟨fun q hq => (hregs' q List.not_mem_nil).trans (hregs q hq), hflags, hxtag, hstxr, hic, hdc, hstatus, hport,
    fun b => (hmem' b).trans (hmem b), hprog, hparams⟩

/-- A BL that is not refused links the address at the advanced index, then branches. -/
theorem exec_bl_next {target : Int} {s t : State} (h : exec (.bl target) s = .next t) :
    t = (s.writeReg lrIndex (s.instrAddr s.idx)).branch target.toNat := by
  obtain ⟨-, -, ⟨-, ht⟩ | ⟨hfalse, -⟩⟩ := branchWhen_cases (show execBl target s = .next t from h)
  · exact ht
  · cases hfalse

/-- Register 30 is not the zero register, so the branch keeps what was linked. -/
theorem readReg_link_branch (s : State) (v : Word) (k : Nat) :
    ((s.writeReg lrIndex v).branch k).readReg lrIndex = v :=
  (State.readReg_congr (State.branch_regs _ k) lrIndex).trans (s.readReg_writeReg_same lrIndex v (by decide))

/-- Settles O49: both are the branch mechanism under the condition that always holds, BL out of the state with the link
register written. -/
theorem branchAndLinkResults : Obligations.BranchAndLinkResults := by
  intro target s h
  refine ⟨branchWhen_results true h, ?link⟩
  have hlinked : target ≤ (s.writeReg lrIndex (s.instrAddr s.idx)).plen := by
    rwa [State.plen_congr (s.writeReg_prog lrIndex _)]
  obtain ⟨t, ht, hidx, htaken, hframe⟩ := branchWhen_results true hlinked
  have hexec : exec (.bl target) s = .next t := ht
  refine ⟨t, hexec, hidx, htaken, ?_, branchFrame_of_writeReg hframe⟩
  rw [exec_bl_next hexec, readReg_link_branch, State.instrAddr_eq_ofNat]

/-! ### The outcomes of BR (R233): alignment first, then range -/

/-- The two low bits of an address are its remainder modulo 4. -/
theorem lowBits_eq_zero_iff (a : Word) : a.extractLsb' 0 2 = 0 ↔ a.toNat % 4 = 0 := by
  rw [← BitVec.toNat_inj, BitVec.extractLsb'_toNat, Nat.shiftRight_zero]
  rfl

section Register

variable {rn : RegNum} {s : State}

theorem exec_br_misaligned (h : (s.readReg rn).toNat % 4 ≠ 0) :
    exec (.br rn) s = .next (s.takeFault { kind := .pcAlignment, addr := s.readReg rn }) :=
  congrArg Run.outcome (if_pos (mt (lowBits_eq_zero_iff _).1 h))

theorem exec_br_aligned (h : (s.readReg rn).toNat % 4 = 0) :
    exec (.br rn) s =
      if s.inText (s.readReg rn) then
        .next (s.branch (((s.readReg rn).toNat - s.params.textBase.toNat) / 4))
      else .next (s.takeFault { kind := .segment, addr := s.readReg rn }) :=
  (congrArg Run.outcome (if_neg (not_not.2 ((lowBits_eq_zero_iff _).2 h)))).trans (apply_ite Run.outcome _ _ _)

/-- BR to the address of an index: the address is aligned, lies in the text, and its distance from the base is the
index. -/
theorem exec_br_instrAddr {k : Nat} (hs : s.StrapsOk) (hk : k ≤ s.plen) (h : s.readReg rn = s.instrAddr k) :
    exec (.br rn) s = .next (s.branch k) := by
  have hbase := hs.text
  have haddr : (s.readReg rn).toNat = s.params.textBase.toNat + 4 * k := by rw [h, State.instrAddr_toNat hs hk]
  have hin : s.inText (s.readReg rn) = true := (s.inText_iff _).2 (by omega)
  have hindex : ((s.readReg rn).toNat - s.params.textBase.toNat) / 4 = k := by omega
  rw [exec_br_aligned (by omega), if_pos hin, hindex]

end Register

/-! ### The obligations about BR -/

/-- Settles O50: the register holds the address of the index, which is where BR goes. -/
theorem branchRegisterResults : Obligations.BranchRegisterResults := by
  intro rn k s hs hk h
  exact ⟨s.branch k, exec_br_instrAddr hs hk h, rfl, rfl, branchFrame_branch s k⟩

/-- Settles O51: the first check that fails raises, and taking the fault writes the status alone. -/
theorem branchRegisterFaults : Obligations.BranchRegisterFaults := by
  intro rn s
  refine ⟨fun hmis => ?misaligned, fun hal hout => ?outside⟩
  case misaligned => rw [exec_br_misaligned hmis, State.takeFault_eq]
  case outside =>
    have hnot : ¬ s.inText (s.readReg rn) = true := by
      rw [State.inText_iff]
      omega
    rw [exec_br_aligned hal, if_neg hnot, State.takeFault_eq]

/-- Settles O52: BL links the address of the index after it, and with the same straps and program that is the address
of the same index for BR. -/
theorem branchRegisterReturnsFromCall : Obligations.BranchRegisterReturnsFromCall := by
  intro target s t u hs hidx hcall hlink hprog hparams
  obtain rfl := exec_bl_next hcall
  have hprog' : u.prog = s.prog := by simpa using hprog
  have hparams' : u.params = s.params := by simpa using hparams
  have haddr : u.readReg lrIndex = u.instrAddr s.idx := by
    rw [hlink, readReg_link_branch, State.instrAddr_congr hparams']
  have hret : exec (.br lrIndex) u = .next (u.branch s.idx) :=
    exec_br_instrAddr (hs.congr hprog' hparams') (by rwa [State.plen_congr hprog']) haddr
  exact ⟨u.branch s.idx, hret, rfl, rfl, branchFrame_branch u s.idx⟩

end Sys2Proof.Machine
end

section
/-! PROOFS. The statements about faults (60_exceptions.md) and about the step, the run and reset
(70_reset_and_hazards.md). Whether an instruction faulted is read off the status: every effect that is no fault keeps
it, which is also why no step answers `Ready`. -/

namespace Sys2Proof.Machine

open Sys2Proof

/-! ### What a fault of an instruction leaves (R240, R246, R247) -/

/-- What a fault of kind `k` leaves of memory: nothing was written, and a segment fault of an instruction that stores
then means that its address was not valid; or the store was made, and the refill after it faulted. -/
inductive FaultMemory (i : Instr) (s t : State) (k : FaultKind) : Prop where
  | unwritten (hmem : memSame s t)
      (hinvalid : k = .segment → ∀ a n v, storesAs i s a n v → s.params.memValid a n .store = false)
  | written (a : Word) (n : Nat) (v : Word) (hstores : storesAs i s a n v)
      (hvalid : s.params.memValid a n .store = true) (hbytes : storesValue a.toNat n v s t) (hkind : k = .segment)
      (hdc : s.dc ≠ none)

theorem Probed.status {s u : State} (h : Probed s u) : u.status = s.status := by simp [h.only.fields]

theorem writing_faulting {m : Mnemonic} (h : m ∈ writing) : m ∈ faulting := by
  revert h; cases m <;> decide

/-- An instruction keeps the status, or it faulted, with the record of the instruction in progress. -/
theorem Effect.status {i : Instr} {s t : State} (h : Effect i s t) :
    t.status = s.status ∨
      ∃ f, t.status = s.record f.kind f.addr ∧ faultFrame s t ∧ faultFits i s f ∧ FaultMemory i s t f.kind := by
  cases h with
  | computes | nothing | branches | links | stxrFails => exact .inl (by simp)
  | loads _ _ _ _ _ hp | loadsExclusive _ _ _ _ _ _ hp | stores _ _ _ _ _ _ _ _ hp | stxrStores _ _ _ _ _ _ _ hp =>
    exact .inl (by simp [hp.status])
  | faults f u hp hf hw =>
    obtain ⟨hst, hfr⟩ := hp.only.takeFault f
    exact .inr ⟨f, hst, hfr, hf, .unwritten (memSame_of_mem_eq hp.mem) hw⟩
  | faultsAfterStore f a n v u hv hp hi hd hk =>
    obtain ⟨hst, hfr, hbytes⟩ := hp.only.takeFault_written f
    exact .inr ⟨f, hst, hfr, faultFits_segment hk (writing_faulting (storesAs_writing hi)),
      .written a n v hi hv hbytes hk hd⟩

/-- An instruction stores one value of one size at one address. -/
theorem storesAs_unique {i : Instr} {s : State} {a a' : Word} {n n' : Nat} {v v' : Word} (h : storesAs i s a n v)
    (h' : storesAs i s a' n' v') : a = a' ∧ n = n' ∧ v = v' := by
  obtain ⟨f, hf, rt, rn, off, rfl, rfl, rfl, rfl⟩ | ⟨rt, rs, rn, rfl, rfl, rfl, rfl⟩ := h
  · obtain ⟨rfl, rfl, rfl⟩ := (storesAs_store hf).1 h'
    exact ⟨rfl, rfl, rfl⟩
  · obtain ⟨rfl, rfl, rfl⟩ := storesAs_stxr.1 h'
    exact ⟨rfl, rfl, rfl⟩

/-- A segment fault of an instruction that stores: the store was made exactly when its address is valid. -/
theorem FaultMemory.of_storesAs {i : Instr} {s t : State} {a : Word} {n : Nat} {v : Word}
    (h : FaultMemory i s t .segment) (hi : storesAs i s a n v) :
    if s.params.memValid a n .store then storesValue a.toNat n v s t else memSame s t := by
  cases h with
  | unwritten hmem hinvalid => rwa [hinvalid rfl a n v hi, if_neg Bool.false_ne_true]
  | written a' n' v' hstores hvalid hbytes =>
    obtain ⟨rfl, rfl, rfl⟩ := storesAs_unique hi hstores
    rwa [if_pos hvalid]

/-- Only the refill of a store, with a data cache, faults with a byte of memory changed. -/
theorem FaultMemory.of_byteAt_ne {i : Instr} {s t : State} {k : FaultKind} (h : FaultMemory i s t k) {b : Nat}
    (hb : t.byteAt b ≠ s.byteAt b) : i.mnemonic ∈ writing ∧ k = .segment ∧ s.dc ≠ none := by
  cases h with
  | unwritten hmem => exact absurd (hmem b) hb
  | written _ _ _ hstores _ _ hkind hdc => exact ⟨storesAs_writing hstores, hkind, hdc⟩

/-- Settles O25: the status changed, so the effect of the instruction was one of the two that fault. -/
theorem faultLeavesStateAsListed : Obligations.FaultLeavesStateAsListed := by
  intro i s t r hs h hr
  obtain hsame | ⟨⟨k, a⟩, hst, hfr, hfits, hmem⟩ := (exec_effect h).status
  · rw [hs, hr] at hsame; cases hsame
  rw [hr] at hst
  cases hst
  refine ⟨hfr, rfl, fun ⟨_, hb⟩ => hmem.of_byteAt_ne hb, fun f hf rt rn off hi hk => ?store,
    fun rt rs rn hi hk => ?stxr, fun hk => ?pc, fun hk => ?sp, fun hk => ?segment⟩
  all_goals cases hk
  case store => exact hmem.of_storesAs (hi ▸ (storesAs_store hf).2 ⟨rfl, rfl, rfl⟩)
  case stxr => exact hmem.of_storesAs (hi ▸ storesAs_stxr.2 ⟨rfl, rfl, rfl⟩)
  all_goals exact hfits

/-! ### Loads that fault without a data cache (R244) -/

/-- A load or LDXR that faulted has a destination, and its lines raised. -/
theorem loadValue_raised_of_exec {i : Instr} {rt rn : RegNum} {off : BitVec 9} {n : Nat} {s t : State} {r : FaultRecord}
    (hi : i = .ldxr rt rn off ∧ n = 8 ∨ ∃ g ∈ loadForms, i = g.instr rt rn off ∧ n = g.size)
    (hs : s.status = .continuing) (h : exec i s = .next t) (hr : t.status = .faulted r) :
    rt ≠ zr ∧ ∃ f u, loadValue rn (s.effAddr rn off) n s = .raised f u := by
  have hrt : rt ≠ zr := by
    rintro rfl
    obtain ⟨rfl, -⟩ | ⟨g, hg, rfl, -⟩ := hi
    · cases h
    · obtain ⟨e, hexec, -⟩ := exec_loadForm hg
      rw [hexec] at h
      cases h
      rw [hs] at hr; cases hr
  refine ⟨hrt, ?_⟩
  cases hl : loadValue rn (s.effAddr rn off) n s with
  | raised f u => exact ⟨f, u, rfl⟩
  | done v u =>
    have hu : u.status = .continuing := by
      obtain ⟨-, -, -, -, honly, -, -⟩ := loadValue_done hl
      simp [honly.fields, hs]
    have ht : t.status = u.status := by
      obtain ⟨rfl, rfl⟩ | ⟨g, hg, rfl, rfl⟩ := hi
      · rw [exec_ldxr hrt, hl] at h; cases h; simp
      · obtain ⟨e, hexec, -⟩ := exec_loadForm hg
        rw [hexec, load_eq hrt, hl] at h; cases h; simp
    rw [ht, hu] at hr; cases hr

/-- The lines of a load that get to their end do so without the data cache too: what could stop them there, the
stack-pointer check and the read, does not look at it. -/
theorem loadValue_done_without_dc {rn : RegNum} {a : Word} {n : Nat} {s t : State} {v : Word}
    (h : loadValue rn a n s = .done v t) : ∃ u, loadValue rn a n { s with dc := none } = .done v u := by
  obtain ⟨hb, -, hv, rfl, -, -, -⟩ := loadValue_done h
  exact loadValue_of_ok (s := { s with dc := none }) hb (probeOk_of_none rfl a n) hv

/-- Settles O59: the lines raise without the data cache, so with one they do not get to their end. -/
theorem dataCacheNeverHidesLoadFault : Obligations.DataCacheNeverHidesLoadFault := by
  intro i rt rn off s t u r hform hs ht hr hu
  obtain ⟨n, hi⟩ : ∃ n, i = .ldxr rt rn off ∧ n = 8 ∨ ∃ g ∈ loadForms, i = g.instr rt rn off ∧ n = g.size := by
    obtain rfl | ⟨g, hg, rfl⟩ := hform
    · exact ⟨8, .inl ⟨rfl, rfl⟩⟩
    · exact ⟨g.size, .inr ⟨g, hg, rfl, rfl⟩⟩
  obtain ⟨hrt, f, w, hraised⟩ := loadValue_raised_of_exec (s := { s with dc := none }) hi hs ht hr
  cases hl : loadValue rn (s.effAddr rn off) n s with
  | done v x =>
    obtain ⟨y, hy⟩ := loadValue_done_without_dc hl
    cases hraised.symm.trans hy
  | raised f' x =>
    cases (exec_of_loadValue_raised hrt hi hl).symm.trans hu
    exact ⟨_, State.takeFault_status x f'⟩

/-! ### The run (R278, R279) -/

/-- A step returns `Continuing`, `Completed` or `Faulted`, never `Ready` (R273, R274). -/
theorem step_status_ne_ready {s t : State} (h : step s = .next t) : t.status ≠ .ready := by
  obtain ⟨-, rfl⟩ | ⟨slot, i, -, -, -, ⟨f, u, -, rfl⟩ | ⟨hit, u, hu, hx⟩⟩ := step_cases h
  · exact nofun
  · exact nofun
  · have hc : u.status = .continuing := by rw [(cacheProbe_done hu).1]; rfl
    obtain hst | ⟨f, hst, -⟩ := (exec_effect hx).status
    · rw [hst, hc]; exact nofun
    · rw [hst]; exact nofun

/-- A run that ended keeps its result; one that is out of fuel goes on from where it is with `n` more. -/
def RunOutcome.resume (n : Nat) (r : RunOutcome) : RunOutcome :=
  match r with
  | .outOfFuel t => runFuel n t
  | r => r

/-- Running with the fuel of two goes is running the one and then the other. -/
theorem runFuel_add (m n : Nat) (s : State) : runFuel (m + n) s = (runFuel m s).resume n := by
  induction m generalizing s with
  | zero => rw [Nat.zero_add]; rfl
  | succ m ih =>
    rw [Nat.succ_add]
    cases hstep : step s with
    | fault | refused => simp only [runFuel, hstep, RunOutcome.resume]
    | next t => cases hst : t.status <;> simp only [runFuel, hstep, hst, RunOutcome.resume, ih]

theorem RunOutcome.resume_of_ended {r : RunOutcome} (h : ∀ t, r ≠ .outOfFuel t) (n : Nat) : r.resume n = r := by
  cases r with
  | outOfFuel t => exact absurd rfl (h t)
  | _ => rfl

/-- Settles O16: what a run does with its first step is its definition, and fuel adds up. -/
theorem runIsIteratedStep : Obligations.RunIsIteratedStep := by
  refine ⟨fun _ => rfl, fun n s t h => ⟨fun hc => ?completed, fun r hr => ?faulted, fun hc => ?continuing,
    step_status_ne_ready h⟩, fun n s f h => ?stopped, fun n s r h => ?refused, fun m n s t h => ?add,
    fun m n s h => ?enough⟩
  case completed => simp only [runFuel, h, hc]
  case faulted => simp only [runFuel, h, hr]
  case continuing => simp only [runFuel, h, hc]
  case stopped => simp only [runFuel, h]
  case refused => simp only [runFuel, h]
  case add => rw [runFuel_add, h]; rfl
  case enough => rw [runFuel_add, RunOutcome.resume_of_ended h]

/-! ### The step at a decoded word, and at the end of the program (R273, R274) -/

theorem slotOfWord_of_decode {k : Nat} {w : InstrWord} {i : Instr} (h : decode k w = .ok i) (line : Nat) :
    slotOfWord k w line = { form := .instr i, line := line } := by
  rw [slotOfWord, h]

/-- An instruction whose fetch went through the instruction-cache probe is executed where the probe left the state. -/
theorem runInstr_of_probe {k : Nat} {i : Instr} {s u : State} {hit : Bool} (h : iProbe k s = .done hit u) :
    runInstr k i s = exec i u := by
  rw [runInstr, h]

/-- Settles O7: the position holds the instruction, and the probe of the begun step gets to its end, with only the
instruction cache and the port changed. -/
theorem stepRunsFetchedInstruction : Obligations.StepRunsFetchedInstruction := by
  intro s w i line hw hs
  rw [slotOfWord_of_decode hw] at hs
  have hstep := step_of_instr hs rfl
  refine ⟨fun hic => ?nocache, fun hp => ?probed⟩
  case nocache =>
    rw [hstep]
    exact runInstr_of_probe (cacheProbe_none (pos := .ic) (s := s.beginStep) hic _ _)
  case probed =>
    have hbegun : probeOk .ic (s.instrAddr s.idx) isize s.beginStep := hp
    obtain ⟨hit, hdone⟩ := (cacheProbe_done_iff ..).2 hbegun
    obtain ⟨hframe, hother, hnone, hchecked⟩ := cacheProbe_done hdone
    have hrun : step s = exec i (cacheProbe .ic (s.instrAddr s.idx) isize s.beginStep).final :=
      hstep.trans (runInstr_of_probe hdone)
    generalize (cacheProbe .ic (s.instrAddr s.idx) isize s.beginStep).final = u at *
    obtain ⟨hidx, htaken, hstatus, hregs, hflags, hxtag, hstxr, hmem, hfixed⟩ :
        u.idx = s.idx + 1 ∧ u.taken = false ∧ u.status = .continuing ∧ u.regs = s.regs ∧ u.flags = s.flags ∧
          u.xtag = s.xtag ∧ u.stxrOk = s.stxrOk ∧ u.mem = s.mem ∧ fixedSame s u := by
      rw [hframe]
      exact ⟨rfl, rfl, rfl, rfl, rfl, rfl, rfl, rfl, rfl, rfl⟩
    refine ⟨u, hrun, hidx, htaken, hstatus, hregs, hflags, hxtag, hstxr, hother .dc (by decide), hmem, hfixed,
      fun hic => ?_, fun c hc => ?_⟩
    · rw [hnone hic]; exact hic
    · obtain ⟨c', hc', honce, -⟩ := hchecked c hc
      exact ⟨c', hc', honce⟩

/-- Settles O9: the index is at the end, so the step completes, which writes the status and the port alone. -/
theorem stepAtEndCompletes : Obligations.StepAtEndCompletes :=
  fun s h => ⟨s.complete, if_pos h, rfl, rfl, rfl⟩

/-! ### The validation of the cache pairs at reset (R270) -/

theorem resetPosition_of_error {pos : CachePos} {cfg : Option CachePair} {pair : CachePair}
    (rest : Option Cache → ResetOutcome) (hcfg : cfg = some pair) (h : buildCache pair = .configurationError) :
    resetPosition pos cfg rest = .configurationError pos pair := by
  subst hcfg
  simp only [resetPosition, h]

/-- Settles O15: the data side is looked at where the instruction side has nothing to object to, and both before the
program. -/
theorem resetReportsBadPair : Obligations.ResetReportsBadPair := by
  intro params prog mem pair hbad
  refine ⟨fun hic => resetPosition_of_error _ hic hbad, fun hic hdc => ?_⟩
  obtain ⟨c, hc⟩ := resetPosition_of_builds (pos := .ic) (fun ic => resetPosition .dc params.dcCfg fun dc =>
    resetProgram prog (.ready (State.fresh params ic dc prog mem))) hic
  exact hc.trans (resetPosition_of_error _ hdc hbad)

end Sys2Proof.Machine
end
